-- ==== Sys2Proof/Word.lean ====
section
/-! DEFINITION. The smallest values of the hardware: a byte (R11) and a line level (R12). -/

namespace Sys2Proof

/-- A byte: 8 bits, an unsigned value 0 to 255; bit 0 is the least significant (R11). -/
abbrev Byte := BitVec 8

/-- A line level: `lo` is `L` (0), `hi` is `H` (1) (R12). -/
inductive Level where
  | lo
  | hi
  deriving DecidableEq, Repr, Inhabited

end Sys2Proof
end

