-- ==== Sys2Proof/Config.lean ====
section
/-! DEFINITION. What the spec leaves to the platform: the error types `E` (R265, D7), the host's command signals of
one tick (R45, R46, R50), and the free values. Every free value is an opaque constant without a body, applied to a call
number, a local time or an index: no proof can see what it is. -/

namespace Sys2Proof

/-- PARAMETER (log 7): how many values beside the first the output pin's error type `E` has (R9, D7). -/
opaque Config.drvErrKinds : Nat

/-- PARAMETER (log 7): how many values beside the first the input pin's error type `E` has (R9, D7). -/
opaque Config.pinErrKinds : Nat

/-- A value of the output pin's error type `E` (R265): the core never inspects it. `E` is a parameter (D7, U1): a type of
unknown size, in which no proof can show two values to differ (log 7). -/
structure DrvErr where
  code : Fin (Config.drvErrKinds + 1)
  deriving DecidableEq, Repr, Inhabited

/-- A value of the input pin's error type `E` (R265), a parameter like the output pin's and not the same one (log 7); it
never leaves `READ_BIT` (R171). -/
structure PinErr where
  code : Fin (Config.pinErrKinds + 1)
  deriving DecidableEq, Repr, Inhabited

/-- The host's signals in one tick: `rst` (R45), `tx_start` and `tx_len_in` (R46), `rx_start` and `rx_cap_in` (R50),
and its stores into `TXBUF` (indices 0 to 254, R20). The spec orders the stores only before `tx_start` (R76, R285): that any
number of them fits into one tick, in the order listed, is the model's choice (DESIGN CHOICE, log 37). -/
structure HostIn where
  rst     : Bool
  txStart : Bool
  txLenIn : BitVec 8
  rxStart : Bool
  rxCapIn : BitVec 9
  txStore : List (Fin 255 × Byte)
  deriving DecidableEq, Repr, Inhabited

/-- FREE VALUE (log 6): the answer of drive call number `n` when no answer is listed; `none` is `Ok` (R58). -/
opaque Config.drvErr : Nat → Option DrvErr

/-- FREE VALUE (log 6): `pin_in` at the receiver's local time `t` beyond the listed wave (R58). -/
opaque Config.pinLevel : Nat → Level

/-- FREE VALUE (log 6): `pin_err` with its code at the receiver's local time `t` beyond the listed wave (R58). -/
opaque Config.pinErr : Nat → Option PinErr

/-- FREE VALUE (log 6): the host's signals in tick `t` beyond the listed ones (R58). -/
opaque Config.hostIn : Nat → HostIn

/-- FREE VALUE (log 8): the level of the output line after drive call number `n` answered `Err` (R29, U2). -/
opaque Config.lineAfterErr : Nat → Level

/-- FREE VALUE (log 9): what `TXBUF[j]` holds before anything has written it (R59). -/
opaque Config.txbufInit : Nat → Byte

/-- FREE VALUE (log 10): `tx_err_code` in tick `t` while `tx_err = 0` (R47, U11). -/
opaque Config.txErrCodeIdle : Nat → DrvErr

/-- FREE VALUE (log 10): `tx_addr` in tick `t` when no payload read is made (R48, U11). -/
opaque Config.txAddrIdle : Nat → BitVec 8

/-- FREE VALUE (log 10): `rx_len_out` in tick `t` while `rx_some = 0` (R51, U11). -/
opaque Config.rxLenIdle : Nat → BitVec 8

/-- FREE VALUE (log 10): `rx_addr` in tick `t` while `rx_we = 0` (R51, U11). -/
opaque Config.rxAddrIdle : Nat → BitVec 8

/-- FREE VALUE (log 10): `rx_wdata` in tick `t` while `rx_we = 0` (R51, U11). -/
opaque Config.rxDataIdle : Nat → Byte

/-- FREE VALUE (log 10): the unspecified low bits of the byte result and of the measurement on their wires (R98). -/
opaque Config.byteWireIdle : Nat → Byte

/-- FREE VALUE (log 10): the unspecified duration bits beside an `Err` on the measurement's wires (R98). -/
opaque Config.measWireIdle : Nat → BitVec 11

end Sys2Proof
end

