-- ==== Sys2Proof/Machine/Params.lean ====
section
/-! DEFINITION. The fixed parameters of R8, the derived constants of R10 and the decided ones of R9. All durations are in
microseconds; one tick is one microsecond (R9 `TICK_US`). -/

namespace Sys2Proof.Machine

/-- `T_ONE_HIGH` (R8): high time of a 1 bit. -/
abbrev tOneHigh : Nat := 400
/-- `T_ZERO_HIGH` (R8): high time of a 0 bit. -/
abbrev tZeroHigh : Nat := 800
/-- `T_GAP` (R8): low time after every pulse. -/
abbrev tGap : Nat := 600
/-- `POLL_STEP` (R8): the delay between two reads while the pin is high. -/
abbrev pollStep : Nat := 10
/-- `PULSE_CAP` (R8): the largest measured duration. -/
abbrev pulseCap : Nat := 2000
/-- `TH_NOISE` (R8). -/
abbrev thNoise : Nat := 100
/-- `TH_ONE_MIN` (R8). -/
abbrev thOneMin : Nat := 180
/-- `TH_ONE_MAX` (R8). -/
abbrev thOneMax : Nat := 500
/-- `TH_ZERO_MIN` (R8). -/
abbrev thZeroMin : Nat := 501
/-- `TH_ZERO_MAX` (R8). -/
abbrev thZeroMax : Nat := 900
/-- `HEADER_BYTES` (R8). -/
abbrev headerBytes : Nat := 3
/-- `HEADER_BITS` (R8). -/
abbrev headerBits : Nat := 24
/-- `SYNC` (R8). -/
abbrev syncByte : Byte := 0x55#8
/-- `BITS_PER_BYTE` (R8). -/
abbrev bitsPerByte : Nat := 8
/-- `MAX_PAYLOAD` (R8). -/
abbrev maxPayload : Nat := 255
/-- `FRAME_OVERHEAD_BYTES` (R10): header, sync and length. -/
abbrev frameOverheadBytes : Nat := 5
/-- `T_ONE_PERIOD` (R10). -/
abbrev tOnePeriod : Nat := tOneHigh + tGap
/-- `T_ZERO_PERIOD` (R10). -/
abbrev tZeroPeriod : Nat := tZeroHigh + tGap
/-- `CAP_READS` (R9, D9): high reads after which a measurement stops. -/
abbrev capReads : Nat := pulseCap / pollStep
/-- `FRAME_BITS(n)` (R10). -/
def frameBitCount (n : Nat) : Nat := bitsPerByte * (frameOverheadBytes + n)

end Sys2Proof.Machine
end

