-- ==== Sys2Proof/Syntax.lean ====
section
/-! DEFINITION. The instruction set: one constructor of `Instr` for each of the 22 rows of spec/opcode_table.json, in the
table's order, and the host's program line that carries one (R99, R106; log 1). -/

namespace Sys2Proof

/-- One constructor per row of the opcode table. -/
inductive Instr where
  /-- SYM1: the symbol `H400 L600` (R91). -/
  | sym1
  /-- SYM0: the symbol `H800 L600` (R91). -/
  | sym0
  /-- BYTE: eight symbols, bit 0 first (R93). -/
  | byte (b : Byte)
  /-- HEADER: 24 symbols SYM0 (R92). -/
  | header
  /-- SYNC: the byte 0x55 (R92). -/
  | sync
  /-- LENGTH: the payload length as one byte (R94). -/
  | length (n : Byte)
  /-- PAYLOAD_BYTE: one payload byte, any value (R92, R103). -/
  | payloadByte (b : Byte)
  /-- FRAME: header, sync, length and payload (R92). -/
  | frame (p : List Byte)
  /-- BAND_NOISE: a duration of 0 to 99 (R97). -/
  | bandNoise (d : Nat)
  /-- BAND_DEAD: a duration of 100 to 179 (R97). -/
  | bandDead (d : Nat)
  /-- BAND_ONE: a duration of 180 to 500 (R97). -/
  | bandOne (d : Nat)
  /-- BAND_ZERO: a duration of 501 to 900 (R97). -/
  | bandZero (d : Nat)
  /-- BAND_OVER: a duration of 901 or more (R97). -/
  | bandOver (d : Nat)
  /-- SEND_BIT (R131). -/
  | sendBit (b : Bool)
  /-- SEND_BYTE (R133). -/
  | sendByte (b : Byte)
  /-- SEND of a payload (R136; the host line `SEND [b0, b1, ..]` of R106). -/
  | send (p : List Byte)
  /-- MEASURE_PULSE (R160). -/
  | measurePulse
  /-- CLASSIFY, defined on every natural number (R166, R167). -/
  | classify (d : Nat)
  /-- READ_BIT (R170). -/
  | readBit
  /-- READ_BYTE (R190). -/
  | readByte
  /-- SEEK_HEADER (R196). -/
  | seekHeader
  /-- RECEIVE with the buffer capacity of `rx_cap_in`, 9 bits (R210, R50). -/
  | receive (cap : BitVec 9)
  deriving DecidableEq, Repr

/-- Which row a program line asks for: the strobe that selects it. No operation has a binary opcode, and the host starts
its operations by separate strobes (R99); `bare` is a pattern without a strobe (log 2). -/
inductive Strobe where
  | bare
  | sym1 | sym0 | byte | header | sync | length | payloadByte | frame
  | bandNoise | bandDead | bandOne | bandZero | bandOver
  | sendBit | sendByte | send
  | measurePulse | classify | readBit | readByte | seekHeader | receive
  deriving DecidableEq, Repr

/-- One line of the host's program (R106): a strobe and the bits of the row's pattern, first on the wire first. -/
structure Line where
  strobe  : Strobe
  pattern : List Bool
  deriving DecidableEq, Repr

/-- The strobe of an instruction's row. -/
def Instr.strobe : Instr → Strobe
  | .sym1 => .sym1
  | .sym0 => .sym0
  | .byte _ => .byte
  | .header => .header
  | .sync => .sync
  | .length _ => .length
  | .payloadByte _ => .payloadByte
  | .frame _ => .frame
  | .bandNoise _ => .bandNoise
  | .bandDead _ => .bandDead
  | .bandOne _ => .bandOne
  | .bandZero _ => .bandZero
  | .bandOver _ => .bandOver
  | .sendBit _ => .sendBit
  | .sendByte _ => .sendByte
  | .send _ => .send
  | .measurePulse => .measurePulse
  | .classify _ => .classify
  | .readBit => .readBit
  | .readByte => .readByte
  | .seekHeader => .seekHeader
  | .receive _ => .receive

end Sys2Proof
end

