-- ==== Sys2Proof/Machine/Operands.lean ====
section
/-! DEFINITION. The operand forms and the wire format as pure functions: bit lists of bytes and durations (R93, R97), the
bits, durations and waveform of a frame (R96), the frame's duration (R138), and the inverse readings the decoder uses. -/

namespace Sys2Proof.Machine

/-- The `w` low bits of `v`, least significant first. -/
def bitsOf : Nat → Nat → List Bool
  | 0, _ => []
  | w + 1, v => (v % 2 == 1) :: bitsOf w (v / 2)

/-- The number whose bits are listed least significant first (R93: `v0 + 2*v1 + 4*v2 + ..`). -/
def natOfBits : List Bool → Nat
  | [] => 0
  | b :: bs => b.toNat + 2 * natOfBits bs

/-- `Bits(b)` (R96): `b[0], b[1], .., b[7]`, in wire order (R69, R93). -/
def byteBits (b : Byte) : List Bool :=
  [b.getLsbD 0, b.getLsbD 1, b.getLsbD 2, b.getLsbD 3, b.getLsbD 4, b.getLsbD 5, b.getLsbD 6, b.getLsbD 7]

/-- The byte assembled from its bits in order of arrival (R93). -/
def byteOfBits (bs : List Bool) : Byte := BitVec.ofNat 8 (natOfBits bs)

/-- The number of 1 bits (R11). -/
def popcount (b : Byte) : Nat := (byteBits b).count true

/-- How many bits a duration's pattern has: the table's 11, or as many as the number needs (log 1). -/
def durWidth (d : Nat) : Nat := max 11 (d.log2 + 1)

/-- The pattern `ddddddddddd` of a duration, bit 0 first. -/
def durBits (d : Nat) : List Bool := bitsOf (durWidth d) d

/-- The 24 zero bits of a header (R92). -/
def headerPattern : List Bool := List.replicate headerBits false

/-- The eight bits of the sync byte in wire order (R69: 1, 0, 1, 0, 1, 0, 1, 0). -/
def syncPattern : List Bool := byteBits syncByte

/-- `EncodeBits(p)` (R96): header, sync, length byte, payload bytes. -/
def encodeBits (p : List Byte) : List Bool :=
  headerPattern ++ syncPattern ++ byteBits (BitVec.ofNat 8 p.length) ++ p.flatMap byteBits

/-- The high time of a bit (R91): 400 for 1, 800 for 0. -/
def highTime (b : Bool) : Nat := if b then tOneHigh else tZeroHigh

/-- The period of a symbol (R91, R10). -/
def symPeriod (b : Bool) : Nat := highTime b + tGap

/-- `EncodeDurations(p)` (R96): the list of high times. -/
def encodeDurations (p : List Byte) : List Nat := (encodeBits p).map highTime

/-- The waveform of one symbol, `H<high> L600` (R91, R12): levels with their lengths in ticks. -/
def symWave (b : Bool) : List (Level × Nat) := [(.hi, highTime b), (.lo, tGap)]

/-- The waveform of a list of bits. -/
def bitsWave (bs : List Bool) : List (Level × Nat) := bs.flatMap symWave

/-- `EncodeWave(p)` (R96). -/
def encodeWave (p : List Byte) : List (Level × Nat) := bitsWave (encodeBits p)

/-- The time one byte takes on the wire (R105, R133): `11200 - 400 * popcount(b)`. -/
def byteTime (b : Byte) : Nat := 8 * tZeroPeriod - (tZeroHigh - tOneHigh) * popcount b

/-- `D(p)`, the duration of a `SEND` that ends with `Ok` (R138). -/
def frameTime (p : List Byte) : Nat :=
  3 * byteTime 0#8 + byteTime syncByte + byteTime (BitVec.ofNat 8 p.length) + (p.map byteTime).sum

/-- The level of a waveform `k` ticks after its start, `L` when it is over. -/
def waveLevel : List (Level × Nat) → Nat → Level
  | [], _ => .lo
  | (l, n) :: w, k => if k < n then l else waveLevel w (k - n)

/-- The numbers of the eight bits of a byte, in wire order (R133: `for i in 0, 1, .., 7`). -/
def bitIndices : List (BitVec 3) := [0#3, 1#3, 2#3, 3#3, 4#3, 5#3, 6#3, 7#3]

/-- The numbers of the bytes of a frame with `n` payload bytes, `0, 1, .., n + 4` (R136). -/
def frameIndices (n : Nat) : List (BitVec 9) := (List.range (n + frameOverheadBytes)).map (BitVec.ofNat 9)

/-- `zext_9(v)` of a byte (R11, R108 e). -/
def zext9 (v : BitVec 8) : BitVec 9 := v.setWidth 9

/-- `v[i] <- b` on a byte (R108 d). -/
def setBit (v : Byte) (i : Nat) (b : Bool) : Byte :=
  (v &&& ~~~(1#8 <<< i)) ||| (if b then 1#8 <<< i else 0#8)

/-- A duration a measurement can return: a multiple of 10, at most 2000 (R163). -/
def measurable (d : Nat) : Bool := d % pollStep == 0 && d ≤ pulseCap

end Sys2Proof.Machine
end

