-- ==== Sys2Proof/WellFormed.lean ====
section
/-! DEFINITION. Which instructions are well formed: a payload has at most 255 bytes (R8 `MAX_PAYLOAD`, U3), and the
duration of a band row lies in that row's band (R97). -/

namespace Sys2Proof

open Machine

/-- The check of the operands, one line per row that has one. -/
def Instr.wellFormed : Instr → Bool
  | .frame p => p.length ≤ maxPayload
  | .send p => p.length ≤ maxPayload
  | .bandNoise d => d < thNoise
  | .bandDead d => thNoise ≤ d && d < thOneMin
  | .bandOne d => thOneMin ≤ d && d ≤ thOneMax
  | .bandZero d => thZeroMin ≤ d && d ≤ thZeroMax
  | .bandOver d => thZeroMax < d
  | .sym1 | .sym0 | .byte _ | .header | .sync | .length _ | .payloadByte _ => true
  | .sendBit _ | .sendByte _ | .measurePulse | .classify _ | .readBit | .readByte | .seekHeader | .receive _ => true

end Sys2Proof
end

