-- ==== Sys2Proof/Decode.lean ====
section
/-! DEFINITION. The decoder of program lines, total on any strobe and any bits, rejecting by name; then the encoder. The
patterns are the `encoding` column of spec/opcode_table.json in wire order (R91 to R97); the operands of operations are the
host's ports (R46, R50). No operation has a binary opcode (R99): the strobe stands for it (log 1). -/

namespace Sys2Proof

open Machine

/-- Why a line is no instruction. -/
inductive DecodeError where
  /-- The pattern has not the number of bits its row has. -/
  | patternLength
  /-- A bit the row fixes has the other value (SYM1, SYM0, SYNC). -/
  | fixedBits
  /-- The first 24 bits of a header or frame are not all zero (R92). -/
  | headerNotZero
  /-- The sync field of a frame is not 0x55 (R101). -/
  | syncNot55
  /-- The length field of a frame is not the number of its payload bytes (R94). -/
  | lengthMismatch
  /-- A duration outside the row's band (R97). -/
  | outOfBand
  /-- A pattern without a strobe that has the shape of no row (log 2). -/
  | noRow
  deriving DecidableEq, Repr

/-- A pattern of exactly eight bits is a byte, bit 0 first (R93). -/
def decodeByte : List Bool → Except DecodeError Byte
  | [a, b, c, d, e, f, g, h] => .ok (byteOfBits [a, b, c, d, e, f, g, h])
  | _ => .error .patternLength

/-- A pattern of groups of eight bits is a list of bytes; a rest of 1 to 7 bits is refused. -/
def decodeBytes : List Bool → Option (List Byte)
  | [] => some []
  | a :: b :: c :: d :: e :: f :: g :: h :: rest =>
    (decodeBytes rest).map (byteOfBits [a, b, c, d, e, f, g, h] :: ·)
  | _ => none

/-- The frame pattern `0{24} 10101010 llllllll (dddddddd){n}` (R92); answers the payload. -/
def decodeFrame (p : List Bool) : Except DecodeError (List Byte) :=
  if p.take 24 ≠ headerPattern then .error .headerNotZero
  else if (p.drop 24).take 8 ≠ syncPattern then .error .syncNot55
  else
    match decodeByte ((p.drop 32).take 8), decodeBytes (p.drop 40) with
    | .ok n, some bs => if n.toNat = bs.length then .ok bs else .error .lengthMismatch
    | _, _ => .error .patternLength

/-- The duration pattern: 11 bits, bit 0 first, or more for a larger number, whose last bit is then 1 (log 1). -/
def decodeDur (p : List Bool) : Except DecodeError Nat :=
  if durBits (natOfBits p) = p then .ok (natOfBits p) else .error .patternLength

/-- A band row: the duration, refused outside the row's band (R97). -/
def decodeBand (row : Nat → Instr) (p : List Bool) : Except DecodeError Instr :=
  match decodeDur p with
  | .ok d => if (row d).wellFormed then .ok (row d) else .error .outOfBand
  | .error e => .error e

/-- A row without operands: its pattern is exactly `want`. -/
def decodeFixed (want : List Bool) (e : DecodeError) (i : Instr) (p : List Bool) : Except DecodeError Instr :=
  if p = want then .ok i else if p.length = want.length then .error e else .error .patternLength

/-- The band row a duration falls in (R97). -/
def bandRow (d : Nat) : Instr :=
  if d < thNoise then .bandNoise d
  else if d < thOneMin then .bandDead d
  else if d ≤ thOneMax then .bandOne d
  else if d ≤ thZeroMax then .bandZero d
  else .bandOver d

/-- A pattern without a strobe (DESIGN CHOICE, log 2), by the first of these that it meets: a complete frame is FRAME; 24
zeros in front, with anything or nothing after them, are HEADER, what comes after dropped; 11 or 16 bits are a duration, in
its band's row; 0x55 in front is SYNC, what comes after dropped; up to eight bits of value 1 or 0 are SYM1 or SYM0; any other
eight bits are a BYTE; no other pattern is a row. -/
def decodeBare (p : List Bool) : Except DecodeError Instr :=
  match decodeFrame p with
  | .ok bs => .ok (.frame bs)
  | .error _ =>
    if p.take 24 = headerPattern then .ok .header
    else if p.length = 11 || p.length = 16 then .ok (bandRow (natOfBits p))
    else if p.take 8 = syncPattern then .ok .sync
    else if natOfBits p = 1 && p.length ≤ 8 then .ok .sym1
    else if natOfBits p = 0 && 1 ≤ p.length && p.length ≤ 8 then .ok .sym0
    else
      match decodeByte p with
      | .ok b => .ok (.byte b)
      | .error _ => .error .noRow

/-- The instruction a program line stands for. -/
def decodeLine (l : Line) : Except DecodeError Instr :=
  match l.strobe with
  | .bare => decodeBare l.pattern
  | .sym1 => decodeFixed [true] .fixedBits .sym1 l.pattern
  | .sym0 => decodeFixed [false] .fixedBits .sym0 l.pattern
  | .byte => (decodeByte l.pattern).map .byte
  | .header => decodeFixed headerPattern .headerNotZero .header l.pattern
  | .sync => decodeFixed syncPattern .fixedBits .sync l.pattern
  | .length => (decodeByte l.pattern).map .length
  | .payloadByte => (decodeByte l.pattern).map .payloadByte
  | .frame => (decodeFrame l.pattern).map .frame
  | .bandNoise => decodeBand .bandNoise l.pattern
  | .bandDead => decodeBand .bandDead l.pattern
  | .bandOne => decodeBand .bandOne l.pattern
  | .bandZero => decodeBand .bandZero l.pattern
  | .bandOver => decodeBand .bandOver l.pattern
  | .sendBit =>
    match l.pattern with
    | [b] => .ok (.sendBit b)
    | _ => .error .patternLength
  | .sendByte => (decodeByte l.pattern).map .sendByte
  | .send => (decodeFrame l.pattern).map .send
  | .measurePulse => decodeFixed [] .patternLength .measurePulse l.pattern
  | .classify => (decodeDur l.pattern).map .classify
  | .readBit => decodeFixed [] .patternLength .readBit l.pattern
  | .readByte => decodeFixed [] .patternLength .readByte l.pattern
  | .seekHeader => decodeFixed headerPattern .headerNotZero .seekHeader l.pattern
  | .receive =>
    if l.pattern.length = 9 then .ok (.receive (BitVec.ofNat 9 (natOfBits l.pattern))) else .error .patternLength

/-- The line of a table word: `nbits` bits of `w`, bit 0 first, without a strobe (log 2). -/
def tableLine (nbits w : Nat) : Line := ⟨.bare, bitsOf nbits w⟩

/-- The instruction the decoder reads from a word of the opcode table (log 2). -/
def decodeTableWord (nbits w : Nat) : Option Instr :=
  match decodeLine (tableLine nbits w) with
  | .ok i => some i
  | .error _ => none

/-- The bits of an instruction's row, in wire order, from the table's `encoding` column. -/
def Instr.pattern : Instr → List Bool
  | .sym1 => [true]
  | .sym0 => [false]
  | .byte b => byteBits b
  | .header => headerPattern
  | .sync => syncPattern
  | .length n => byteBits n
  | .payloadByte b => byteBits b
  | .frame p => encodeBits p
  | .bandNoise d => durBits d
  | .bandDead d => durBits d
  | .bandOne d => durBits d
  | .bandZero d => durBits d
  | .bandOver d => durBits d
  | .sendBit b => [b]
  | .sendByte b => byteBits b
  | .send p => encodeBits p
  | .measurePulse => []
  | .classify d => durBits d
  | .readBit => []
  | .readByte => []
  | .seekHeader => headerPattern
  | .receive cap => bitsOf 9 cap.toNat

/-- The program line of an instruction. -/
def encode (i : Instr) : Line := ⟨i.strobe, i.pattern⟩

end Sys2Proof
end

