-- ==== Sys2Proof/Machine/State.lean ====
section
/-! DEFINITION. The state of the machine as plain data: every register of R20 to R39, the two byte memories, the host's
program, the inputs of the step relation (R58), each agent's local time with its trace (R16, R300), and State.reset (R59). -/

namespace Sys2Proof.Machine

/-- A fault stops the machine. -/
inductive Fault where
  /-- Raised by the payload store of `RECEIVE` when `md.idx >= md.cap`. R63: such a write never happens; no state that
  meets `Safety`'s invariant raises it. Safe. -/
  | rxbufOutOfRange
  deriving DecidableEq, Repr

/-- A refusal: the line is no instruction, or has an operand the hardware cannot express. -/
inductive Refusal where
  /-- Raised by `exec`'s arm of an instruction without a meaning. Safe; no arm uses it. -/
  | notModelled (mnemonic : String)
  /-- Raised by `step` on a program line the decoder refuses. Safe. -/
  | undecodable (e : DecodeError)
  /-- Raised by SEND and FRAME on a payload of more than 255 bytes, which the 8-bit length cannot express
  (R94, 93_implementation_defined U3: refuse); no decoded line has one. Safe. -/
  | payloadTooLong
  deriving DecidableEq, Repr

/-- `tx.phase` (R26). -/
inductive TxPhase where
  | idle | high | gap
  deriving DecidableEq, Repr

/-- `tx.result` (R28). -/
inductive TxResult where
  | none | ok | err (e : DrvErr)
  deriving DecidableEq, Repr

/-- The encoder's registers (R21 to R28). -/
structure Tx where
  busy   : Bool
  len    : BitVec 8
  k      : BitVec 9
  i      : BitVec 3
  cur    : Byte
  phase  : TxPhase
  timer  : BitVec 10
  result : TxResult
  deriving DecidableEq, Repr

/-- `pwc.phase` (R30). -/
inductive PwcPhase where
  | idle | waitHigh | countHigh
  deriving DecidableEq, Repr

/-- The classifier's registers (R30 to R32). `due` is the model's own: in `countHigh` it says that the next `PinIsHigh` is
due at once and no `Delay(10)` runs, a position only the trace level has (log 11). -/
structure Pwc where
  phase : PwcPhase
  dur   : BitVec 11
  poll  : BitVec 4
  due   : Bool
  deriving DecidableEq, Repr

/-- The assembler's registers (R33 to R35). -/
structure Bfa where
  zeroRun : BitVec 5
  shift   : Byte
  nbits   : BitVec 4
  deriving DecidableEq, Repr

/-- `md.state` (R36). -/
inductive MdState where
  | rxIdle | seekingHeader | readingSync | readingLength | readingPayload | done | failed
  deriving DecidableEq, Repr

/-- `md.result` (R39): no result yet, `Some(n)`, `None`. -/
inductive RxResult where
  | none | some (n : BitVec 8) | noFrame
  deriving DecidableEq, Repr

/-- The decoder's registers (R36 to R39). -/
structure Md where
  busy   : Bool
  state  : MdState
  len    : BitVec 8
  idx    : BitVec 8
  cap    : BitVec 9
  result : RxResult
  deriving DecidableEq, Repr

/-- A byte memory: cells with strictly rising addresses; an address that is not listed holds no value yet (log 9). -/
abbrev Memory := List Host.Cell

/-- The receive operation that was started from outside and is in progress: the top of the source's chain of nested
calls (R17); `receive` while `md.busy = 1`, another one only for a line that starts it alone (log 11, log 15). -/
inductive RxCall where
  | none | measurePulse | readBit | readByte | seekHeader | receive
  deriving DecidableEq, Repr

/-- The answer of `PinIsHigh` or `PinIsLow` (R15). -/
inductive PinAnswer where
  | ok (b : Bool) | err (e : PinErr)
  deriving DecidableEq, Repr

/-- The result of `MEASURE_PULSE` (R43, R98). -/
inductive Meas where
  | ok (d : BitVec 11) | err (e : PinErr)
  deriving DecidableEq, Repr

/-- The result of `CLASSIFY` (R13). -/
inductive Cls where
  | one | zero | invalid
  deriving DecidableEq, Repr

/-- The values one block hands to the next (R43), as last handed over; none exists at reset (log 12). `send` is the
answer of a `SEND_BIT` or `SEND_BYTE` started alone (`none` inside is `Ok`). -/
structure Handed where
  send : Option (Option DrvErr)
  meas : Option Meas
  cls  : Option Cls
  bit  : Option (Option Bool)
  byte : Option (Option Byte)
  deriving DecidableEq, Repr

/-- The one-tick outputs of the last step: `tx_done`, the payload read's `tx_addr` (R47, R48), `rx_done`, and the buffer
port's `rx_addr` with `rx_wdata` when `rx_we = 1` (R51). -/
structure Out where
  txDone  : Bool
  rxDone  : Bool
  txAddr  : Option (BitVec 8)
  rxWrite : Option (BitVec 8 × Byte)
  deriving DecidableEq, Repr

/-- A stretch of the input line: its level and `pin_err` for a number of ticks. -/
structure Seg where
  level : Level
  err   : Option PinErr
  ticks : Nat
  deriving DecidableEq, Repr

/-- What the input pin shows in one tick (R52). -/
structure PinSample where
  level : Level
  err   : Option PinErr
  deriving DecidableEq, Repr

/-- The inputs of the step relation that are listed (R58); beyond each list the opaque constants of Config answer (log 6).
`drv` answers the drive calls in order and `drvCalls` counts them; `calls` answers the pin calls of a trace-level receive
operation; `wave` is the input line by ticks; `host` is the host's signals by ticks and `tick` counts ticks. `drvTied` and
`pinTied` say that the platform ties `drv_err` or `pin_err` to 0 (R49, R52). DESIGN CHOICE (log 36): `drvTied` binds every
drive call, `pinTied` only the signal `pin_err` of a tick; the listed answers of the trace level are bound by nothing. -/
structure Env where
  drvTied  : Bool
  drv      : List (Option DrvErr)
  drvCalls : Nat
  pinTied  : Bool
  calls    : List PinAnswer
  wave     : List Seg
  host     : List HostIn
  tick     : Nat
  deriving DecidableEq, Repr

/-- The events of a transmit trace (R16). A drive call carries its answer, `none` for `Ok`. `reset` is no call: it marks a
tick with `rst = 1`, from which `line(t)` starts anew (R302; log 33). -/
inductive TxEvent where
  | setHigh (r : Option DrvErr)
  | setLow (r : Option DrvErr)
  | delay (n : Nat)
  | memRead (j : Nat) (v : Byte)
  | reset
  deriving DecidableEq, Repr

/-- The events of a receive trace (R16). -/
inductive RxEvent where
  | pinIsLow (r : PinAnswer)
  | pinIsHigh (r : PinAnswer)
  | delay (n : Nat)
  | memWrite (j : Nat) (v : Byte)
  deriving DecidableEq, Repr

/-- The encoder's local time and its trace, each event with its time stamp, oldest first (R16, R300). -/
structure TxLog where
  now   : Nat
  trace : List (Nat × TxEvent)
  deriving DecidableEq, Repr

/-- The receiver's local time and its trace (R16, R300). -/
structure RxLog where
  now   : Nat
  trace : List (Nat × RxEvent)
  deriving DecidableEq, Repr

/-- The whole machine: one encoder (`tx`, `line`), one receiver (`pwc`, `bfa`, `md`, `call`), the host's memories and
program, what the blocks handed over last, the outputs of the last step, and the inputs. -/
structure State where
  tx      : Tx
  line    : Level
  pwc     : Pwc
  bfa     : Bfa
  md      : Md
  call    : RxCall
  handed  : Handed
  out     : Out
  txbuf   : Memory
  rxbuf   : Memory
  env     : Env
  txLog   : TxLog
  rxLog   : RxLog
  program : List Line
  deriving DecidableEq, Repr

/-- The machine right after reset (R59, R280): every register at its reset value, nothing stored, nothing listed. -/
def State.reset : State where
  tx := { busy := false, len := 0, k := 0, i := 0, cur := 0, phase := .idle, timer := 0, result := .none }
  line := .lo
  pwc := { phase := .idle, dur := 0, poll := 0, due := false }
  bfa := { zeroRun := 0, shift := 0, nbits := 0 }
  md := { busy := false, state := .rxIdle, len := 0, idx := 0, cap := 0, result := .none }
  call := .none
  handed := { send := none, meas := none, cls := none, bit := none, byte := none }
  out := { txDone := false, rxDone := false, txAddr := none, rxWrite := none }
  txbuf := []
  rxbuf := []
  env := { drvTied := false, drv := [], drvCalls := 0, pinTied := false, calls := [], wave := [], host := [], tick := 0 }
  txLog := { now := 0, trace := [] }
  rxLog := { now := 0, trace := [] }
  program := []

end Sys2Proof.Machine
end

