-- ==== Sys2Proof/Machine/Ops.lean ====
section
/-! DEFINITION. The named operations over memories, registers and inputs that the meanings share: the byte memories (R62,
R63), the drive calls and delays of the encoder (R15, R262, R264), the events of the receiver, how a transmit operation
fails (R137, R241, R249) and how a receive operation fails (R220, R242, R250). The hardware takes no traps (R252): these two
endings are its only exceptional exits, and there is no return from them. -/

namespace Sys2Proof.Machine

/-- An outcome of the machine. -/
abbrev Result := Host.Outcome State Fault Refusal

/-- Continue from a next state; a fault or a refusal stays. -/
def andThen (o : Result) (f : State → Result) : Result :=
  match o with
  | .next s => f s
  | .fault e => .fault e
  | .refused r => .refused r

/-! ### Byte memories -/

/-- The byte stored at an index, if anything was stored there. -/
def Memory.read : Memory → Nat → Option Byte
  | [], _ => none
  | c :: m, a => if c.1 = a then some c.2 else Memory.read m a

/-- Store one byte, keeping the addresses strictly rising (R63: it changes no other entry). -/
def Memory.write : Memory → Nat → Byte → Memory
  | [], a, v => [(a, v)]
  | c :: m, a, v =>
    if a < c.1 then (a, v) :: c :: m
    else if a = c.1 then (a, v) :: m
    else c :: Memory.write m a v

/-- The canonical form: strictly rising addresses, so equal memories are equal lists. -/
def Memory.wf : Memory → Bool
  | [] => true
  | [_] => true
  | c :: d :: m => c.1 < d.1 && Memory.wf (d :: m)

/-- Store bytes at an index and the indices after it. -/
def Memory.writeList : Memory → Nat → List Byte → Memory
  | m, _, [] => m
  | m, a, v :: vs => Memory.writeList (Memory.write m a v) (a + 1) vs

/-- Store bytes at the indices listed with them, one after the other. -/
def Memory.storeAll (m : Memory) (l : List (Fin 255 × Byte)) : Memory :=
  l.foldl (fun m c => Memory.write m c.1.val c.2) m

/-- `MemRead(TXBUF, j)` (R62): the stored byte; a free value where nothing has been stored (log 9). -/
def txbufByte (s : State) (j : Nat) : Byte := (Memory.read s.txbuf j).getD (Config.txbufInit j)

/-! ### The encoder's calls -/

/-- Append an event to the transmit trace, stamped with the encoder's local time (R300). -/
def logTx (ev : TxEvent) (s : State) : State :=
  { s with txLog := { s.txLog with trace := s.txLog.trace ++ [(s.txLog.now, ev)] } }

/-- `Delay(n)` of the encoder at the trace level: the event, and `n` microseconds pass (R74, R300). A `Delay` is stamped with
the time it begins (DESIGN CHOICE, log 39). -/
def delayTx (n : Nat) (s : State) : State :=
  { s with txLog := { now := s.txLog.now + n, trace := s.txLog.trace ++ [(s.txLog.now, .delay n)] } }

/-- The answer the next drive call gets: `none` for `Ok` (R49, R58). -/
def driveAnswer (s : State) : Option DrvErr :=
  if s.env.drvTied then none
  else
    match s.env.drv with
    | a :: _ => a
    | [] => Config.drvErr s.env.drvCalls

/-- The drive call has been answered: its answer is used up. -/
def popDrive (s : State) : State :=
  { s with env := { s.env with drv := if s.env.drvTied then s.env.drv else s.env.drv.tail,
                               drvCalls := s.env.drvCalls + 1 } }

/-- The event of a drive call. -/
def driveEvent (l : Level) (r : Option DrvErr) : TxEvent :=
  match l with
  | .hi => .setHigh r
  | .lo => .setLow r

/-- `SetHigh()` or `SetLow()` (R15, R262). `Ok` puts the line at the level; after `Err(e)` the level is a free value
(R29, R132, U2; log 8). -/
def drive (l : Level) (s : State) : State × Option DrvErr :=
  let t := popDrive (logTx (driveEvent l (driveAnswer s)) s)
  match driveAnswer s with
  | none => ({ t with line := l }, none)
  | some e => ({ t with line := Config.lineAfterErr s.env.drvCalls }, some e)

/-- `FrameByte(k)` (R134). -/
def frameByte (s : State) (k : BitVec 9) : Byte :=
  if k.toNat < headerBytes then 0x00#8
  else if k.toNat = 3 then syncByte
  else if k.toNat = 4 then s.tx.len
  else txbufByte s (k.toNat - frameOverheadBytes)

/-- Byte `k` of the frame starts: `tx.k <- k`, `tx.i <- 0`, `tx.cur <- FrameByte(k)`, with the payload read that makes
from byte 5 on (R64, R136). -/
def loadByte (k : BitVec 9) (s : State) : State :=
  let v := frameByte s k
  let t := { s with tx := { s.tx with k := k, i := 0, cur := v } }
  if frameOverheadBytes ≤ k.toNat then
    logTx (.memRead (k.toNat - frameOverheadBytes) v)
      { t with out := { t.out with txAddr := some (BitVec.ofNat 8 (k.toNat - frameOverheadBytes)) } }
  else t

/-- Acceptance of a `SEND` (R135). -/
def acceptSend (n : BitVec 8) (s : State) : State :=
  { s with tx := { s.tx with len := n, busy := true, result := .none, k := 0, i := 0 } }

/-- The end of a `SEND`, `Ok` (R136) or `Err(e)` (R137, R249): idle, the result recorded, `tx_done`. -/
def endSend (r : Option DrvErr) (s : State) : State :=
  { s with tx := { s.tx with phase := .idle, busy := false,
                             result := match r with | none => .ok | some e => .err e }
           out := { s.out with txDone := true } }

/-! ### The receiver's calls -/

/-- Append an event to the receive trace, stamped with the receiver's local time (R300). -/
def logRx (ev : RxEvent) (s : State) : State :=
  { s with rxLog := { s.rxLog with trace := s.rxLog.trace ++ [(s.rxLog.now, ev)] } }

/-- The receiver's local time advances. -/
def passRx (n : Nat) (s : State) : State := { s with rxLog := { s.rxLog with now := s.rxLog.now + n } }

/-- `MEASURE_PULSE` starts: phase 1 (R160, R172). -/
def beginMeasure (s : State) : State := { s with pwc := { s.pwc with phase := .waitHigh, due := false } }

/-- `READ_BYTE` starts, with the measurement of its first bit (R190). -/
def beginByte (s : State) : State := beginMeasure { s with bfa := { s.bfa with shift := 0, nbits := 0 } }

/-- `SEEK_HEADER` starts, with its first measurement (R196). -/
def beginSeek (s : State) : State := beginMeasure { s with bfa := { s.bfa with zeroRun := 0 } }

/-- Acceptance of a `RECEIVE` (R211), which resets `pwc.dur` too (R250; DEDUCED, log 38). -/
def acceptReceive (cap : BitVec 9) (s : State) : State :=
  beginMeasure { s with
    pwc := { s.pwc with dur := 0 }
    md := { busy := true, state := .seekingHeader, len := 0, idx := 0, cap := cap, result := .none }
    bfa := { zeroRun := 0, shift := 0, nbits := 0 }
    call := .receive }

/-- The receiver is in no call: neither a `RECEIVE` nor an operation started alone is in progress. Only then one can start;
nothing but reset cancels a call (R7, R283, U8; log 15, log 34). -/
def rxFree (s : State) : Bool := !s.md.busy && s.call == .none

/-- An operation started alone has returned. -/
def endCall (s : State) : State := { s with call := .none }

/-- `DONE` or `FAILED`, left in the same tick for `RX_IDLE` (R219, R220, R221, R250). -/
def endReceive (r : RxResult) (s : State) : State :=
  { s with md := { s.md with busy := false, state := .rxIdle, result := r }
           call := .none
           out := { s.out with rxDone := true } }

/-- `raise NoFrame(cause)`: the one failure of `RECEIVE`; no cause is recorded (R220, R242, R243). -/
def raiseNoFrame (s : State) : State := endReceive .noFrame s

/-- `MemWrite(RXBUF, md.idx, b)` and `md.idx <- md.idx + 1` (R66, R218). An index at or above the capacity does not exist
(R61, R63). -/
def storePayload (b : Byte) (s : State) : Result :=
  if s.md.cap.toNat ≤ s.md.idx.toNat then .fault .rxbufOutOfRange
  else
    .next (logRx (.memWrite s.md.idx.toNat b)
      { s with rxbuf := Memory.write s.rxbuf s.md.idx.toNat b
               out := { s.out with rxWrite := some (s.md.idx, b) }
               md := { s.md with idx := s.md.idx + 1 } })

/-! ### The inputs of a tick -/

/-- A wave without its empty stretches at the front. -/
def dropEmpty : List Seg → List Seg
  | [] => []
  | g :: w => if g.ticks = 0 then dropEmpty w else g :: w

/-- What the input pin shows in this tick: the wave's level and error, or free values beyond it (R52, R58; log 6). -/
def pinSample (s : State) : PinSample :=
  match dropEmpty s.env.wave with
  | g :: _ => ⟨g.level, if s.env.pinTied then none else g.err⟩
  | [] => ⟨Config.pinLevel s.rxLog.now, if s.env.pinTied then none else Config.pinErr s.rxLog.now⟩

/-- One tick of the wave has passed. -/
def popWave (w : List Seg) : List Seg :=
  match dropEmpty w with
  | g :: r => if g.ticks = 1 then r else { g with ticks := g.ticks - 1 } :: r
  | [] => []

/-- The host's signals in this tick (R45, R46, R50). -/
def hostIn (s : State) : HostIn :=
  match s.env.host with
  | h :: _ => h
  | [] => Config.hostIn s.env.tick

/-- A tick has passed: both local times and the inputs advance by one (R300). -/
def passTick (s : State) : State :=
  { s with env := { s.env with wave := popWave s.env.wave, host := s.env.host.tail, tick := s.env.tick + 1 }
           txLog := { s.txLog with now := s.txLog.now + 1 }
           rxLog := { s.rxLog with now := s.rxLog.now + 1 } }

/-- The one-tick outputs fall before a step (R47, R51). -/
def clearOut (s : State) : State :=
  { s with out := { txDone := false, rxDone := false, txAddr := none, rxWrite := none } }

/-- The host's stores of one tick into `TXBUF`, in order (R76, R285; log 37), which it may not make while a `SEND` is in
progress (R65, U10; log 22). -/
def hostStore (h : HostIn) (s : State) : State :=
  if s.tx.busy then s else { s with txbuf := Memory.storeAll s.txbuf h.txStore }

/-- `rst = 1` (R280, R283): every register at its reset value; the memories, the program, the inputs, the local times and
the traces stand, and the transmit trace marks the reset (log 33). -/
def resetRegs (s : State) : State :=
  logTx .reset { State.reset with txbuf := s.txbuf, rxbuf := s.rxbuf, env := s.env, txLog := s.txLog, rxLog := s.rxLog,
                                  program := s.program }

/-- The environment puts a waveform on the receiver's input line, without errors (R91, R96; log 13). -/
def putWave (w : List (Level × Nat)) (s : State) : State :=
  { s with env := { s.env with wave := s.env.wave ++ w.map (fun p => ⟨p.1, none, p.2⟩) } }

end Sys2Proof.Machine
end

