-- ==== Sys2Proof/Machine/Flags.lean ====
section
/-! DEFINITION. Classification and the flag-like values: CLASSIFY (R166), the bit a measurement gives (R170), the bit
patterns of the values handed between blocks (R98), and the status and output signals (R47 to R51). The hardware has no
condition codes (R43). -/

namespace Sys2Proof.Machine

/-- `CLASSIFY(d)` (R166). -/
def classify (d : Nat) : Cls :=
  if d < thNoise then .invalid
  else if d < thOneMin then .invalid
  else if d ≤ thOneMax then .one
  else if d ≤ thZeroMax then .zero
  else .invalid

/-- The bit result of a classification (R13, R97). -/
def bitOfCls : Cls → Option Bool
  | .one => some true
  | .zero => some false
  | .invalid => none

/-- What `READ_BIT` makes of a measurement (R170); an error is folded to `None` (R171). -/
def bitOfMeas : Meas → Option Bool
  | .ok d => bitOfCls (classify d.toNat)
  | .err _ => none

/-- The classification's wires, `valid` then `bit` (R98). -/
def clsWire : Cls → BitVec 2
  | .one => 0b11#2
  | .zero => 0b10#2
  | .invalid => 0b00#2

/-- The bit result's wires (R98). -/
def bitWire : Option Bool → BitVec 2
  | some true => 0b11#2
  | some false => 0b10#2
  | none => 0b00#2

/-- The byte result's wires, `valid` above the byte (R98); the byte is unspecified for `None`. -/
def byteWire (t : Nat) : Option Byte → BitVec 9
  | some b => 1#1 ++ b
  | none => 0#1 ++ Config.byteWireIdle t

/-- The measurement's wires, `err` above the duration (R98); the duration is unspecified beside `Err`. -/
def measWire (t : Nat) : Meas → BitVec 12
  | .ok d => 0#1 ++ d
  | .err _ => 1#1 ++ Config.measWireIdle t

/-- `tx_busy` (R47). -/
def txBusy (s : State) : Bool := s.tx.busy
/-- `tx_done` (R47). -/
def txDone (s : State) : Bool := s.out.txDone
/-- `tx_ok` (R47). -/
def txOk (s : State) : Bool := s.tx.result == .ok
/-- `tx_err` (R47). -/
def txErr (s : State) : Bool :=
  match s.tx.result with
  | .err _ => true
  | _ => false
/-- `tx_err_code` (R47): unspecified while `tx_err = 0`. -/
def txErrCode (s : State) : DrvErr :=
  match s.tx.result with
  | .err e => e
  | _ => Config.txErrCodeIdle s.env.tick
/-- `tx_addr` (R48): unspecified when no payload read is made (U11). -/
def txAddr (s : State) : BitVec 8 := s.out.txAddr.getD (Config.txAddrIdle s.env.tick)
/-- `tx_rdata` (R48): `TXBUF[tx_addr]` in the same tick. -/
def txRdata (s : State) : Byte := txbufByte s (txAddr s).toNat
/-- `line_out` (R49): 1 is high. -/
def lineOut (s : State) : Bool := s.line == .hi
/-- `rx_busy` (R51). -/
def rxBusy (s : State) : Bool := s.md.busy
/-- `rx_done` (R51). -/
def rxDone (s : State) : Bool := s.out.rxDone
/-- `rx_some` (R51). -/
def rxSome (s : State) : Bool :=
  match s.md.result with
  | .some _ => true
  | _ => false
/-- `rx_none` (R51). -/
def rxNone (s : State) : Bool := s.md.result == .noFrame
/-- `rx_len_out` (R51): unspecified while `rx_some = 0`. -/
def rxLenOut (s : State) : BitVec 8 :=
  match s.md.result with
  | .some n => n
  | _ => Config.rxLenIdle s.env.tick
/-- `rx_we` (R51). -/
def rxWe (s : State) : Bool := s.out.rxWrite.isSome
/-- `rx_addr` (R51): unspecified while `rx_we = 0`. -/
def rxAddr (s : State) : BitVec 8 :=
  match s.out.rxWrite with
  | some (a, _) => a
  | none => Config.rxAddrIdle s.env.tick
/-- `rx_wdata` (R51): unspecified while `rx_we = 0`. -/
def rxWdata (s : State) : Byte :=
  match s.out.rxWrite with
  | some (_, v) => v
  | none => Config.rxDataIdle s.env.tick

/-- What one event makes of the level at time `t` and the number of the next drive call: a drive call stamped at or before
`t` sets its level, or a free value where it answered `Err` (R29, U2; log 8); a reset sets `L` (R282). -/
def lineStep (t : Nat) (a : Level × Nat) (p : Nat × TxEvent) : Level × Nat :=
  match p.2 with
  | .setHigh none => (if p.1 ≤ t then .hi else a.1, a.2 + 1)
  | .setLow none => (if p.1 ≤ t then .lo else a.1, a.2 + 1)
  | .setHigh (some _) | .setLow (some _) => (if p.1 ≤ t then Config.lineAfterErr a.2 else a.1, a.2 + 1)
  | .reset => (if p.1 ≤ t then .lo else a.1, a.2)
  | .delay _ | .memRead _ _ => a

/-- `line(t)` (R302) from a trace whose first drive call has number `n`: the level set by the last successful drive call
stamped at or before `t` since reset, `L` if there was none, and any value after a failed one (R29, U2). -/
def lineAt (n : Nat) (trace : List (Nat × TxEvent)) (t : Nat) : Level := (trace.foldl (lineStep t) (.lo, n)).1

end Sys2Proof.Machine
end

