-- ==== Sys2Proof/Machine/Receiver.lean ====
section
/-! DEFINITION. The receive side: the hand-over of a measurement up the chain READ_BIT, READ_BYTE or SEEK_HEADER, RECEIVE
(R170, R190, R196, R210 to R221), and MEASURE_PULSE at the trace level (R160). The chain is the same at the three levels
of D24; MEASURE_PULSE at the tick level stands in Machine/Tick.lean. -/

namespace Sys2Proof.Machine

/-- What `RECEIVE` does with the result of one `READ_BYTE`, by its state (R214 to R220). -/
def recvByte (r : Option Byte) (s : State) : Result :=
  match r with
  | none => .next (raiseNoFrame s)
  | some b =>
    match s.md.state with
    | .readingSync =>
      if b = syncByte then .next (beginByte { s with md := { s.md with state := .readingLength } })
      else .next (raiseNoFrame s)
    | .readingLength =>
      let s₁ := { s with md := { s.md with len := b } }
      if s.md.cap < zext9 b then .next (raiseNoFrame s₁)
      else
        let s₂ := { s₁ with md := { s₁.md with idx := 0 } }
        if b = 0 then .next (endReceive (.some b) s₂)
        else .next (beginByte { s₂ with md := { s₂.md with state := .readingPayload } })
    | .readingPayload =>
      andThen (storePayload b s) fun s₁ =>
        if s₁.md.idx < s₁.md.len then .next (beginByte s₁) else .next (endReceive (.some s₁.md.len) s₁)
    | .rxIdle | .seekingHeader | .done | .failed => .next s

/-- `READ_BYTE` returns (R190): to `RECEIVE`, or to whoever started it alone. -/
def byteDone (r : Option Byte) (s : State) : Result :=
  let s₁ := { s with handed := { s.handed with byte := some r } }
  match s.call with
  | .receive => recvByte r s₁
  | _ => .next (endCall s₁)

/-- One `READ_BIT` of a `READ_BYTE` has returned (R190): `bfa.shift[i] <- v`, `bfa.nbits <- i + 1`; `None` ends it at
once. -/
def byteBit (r : Option Bool) (s : State) : Result :=
  match r with
  | none => byteDone none s
  | some v =>
    let s₁ := { s with bfa := { s.bfa with shift := setBit s.bfa.shift s.bfa.nbits.toNat v, nbits := s.bfa.nbits + 1 } }
    if s₁.bfa.nbits.toNat < bitsPerByte then .next (beginMeasure s₁) else byteDone (some s₁.bfa.shift) s₁

/-- `SEEK_HEADER` has seen 24 consecutive zero bits (R199, R213): `RECEIVE` goes on to the sync byte. -/
def seekDone (s : State) : State :=
  match s.call with
  | .receive => beginByte { s with md := { s.md with state := .readingSync } }
  | _ => endCall s

/-- One `READ_BIT` of a `SEEK_HEADER` has returned (R196 to R199). -/
def seekBit (r : Option Bool) (s : State) : Result :=
  let z : BitVec 5 := if r = some false then s.bfa.zeroRun + 1 else 0
  let s₁ := { s with bfa := { s.bfa with zeroRun := z } }
  if z.toNat < headerBits then .next (beginMeasure s₁) else .next (seekDone s₁)

/-- `READ_BIT` returns (R170) to the operation that called it. -/
def bitDone (r : Option Bool) (s : State) : Result :=
  let s₁ := { s with handed := { s.handed with bit := some r } }
  match s.call with
  | .readBit => .next (endCall s₁)
  | .seekHeader => seekBit r s₁
  | .readByte => byteBit r s₁
  | .receive => if s.md.state = .seekingHeader then seekBit r s₁ else byteBit r s₁
  | .measurePulse | .none => .next s₁

/-- The classification a finished measurement hands over (R170): none after an error (R171). -/
def handCls (m : Meas) (s : State) : State :=
  match m with
  | .ok d => { s with handed := { s.handed with cls := some (classify d.toNat) } }
  | .err _ => s

/-- `MEASURE_PULSE` returns (R160, R169; `finish(v)` of R172), and what called it goes on in zero time (R227). -/
def measDone (m : Meas) (s : State) : Result :=
  let s₁ := { s with pwc := { s.pwc with phase := .idle, due := false }
                     handed := { s.handed with meas := some m } }
  match s.call with
  | .none => .next s₁
  | .measurePulse => .next (endCall s₁)
  | _ => bitDone (bitOfMeas m) (handCls m s₁)

/-- One pin call of `MEASURE_PULSE` at the trace level with its answer (R160): `PinIsLow` in phase 1, where a low read
lets one tick pass (R300), `PinIsHigh` in phase 2, where a high read is followed by `Delay(10)`, stamped with its begin
(log 39), and the cap test. A listed `Err` counts as one whatever `env.pinTied` says (DESIGN CHOICE, log 36). -/
def pinCall (a : PinAnswer) (s : State) : Result :=
  match s.pwc.phase with
  | .idle => .next s
  | .waitHigh =>
    let s₁ := logRx (.pinIsLow a) s
    match a with
    | .err e => measDone (.err e) s₁
    | .ok true => .next (passRx 1 s₁)
    | .ok false => .next { s₁ with pwc := { s₁.pwc with phase := .countHigh, dur := 0, due := true } }
  | .countHigh =>
    let s₁ := logRx (.pinIsHigh a) s
    match a with
    | .err e => measDone (.err e) s₁
    | .ok false => measDone (.ok s.pwc.dur) s₁
    | .ok true =>
      let s₂ := passRx pollStep (logRx (.delay pollStep) s₁)
      let s₃ := { s₂ with pwc := { s₂.pwc with dur := s₂.pwc.dur + BitVec.ofNat 11 pollStep, due := true } }
      if pulseCap ≤ s₃.pwc.dur.toNat then measDone (.ok s₃.pwc.dur) s₃ else .next s₃

/-- The receive operation in progress runs on a list of answers until it returns or the answers end; then it waits at its
position (R161, R227; log 27). The answers it has not used become the listed ones. -/
def runCalls : List PinAnswer → State → Result
  | [], s => .next { s with env := { s.env with calls := [] } }
  | a :: as, s =>
    if s.call = .none then .next { s with env := { s.env with calls := a :: as } }
    else andThen (pinCall a s) (runCalls as)

/-- A receive operation is started alone by a program line: without effect while the receiver is in a call (log 15). -/
def startAlone (c : RxCall) (begin_ : State → State) (s : State) : Result :=
  if rxFree s then runCalls s.env.calls (begin_ { s with call := c }) else .next s

/-- MEASURE_PULSE (R160). -/
def execMeasurePulse (s : State) : Result := startAlone .measurePulse beginMeasure s

/-- CLASSIFY (R166, R167): a pure function; its result is handed over and nothing else changes. -/
def execClassify (d : Nat) (s : State) : Result :=
  .next { s with handed := { s.handed with cls := some (classify d) } }

/-- READ_BIT (R170). -/
def execReadBit (s : State) : Result := startAlone .readBit beginMeasure s

/-- READ_BYTE (R190). -/
def execReadByte (s : State) : Result := startAlone .readByte beginByte s

/-- SEEK_HEADER (R196). -/
def execSeekHeader (s : State) : Result := startAlone .seekHeader beginSeek s

/-- RECEIVE (R210, R211): accepted when `md.busy = 0`, ignored otherwise (D15), and while an operation started alone is in
progress, which it does not cancel (R7; DESIGN CHOICE, log 34). -/
def execReceive (cap : BitVec 9) (s : State) : Result :=
  if rxFree s then runCalls s.env.calls (acceptReceive cap s) else .next s

end Sys2Proof.Machine
end

