-- ==== Sys2Proof/Machine/Bands.lean ====
section
/-! DEFINITION. The rows of the duration bands (R97): a duration is classified and gives its bit result; a duration that a
measurement can return (R163) is, where a measurement waits for its pulse, that measurement's result: the duration level of
D24 (log 14). -/

namespace Sys2Proof.Machine

/-- The answers of the pin calls of a measurement that starts on a high line and returns `d` (R160, R164): `d / 10` high
reads, and the low read that ends it unless the cap does. -/
def callsFor (d : Nat) : List PinAnswer :=
  .ok false :: (List.replicate (d / pollStep) (.ok true) ++ if d < pulseCap then [.ok false] else [])

/-- The classification of a duration and its bit result are handed over (R97). That a band row does this for its duration
in every case, also where a measurement takes the pulse, is the model's choice (DESIGN CHOICE, log 14). -/
def handBand (d : Nat) (s : State) : State :=
  { s with handed := { s.handed with cls := some (classify d), bit := some (bitOfCls (classify d)) } }

/-- Whether a measurement waits for its pulse. -/
def awaitsPulse (s : State) : Bool := s.call != .none && s.pwc.phase == .waitHigh

/-- A duration occurs (R97, D24): as a measured pulse where one is awaited, else as a value that is classified.
In either case the row first hands over its own classification and bit result (`handBand`), even where the measurement that
takes the pulse is a `MEASURE_PULSE` that a line has started alone, which calls no `CLASSIFY` (R99); this hand-over is the
model's choice (DESIGN CHOICE, log 14, log 32). -/
def duration (d : Nat) (s : State) : Result :=
  if measurable d && awaitsPulse s then
    andThen (runCalls (callsFor d) (handBand d s)) fun t => .next { t with env := { t.env with calls := s.env.calls } }
  else .next (handBand d s)

/-- BAND_NOISE: 0 to 99, `INVALID` (R97). -/
def execBandNoise (d : Nat) (s : State) : Result := duration d s

/-- BAND_DEAD: 100 to 179, `INVALID` (R97). -/
def execBandDead (d : Nat) (s : State) : Result := duration d s

/-- BAND_ONE: 180 to 500, `ONE` (R97). -/
def execBandOne (d : Nat) (s : State) : Result := duration d s

/-- BAND_ZERO: 501 to 900, `ZERO` (R97). -/
def execBandZero (d : Nat) (s : State) : Result := duration d s

/-- BAND_OVER: 901 and more, `INVALID` (R97). -/
def execBandOver (d : Nat) (s : State) : Result := duration d s

end Sys2Proof.Machine
end

