-- ==== Sys2Proof/Machine/Encoder.lean ====
section
/-! DEFINITION. The block MPE at the trace level (R131 to R137): SEND_BIT, SEND_BYTE and SEND as the source's blocking
calls. Each answers the state with `none` for `Ok` or `some e` for a raised `PinError(e)` (R241). -/

namespace Sys2Proof.Machine

/-- `SEND_BIT(bit)` (R131, R132): SetHigh, Delay(400 or 800), SetLow, Delay(600), ended at once by the first `Err`. -/
def sendBit (b : Bool) (s : State) : State × Option DrvErr :=
  match drive .hi s with
  | (s₁, some e) => (s₁, some e)
  | (s₁, none) =>
    match drive .lo (delayTx (highTime b) s₁) with
    | (s₂, some e) => (s₂, some e)
    | (s₂, none) => (delayTx tGap s₂, none)

/-- `tx.i <- i` (R24). -/
def setTxI (i : BitVec 3) (s : State) : State := { s with tx := { s.tx with i := i } }

/-- The bits of a byte with the given numbers, one after the other, stopping at the first error (R133). -/
def sendBits (b : Byte) : List (BitVec 3) → State → State × Option DrvErr
  | [], s => (s, none)
  | i :: is, s =>
    match sendBit (b.getLsbD i.toNat) (setTxI i s) with
    | (s₁, some e) => (s₁, some e)
    | (s₁, none) => sendBits b is s₁

/-- `SEND_BYTE(byte)` (R133): bits 0 to 7 in order. -/
def sendByte (b : Byte) (s : State) : State × Option DrvErr := sendBits b bitIndices s

/-- The frame bytes with the given numbers, one after the other, stopping at the first error (R136). -/
def sendBytes : List (BitVec 9) → State → State × Option DrvErr
  | [], s => (s, none)
  | k :: ks, s =>
    match sendByte (loadByte k s).tx.cur (loadByte k s) with
    | (s₁, some e) => (s₁, some e)
    | (s₁, none) => sendBytes ks s₁

/-- The body of `SEND` after acceptance, with its end (R136, R137). -/
def runSend (s : State) : State :=
  let r := sendBytes (frameIndices s.tx.len.toNat) s
  endSend r.2 r.1

/-- The value an operation started alone answers (log 12). -/
def handSend (r : State × Option DrvErr) : State :=
  { r.1 with handed := { r.1.handed with send := some r.2 } }

/-- SEND_BIT (R131, R132), started alone by a program line; without effect while a `SEND` has the pin (log 15). -/
def execSendBit (b : Bool) (s : State) : Result :=
  if s.tx.busy then .next s else .next (handSend (sendBit b s))

/-- SEND_BYTE (R133), started alone by a program line; without effect while a `SEND` has the pin (log 15). -/
def execSendByte (b : Byte) (s : State) : Result :=
  if s.tx.busy then .next s else .next (handSend (sendByte b s))

/-- SEND (R135, R136, R137): the host stores the payload in `TXBUF` and starts the call (R285); ignored while busy (D15).
A payload the 8-bit length cannot express is refused (R94, U3). -/
def execSend (p : List Byte) (s : State) : Result :=
  if maxPayload < p.length then .refused .payloadTooLong
  else if s.tx.busy then .next s
  else .next (runSend (acceptSend (BitVec.ofNat 8 p.length) { s with txbuf := Memory.writeList s.txbuf 0 p }))

end Sys2Proof.Machine
end

