-- ==== Sys2Proof/Machine/Wire.lean ====
section
/-! DEFINITION. The rows of the wire format: the symbols (R91), a byte (R93), the frame's fields and a frame (R92, R94). Their
meaning is the waveform they are: it comes next on the receiver's input line, under ideal timing (log 13). -/

namespace Sys2Proof.Machine

/-- SYM1: `H400 L600` (R91). -/
def execSym1 (s : State) : Result := .next (putWave (symWave true) s)

/-- SYM0: `H800 L600` (R91). -/
def execSym0 (s : State) : Result := .next (putWave (symWave false) s)

/-- BYTE: eight symbols, bit 0 first (R93). -/
def execByte (b : Byte) (s : State) : Result := .next (putWave (bitsWave (byteBits b)) s)

/-- HEADER: 24 symbols SYM0 (R92). -/
def execHeader (s : State) : Result := .next (putWave (bitsWave headerPattern) s)

/-- SYNC: the byte 0x55 (R92). -/
def execSync (s : State) : Result := .next (putWave (bitsWave syncPattern) s)

/-- LENGTH: the payload length as one byte (R94). -/
def execLength (n : Byte) (s : State) : Result := .next (putWave (bitsWave (byteBits n)) s)

/-- PAYLOAD_BYTE: any byte, unchanged (R92, R103). -/
def execPayloadByte (b : Byte) (s : State) : Result := .next (putWave (bitsWave (byteBits b)) s)

/-- FRAME: `EncodeWave(p)` (R92, R96). A payload the length byte cannot express is refused (R94, U3). -/
def execFrame (p : List Byte) (s : State) : Result :=
  if maxPayload < p.length then .refused .payloadTooLong else .next (putWave (encodeWave p) s)

end Sys2Proof.Machine
end

