-- ==== Sys2Proof/Machine/Dispatch.lean ====
section
/-! DEFINITION. The dispatch: one arm per row of spec/opcode_table.json. -/

namespace Sys2Proof.Machine

/-- The effect of an instruction. -/
def exec (i : Instr) (s : State) : Host.Outcome State Fault Refusal :=
  match i with
  | .sym1 => Sys2Proof.Machine.execSym1 s
  | .sym0 => Sys2Proof.Machine.execSym0 s
  | .byte b => Sys2Proof.Machine.execByte b s
  | .header => Sys2Proof.Machine.execHeader s
  | .sync => Sys2Proof.Machine.execSync s
  | .length n => Sys2Proof.Machine.execLength n s
  | .payloadByte b => Sys2Proof.Machine.execPayloadByte b s
  | .frame p => Sys2Proof.Machine.execFrame p s
  | .bandNoise d => Sys2Proof.Machine.execBandNoise d s
  | .bandDead d => Sys2Proof.Machine.execBandDead d s
  | .bandOne d => Sys2Proof.Machine.execBandOne d s
  | .bandZero d => Sys2Proof.Machine.execBandZero d s
  | .bandOver d => Sys2Proof.Machine.execBandOver d s
  | .sendBit b => Sys2Proof.Machine.execSendBit b s
  | .sendByte b => Sys2Proof.Machine.execSendByte b s
  | .send p => Sys2Proof.Machine.execSend p s
  | .measurePulse => Sys2Proof.Machine.execMeasurePulse s
  | .classify d => Sys2Proof.Machine.execClassify d s
  | .readBit => Sys2Proof.Machine.execReadBit s
  | .readByte => Sys2Proof.Machine.execReadByte s
  | .seekHeader => Sys2Proof.Machine.execSeekHeader s
  | .receive cap => Sys2Proof.Machine.execReceive cap s

end Sys2Proof.Machine
end

