-- ==== Sys2Proof/Machine/Tick.lean ====
section
/-! DEFINITION. One tick of the hardware: `step_tx` (R140), `step_pwc` with the receive chain in the same tick (R172, R227),
reset (R280), TX before RX (R304), and the composed configuration (R304). -/

namespace Sys2Proof.Machine

/-- `start_bit` (R140): `DriveHigh`, then the high interval of `tx.cur[tx.i]`; an error ends the `SEND`. The interval's
`Delay` is put into the trace, and stamped, where it begins (DESIGN CHOICE, log 39). -/
def startBit (s : State) : State :=
  match drive .hi s with
  | (s₁, some e) => endSend (some e) s₁
  | (s₁, none) =>
    let t := highTime (s.tx.cur.getLsbD s.tx.i.toNat)
    logTx (.delay t) { s₁ with tx := { s₁.tx with phase := .high, timer := BitVec.ofNat 10 t } }

/-- The high interval has ended (R140): `DriveLow`, then the gap; an error ends the `SEND`. The gap's `Delay` is put into the
trace where it begins (log 39). -/
def startGap (s : State) : State :=
  match drive .lo s with
  | (s₁, some e) => endSend (some e) s₁
  | (s₁, none) => logTx (.delay tGap) { s₁ with tx := { s₁.tx with phase := .gap, timer := BitVec.ofNat 10 tGap } }

/-- The gap has ended (R41, R140): the next bit, the next byte, or the end with `Ok`. -/
def bitComplete (s : State) : State :=
  if s.tx.i.toNat < 7 then startBit (setTxI (s.tx.i + 1) s)
  else if s.tx.k.toNat < s.tx.len.toNat + 4 then startBit (loadByte (s.tx.k + 1) s)
  else endSend none s

/-- `step_tx` (R140). A `SEND` is accepted exactly when `tx_start = 1` and `tx.busy = 0` (R46, R135). -/
def txTick (h : HostIn) (s : State) : State :=
  if s.tx.busy then
    match s.tx.phase with
    | .idle => s
    | .high =>
      let s₁ := { s with tx := { s.tx with timer := s.tx.timer - 1 } }
      if s₁.tx.timer = 0 then startGap s₁ else s₁
    | .gap =>
      let s₁ := { s with tx := { s.tx with timer := s.tx.timer - 1 } }
      if s₁.tx.timer = 0 then bitComplete s₁ else s₁
  else if h.txStart then startBit (loadByte 0 (acceptSend h.txLenIn s))
  else s

/-- The phase 1 read of a tick (R172, R301). A high sample is the last `PinIsLow` of phase 1 and the first `PinIsHigh` of
phase 2 at once (D6). -/
def phase1Read (p : PinSample) (s : State) : Result :=
  match p.err with
  | some e => measDone (.err e) (logRx (.pinIsLow (.err e)) s)
  | none =>
    match p.level with
    | .lo => .next (logRx (.pinIsLow (.ok true)) s)
    | .hi =>
      let s₁ := logRx (.delay pollStep) (logRx (.pinIsHigh (.ok true)) (logRx (.pinIsLow (.ok false)) s))
      .next { s₁ with pwc := { phase := .countHigh, dur := 0, poll := 9, due := false } }

/-- The phase 2 read of a tick (R172). -/
def phase2Read (p : PinSample) (s : State) : Result :=
  match p.err with
  | some e => measDone (.err e) (logRx (.pinIsHigh (.err e)) s)
  | none =>
    match p.level with
    | .lo => measDone (.ok s.pwc.dur) (logRx (.pinIsHigh (.ok false)) s)
    | .hi =>
      let s₁ := logRx (.delay pollStep) (logRx (.pinIsHigh (.ok true)) s)
      .next { s₁ with pwc := { s₁.pwc with poll := 9, due := false } }

/-- After a measurement has ended in phase 2 the next one, if one is started, makes its first read in the same tick (R172).
A phase 1 read is made once per tick (R301): after one that errs the next read falls in the next tick (log 16). -/
def readAgain (p : PinSample) (s : State) : Result :=
  if s.call != .none && s.pwc.phase == .waitHigh then phase1Read p s else .next s

/-- `step_pwc` in `P_COUNT_HIGH` (R172). -/
def countTick (p : PinSample) (s : State) : Result :=
  if s.pwc.due then andThen (phase2Read p s) (readAgain p)
  else if s.pwc.poll ≠ 0 then .next { s with pwc := { s.pwc with poll := s.pwc.poll - 1 } }
  else
    let s₁ := { s with pwc := { s.pwc with dur := s.pwc.dur + BitVec.ofNat 11 pollStep } }
    if pulseCap ≤ s₁.pwc.dur.toNat then andThen (measDone (.ok s₁.pwc.dur) s₁) (readAgain p)
    else andThen (phase2Read p s₁) (readAgain p)

/-- The receiver's tick (R172, R227). A `RECEIVE` is accepted exactly when `rx_start = 1` and `md.busy = 0`, and makes its
first read in the same tick (R50, R211); an operation that a line started alone is not cancelled by it (R7; DESIGN CHOICE,
log 34). An idle receiver reads nothing (R221). -/
def rxTick (h : HostIn) (p : PinSample) (s : State) : Result :=
  if h.rxStart && rxFree s then phase1Read p (acceptReceive h.rxCapIn s)
  else if s.call = .none then .next s
  else
    match s.pwc.phase with
    | .idle => .next s
    | .waitHigh => phase1Read p s
    | .countHigh => countTick p s

/-- One tick with the host's signals `h`; the receiver's pin shows what `pin` says once the encoder has had its turn
(R304). In a tick with `rst = 1` the host's stores into its own memory are made as in any other (DESIGN CHOICE, log 37);
reset itself touches no memory (R280). -/
def tickWith (h : HostIn) (pin : State → PinSample) (s : State) : Result :=
  if h.rst then .next (passTick (resetRegs (hostStore h s)))
  else
    let s₁ := txTick h (hostStore h (clearOut s))
    andThen (rxTick h (pin s₁) s₁) fun s₂ => .next (passTick s₂)

/-- One tick of the hardware with its inputs (R58). -/
def tick (s : State) : Result := tickWith (hostIn s) pinSample s

/-- One tick of the composed configuration (R304): `pin_in = line`, `pin_err = 0`; `drv_err = 0` is `env.drvTied`. -/
def loopTick (h : HostIn) (s : State) : Result := tickWith h (fun s₁ => ⟨s₁.line, none⟩) s

/-- The host raises no signal. -/
def quiet : HostIn :=
  { rst := false, txStart := false, txLenIn := 0, rxStart := false, rxCapIn := 0, txStore := [] }

/-- A `SEND` of length `n` is requested in this tick. -/
def startSend (n : BitVec 8) : HostIn := { quiet with txStart := true, txLenIn := n }

/-- A `RECEIVE` with capacity `cap` is requested in this tick. -/
def startReceive (cap : BitVec 9) : HostIn := { quiet with rxStart := true, rxCapIn := cap }

/-- `n` ticks of the hardware. -/
def ticks : Nat → State → Result
  | 0, s => .next s
  | n + 1, s => andThen (tick s) (ticks n)

/-- Ticks of the composed configuration, one for each listed set of host signals. -/
def loopTicks : List HostIn → State → Result
  | [], s => .next s
  | h :: hs, s => andThen (loopTick h s) (loopTicks hs)

end Sys2Proof.Machine
end

