-- ==== Sys2Proof/Machine/Step.lean ====
section
/-! DEFINITION. One step: the next line of the host's program, or, when the program is empty, one tick of the hardware. -/

namespace Sys2Proof.Machine

/-- The state in which a fetched line runs: the line is taken off the program and the one-tick outputs fall. -/
def State.fetched (s : State) : State := clearOut { s with program := s.program.tail }

/-- One step (log 3, log 5): a line is decoded and run; without a line one tick passes. -/
def step (s : State) : Host.Outcome State Fault Refusal :=
  match s.program with
  | [] => tick s
  | l :: _ =>
    match decodeLine l with
    | .ok i => exec i s.fetched
    | .error e => .refused (.undecodable e)

/-- `s` with a table word as the next line of the host's program (log 3). -/
def State.withFetchWord (s : State) (nbits w : Nat) : State := { s with program := tableLine nbits w :: s.program }

end Sys2Proof.Machine
end

