-- ==== Sys2Proof/Safety.lean ====
section
/-! DEFINITION. The terms the statements use: the invariant of the machine, the answers the environment will give, the
events of a symbol, a byte and a frame as the rules give them, and the ways one bit read can end, with what they mean to a
header search. -/

namespace Sys2Proof.Machine

/-- The states a run can reach (R21 to R39, R41, R42): register ranges, the two sides' positions, canonical memories. -/
structure Inv (s : State) : Prop where
  txbuf_wf      : Memory.wf s.txbuf = true
  txbuf_range   : ∀ c ∈ s.txbuf, c.1 < 255
  rxbuf_wf      : Memory.wf s.rxbuf = true
  rxbuf_range   : ∀ c ∈ s.rxbuf, c.1 < 511
  k_le          : s.tx.k.toNat ≤ s.tx.len.toNat + 4
  tx_busy       : s.tx.busy = true ↔ s.tx.phase ≠ .idle
  tx_result     : s.tx.busy = true → s.tx.result = .none
  timer_idle    : s.tx.phase = .idle → s.tx.timer = 0
  timer_high    : s.tx.phase = .high → 1 ≤ s.tx.timer.toNat ∧ s.tx.timer.toNat ≤ 800
  timer_gap     : s.tx.phase = .gap → 1 ≤ s.tx.timer.toNat ∧ s.tx.timer.toNat ≤ 600
  dur_step      : s.pwc.dur.toNat % 10 = 0
  dur_le        : s.pwc.dur.toNat ≤ 2000
  dur_counting  : s.pwc.phase = .countHigh → s.pwc.dur.toNat < 2000
  poll_le       : s.pwc.poll.toNat ≤ 9
  due_counting  : s.pwc.due = true → s.pwc.phase = .countHigh
  phase_call    : s.pwc.phase = .idle ↔ s.call = .none
  zeroRun_le    : s.bfa.zeroRun.toNat ≤ 24
  seek_run      : s.call = .seekHeader ∨ s.md.state = .seekingHeader → s.bfa.zeroRun.toNat < 24
  nbits_le      : s.bfa.nbits.toNat ≤ 8
  byte_bits     : s.call = .readByte ∨ (s.call = .receive ∧ s.md.state ≠ .seekingHeader) → s.bfa.nbits.toNat < 8
  md_busy       : s.md.busy = true ↔ s.call = .receive
  md_idle       : s.md.busy = false ↔ s.md.state = .rxIdle
  md_left       : s.md.state ≠ .done ∧ s.md.state ≠ .failed
  idx_le        : s.md.idx.toNat ≤ s.md.len.toNat
  md_early      : s.md.state = .seekingHeader ∨ s.md.state = .readingSync ∨ s.md.state = .readingLength → s.md.idx = 0
  payload_idx   : s.md.state = .readingPayload → s.md.idx.toNat < s.md.len.toNat
  payload_cap   : s.md.state = .readingPayload → s.md.len.toNat ≤ s.md.cap.toNat
  md_result     : s.md.busy = true → s.md.result = .none
  md_some       : ∀ n, s.md.result = .some n → n = s.md.len ∧ n.toNat ≤ s.md.cap.toNat

/-- The answer that drive call number `j` from now will get (R58). -/
def nthDrive (s : State) (j : Nat) : Option DrvErr :=
  if s.env.drvTied then none
  else
    match s.env.drv[j]? with
    | some a => a
    | none => Config.drvErr (s.env.drvCalls + j)

/-- The next `n` drive calls answer `Ok`. -/
def DrivesOk (s : State) (n : Nat) : Prop := ∀ j, j < n → nthDrive s j = none

/-- The inputs after `n` drive calls. -/
def envAfterDrives (n : Nat) (e : Env) : Env :=
  { e with drv := if e.drvTied then e.drv else e.drv.drop n, drvCalls := e.drvCalls + n }

/-- The events of a symbol begun at local time `t` (R131): SetHigh, Delay(400 or 800), SetLow, Delay(600). -/
def symEvents (t : Nat) (b : Bool) : List (Nat × TxEvent) :=
  [(t, .setHigh none), (t, .delay (highTime b)), (t + highTime b, .setLow none), (t + highTime b, .delay tGap)]

/-- The events of symbols sent one after the other from local time `t` (R133). -/
def bitsEvents : Nat → List Bool → List (Nat × TxEvent)
  | _, [] => []
  | t, b :: bs => symEvents t b ++ bitsEvents (t + symPeriod b) bs

/-- The bytes of a frame (R134, R92). -/
def frameBytes (p : List Byte) : List Byte :=
  [0x00#8, 0x00#8, 0x00#8, syncByte, BitVec.ofNat 8 p.length] ++ p

/-- The events of payload bytes from index `j` on: the read of the byte, then its symbols (R64, R136). -/
def payloadEvents : Nat → Nat → List Byte → List (Nat × TxEvent)
  | _, _, [] => []
  | t, j, b :: bs => (t, .memRead j b) :: bitsEvents t (byteBits b) ++ payloadEvents (t + byteTime b) (j + 1) bs

/-- The events of a `SEND` that ends with `Ok`, begun at local time `t` (R136). -/
def frameEvents (t : Nat) (p : List Byte) : List (Nat × TxEvent) :=
  bitsEvents t (headerPattern ++ syncPattern ++ byteBits (BitVec.ofNat 8 p.length)) ++
    payloadEvents (t + 3 * byteTime 0#8 + byteTime syncByte + byteTime (BitVec.ofNat 8 p.length)) 0 p

/-- A trace cut at its drive call number `m`, which answers `Err(e)` and is the last event (R137, R251). -/
def cutAtDrive (e : DrvErr) : Nat → List (Nat × TxEvent) → List (Nat × TxEvent)
  | _, [] => []
  | m, (t, ev) :: evs =>
    match ev with
    | .setHigh _ =>
      match m with
      | 0 => [(t, .setHigh (some e))]
      | m + 1 => (t, ev) :: cutAtDrive e m evs
    | .setLow _ =>
      match m with
      | 0 => [(t, .setLow (some e))]
      | m + 1 => (t, ev) :: cutAtDrive e m evs
    | _ => (t, ev) :: cutAtDrive e m evs

/-- The phase 1 reads of a measurement begun at local time `t` that answer low, one tick apart (R160, R300). -/
def lowEvents (t w : Nat) : List (Nat × RxEvent) := (List.range w).map fun j => (t + j, .pinIsLow (.ok true))

/-- `m` high reads of phase 2, each followed by its `Delay(10)` (R160). -/
def highEvents (t m : Nat) : List (Nat × RxEvent) :=
  (List.range m).flatMap fun j => [(t + 10 * j, .pinIsHigh (.ok true)), (t + 10 * j, .delay 10)]

/-- The trace of a measurement: `w` low reads, the read that ends phase 1, `m` high reads; then the low read that ends
phase 2, unless the cap has ended it (R160, R164). -/
def pulseEvents (t w m : Nat) : List (Nat × RxEvent) :=
  lowEvents t w ++ (t + w, .pinIsLow (.ok false)) :: highEvents (t + w) m ++
    (if m < 200 then [(t + w + 10 * m, .pinIsHigh (.ok false))] else [])

/-- The bit a measured duration gives (R97, R170). -/
def bitOfDur (d : Nat) : Option Bool := bitOfCls (classify d)

/-- How one `READ_BIT` comes to its end, after `w` low reads of phase 1 (R160, R170): a pulse of measured duration `d`, a pin
error in phase 1, or one after `m` high reads of phase 2 (R169). -/
inductive BitRead where
  | pulse (w d : Nat)
  | errLow (w : Nat) (e : PinErr)
  | errHigh (w m : Nat) (e : PinErr)
  deriving DecidableEq, Repr

/-- A measurement can end so: with a duration it can return (R163), or with an error before the cap (R164). -/
def BitRead.possible : BitRead → Bool
  | .pulse _ d => measurable d
  | .errLow _ _ => true
  | .errHigh _ m _ => m < 200

/-- Whether a pin error ends the measurement. -/
def BitRead.isErr : BitRead → Bool
  | .pulse _ _ => false
  | .errLow _ _ | .errHigh _ _ _ => true

/-- The answers of the pin calls of the measurement (R160). -/
def BitRead.answers : BitRead → List PinAnswer
  | .pulse w d => List.replicate w (.ok true) ++ callsFor d
  | .errLow w e => List.replicate w (.ok true) ++ [.err e]
  | .errHigh w m e => List.replicate w (.ok true) ++ .ok false :: (List.replicate m (.ok true) ++ [.err e])

/-- What the measurement returns (R160, R169). -/
def BitRead.meas : BitRead → Meas
  | .pulse _ d => .ok (BitVec.ofNat 11 d)
  | .errLow _ e | .errHigh _ _ e => .err e

/-- What `READ_BIT` makes of it (R170, R171). -/
def BitRead.bit : BitRead → Option Bool
  | .pulse _ d => bitOfDur d
  | .errLow _ _ | .errHigh _ _ _ => none

/-- How long the measurement takes: one tick for each low read (R301), ten for each high one (R160). -/
def BitRead.time : BitRead → Nat
  | .pulse w d => w + d
  | .errLow w _ => w
  | .errHigh w m _ => w + 10 * m

/-- The zero run after one more bit read (R197, R198). -/
def runAfterOne (z : Nat) (r : BitRead) : Nat := if r.bit = some false then z + 1 else 0

/-- The zero run after a list of bit reads. -/
def runAfter (z : Nat) (rs : List BitRead) : Nat := rs.foldl runAfterOne z

/-- A header search that starts with run `z` is not ended by these bit reads: no run of 24 in them (R200). -/
def keepsSeeking : Nat → List BitRead → Bool
  | _, [] => true
  | z, r :: rs => runAfterOne z r < 24 && keepsSeeking (runAfterOne z r) rs

/-- The answers of the pin calls of these bit reads, one after the other. -/
def answersOf (rs : List BitRead) : List PinAnswer := rs.flatMap BitRead.answers

/-- How long these bit reads take (R300). -/
def timeOf (rs : List BitRead) : Nat := (rs.map BitRead.time).sum

/-- Bit reads that can happen and that give these bits (R97, R163, R170); the low time before each pulse is free (R56). -/
def ReadsAs (rs : List BitRead) (bs : List Bool) : Prop :=
  (∀ r ∈ rs, r.possible = true) ∧ rs.map BitRead.bit = bs.map some

/-- Whether an event is a drive call. -/
def TxEvent.isDrive : TxEvent → Bool
  | .setHigh _ | .setLow _ => true
  | .delay _ | .memRead _ _ | .reset => false

/-- `line` is the `line(t)` of the whole trace at the present time (R302): no event is stamped later, and every drive call
since the machine began is in the trace. -/
structure LineTracked (s : State) : Prop where
  stamps : ∀ p ∈ s.txLog.trace, p.1 ≤ s.txLog.now
  calls  : s.env.drvCalls = s.txLog.trace.countP fun p => p.2.isDrive
  level  : s.line = lineAt 0 s.txLog.trace s.txLog.now

/-- Everything an operation of the receiver leaves alone: the encoder, its line and memory, and the inputs that are not
its own (R20, R174). -/
def SameTx (s t : State) : Prop :=
  t.tx = s.tx ∧ t.line = s.line ∧ t.txbuf = s.txbuf ∧ t.txLog = s.txLog ∧ t.program = s.program ∧
    t.handed.send = s.handed.send ∧ t.out.txDone = s.out.txDone ∧ t.out.txAddr = s.out.txAddr ∧
    { t.env with calls := s.env.calls } = s.env

/-- Everything an operation of the encoder leaves alone: the receiver, its memory, and the inputs that are not its own
(R20, R130). -/
def SameRx (s t : State) : Prop :=
  t.pwc = s.pwc ∧ t.bfa = s.bfa ∧ t.md = s.md ∧ t.call = s.call ∧ t.rxbuf = s.rxbuf ∧ t.rxLog = s.rxLog ∧
    t.program = s.program ∧ { t.handed with send := s.handed.send } = s.handed ∧
    t.out.rxDone = s.out.rxDone ∧ t.out.rxWrite = s.out.rxWrite ∧
    { t.env with drv := s.env.drv, drvCalls := s.env.drvCalls } = s.env

end Sys2Proof.Machine
end

