-- ==== Sys2Proof/Certificates/Slice0/Obligations.lean ====
section
/-! DEFINITION. The statements for the provers. Each docstring says which rule of the spec it formalises; a statement that
rests on a choice of the model names the log entry. -/

open Sys2Proof Sys2Proof.Machine

/-! ### Lines, words and steps -/

/-- The decoder reads every well-formed instruction back from its line. The line form is the model's (log 1); the patterns
are those of R91 to R97. -/
def Obligations.DecodeEncodeAgree : Prop :=
  ∀ i : Instr, i.wellFormed = true → decodeLine (encode i) = .ok i

/-- Whatever line the decoder accepts stands for a well-formed instruction: a band row's duration lies in its band (R97) and a
payload has at most 255 bytes (R8, R94). The lines and which of them the decoder refuses are the model's (log 1, log 2,
log 23). -/
def Obligations.DecodedLinesAreWellFormed : Prop :=
  ∀ (l : Line) (i : Instr), decodeLine l = .ok i → i.wellFormed = true

/-- Patterns written out from the table's encoding column decode to their rows, here with their strobes (log 1); of the rows
that share a pattern, a word without a strobe is read as the one that log 2 chooses (24 zeros as HEADER, 0x55 as SYNC). -/
def Obligations.WrittenPatternsDecode : Prop :=
  decodeLine ⟨.sym1, [true]⟩ = .ok .sym1 ∧
  decodeLine ⟨.sync, [true, false, true, false, true, false, true, false]⟩ = .ok .sync ∧
  decodeLine ⟨.byte, [false, true, false, true, false, true, false, false]⟩ = .ok (.byte 0x2A#8) ∧
  decodeLine ⟨.bandOne, [false, false, false, false, true, false, false, true, true, false, false]⟩ = .ok (.bandOne 400) ∧
  decodeTableWord 24 0 = some .header ∧ decodeTableWord 8 0x55 = some .sync

/-- A step runs the decoded line: the line is taken off the program and the one-tick outputs fall (log 3, log 31); a line
the decoder refuses is refused; without a line one tick passes (log 5). -/
def Obligations.StepRunsTheDecodedLine : Prop :=
  (∀ (s : State) (l : Line) (rest : List Line) (i : Instr), s.program = l :: rest → decodeLine l = .ok i →
    step s = exec i (clearOut { s with program := rest })) ∧
  (∀ (s : State) (l : Line) (rest : List Line) (e : DecodeError), s.program = l :: rest → decodeLine l = .error e →
    step s = .refused (.undecodable e)) ∧
  (∀ s : State, s.program = [] → step s = tick s)

/-! ### The wire format -/

/-- R92: a frame is `40 + 8n` symbols: 24 zeros, the sync bits 1, 0, 1, 0, 1, 0, 1, 0, the bits of `n`, and the bits of
each payload byte at positions `40 + 8j` to `47 + 8j`. -/
def Obligations.FrameSymbolPositions : Prop :=
  ∀ p : List Byte, p.length ≤ 255 →
    (encodeBits p).length = 40 + 8 * p.length ∧
    (∀ q, q < 24 → (encodeBits p)[q]? = some false) ∧
    (∀ q, q < 8 → (encodeBits p)[24 + q]? = [true, false, true, false, true, false, true, false][q]?) ∧
    (∀ q, q < 8 → (encodeBits p)[32 + q]? = some (p.length.testBit q)) ∧
    (∀ j q (h : j < p.length), q < 8 → (encodeBits p)[40 + 8 * j + q]? = some (p[j].getLsbD q))

/-- R93: a byte is the symbols of its bits 0 to 7 in order, eight of them, and eight bits assemble to
`v0 + 2*v1 + 4*v2 + 8*v3 + 16*v4 + 32*v5 + 64*v6 + 128*v7`, the inverse. -/
def Obligations.ByteSerialisation : Prop :=
  (∀ (b : Byte) (q : Nat), q < 8 → (byteBits b)[q]? = some (b.getLsbD q)) ∧
  (∀ b : Byte, (byteBits b).length = 8 ∧ byteOfBits (byteBits b) = b ∧
    bitsWave (byteBits b) = symWave (b.getLsbD 0) ++ symWave (b.getLsbD 1) ++ symWave (b.getLsbD 2) ++
      symWave (b.getLsbD 3) ++ symWave (b.getLsbD 4) ++ symWave (b.getLsbD 5) ++ symWave (b.getLsbD 6) ++
      symWave (b.getLsbD 7)) ∧
  (symWave true = [(.hi, 400), (.lo, 600)] ∧ symWave false = [(.hi, 800), (.lo, 600)]) ∧
  (∀ v0 v1 v2 v3 v4 v5 v6 v7 : Bool,
    (byteOfBits [v0, v1, v2, v3, v4, v5, v6, v7]).toNat =
      v0.toNat + 2 * v1.toNat + 4 * v2.toNat + 8 * v3.toNat + 16 * v4.toNat + 32 * v5.toNat + 64 * v6.toNat
        + 128 * v7.toNat)

/-- R138: a `SEND` whose drive calls answer `Ok` takes `D(p)`, given here in both of its forms and with its bounds; it is
also the length of the frame's waveform. -/
def Obligations.FrameDuration : Prop :=
  ∀ p : List Byte, p.length ≤ 255 →
    frameTime p + 400 * (4 + popcount (BitVec.ofNat 8 p.length) + (p.map popcount).sum) = 1400 * 8 * (5 + p.length) ∧
    frameTime p + 400 * popcount (BitVec.ofNat 8 p.length) =
      33600 + 9600 + 11200 + (p.map fun b => 11200 - 400 * popcount b).sum ∧
    ((encodeWave p).map (·.2)).sum = frameTime p ∧
    (∀ s : State, s.tx.busy = false → DrivesOk s (16 * (5 + p.length)) →
      ∃ t, exec (.send p) s = .next t ∧ t.tx.result = .ok ∧ t.txLog.now = s.txLog.now + frameTime p) ∧
    (p = [] → frameTime p = 54400) ∧
    (p = List.replicate 255 0x00#8 → frameTime p = 2907200) ∧
    (p = List.replicate 255 0xFF#8 → frameTime p = 2091200)

/-- R91, R92, R93, R94: each row of the wire format puts exactly its waveform on the receiver's input line, after what is
there, and changes nothing else. That the rows act on the input line is the model's choice (log 13). -/
def Obligations.FormatRowsPutTheirWaveform : Prop :=
  ∀ (s : State),
    let put (w : List (Level × Nat)) : Result :=
      .next { s with env := { s.env with wave := s.env.wave ++ w.map fun x => ⟨x.1, none, x.2⟩ } }
    exec .sym1 s = put [(.hi, 400), (.lo, 600)] ∧
    exec .sym0 s = put [(.hi, 800), (.lo, 600)] ∧
    (∀ b : Byte, exec (.byte b) s = put ((byteBits b).flatMap symWave)) ∧
    exec .header s = put (List.replicate 24 [(.hi, 800), (.lo, 600)]).flatten ∧
    exec .sync s = put ([true, false, true, false, true, false, true, false].flatMap symWave) ∧
    (∀ n : Byte, exec (.length n) s = put ((byteBits n).flatMap symWave)) ∧
    (∀ b : Byte, exec (.payloadByte b) s = put ((byteBits b).flatMap symWave)) ∧
    (∀ p : List Byte, p.length ≤ 255 → exec (.frame p) s = put ((encodeBits p).flatMap symWave))

/-! ### Classification and the duration bands -/

/-- R166, R97, R167: the classification of a duration and its bit result by the five bands; it is a function of the
duration alone, and every natural number has exactly one result. -/
def Obligations.ClassificationOfDurations : Prop :=
  ∀ d : Nat,
    (d ≤ 99 → classify d = .invalid ∧ bitOfDur d = none) ∧
    (100 ≤ d → d ≤ 179 → classify d = .invalid ∧ bitOfDur d = none) ∧
    (180 ≤ d → d ≤ 500 → classify d = .one ∧ bitOfDur d = some true) ∧
    (501 ≤ d → d ≤ 900 → classify d = .zero ∧ bitOfDur d = some false) ∧
    (901 ≤ d → classify d = .invalid ∧ bitOfDur d = none)

/-- R166, R97: the operation `CLASSIFY` on every natural number and in every state; only the value handed over changes
(where it stands is the model's choice, log 12). -/
def Obligations.ClassifyByBands : Prop :=
  ∀ (s : State) (d : Nat),
    let answer (c : Cls) : Prop := exec (.classify d) s = .next { s with handed := { s.handed with cls := some c } }
    (d ≤ 99 → answer .invalid) ∧ (100 ≤ d → d ≤ 179 → answer .invalid) ∧ (180 ≤ d → d ≤ 500 → answer .one) ∧
    (501 ≤ d → d ≤ 900 → answer .zero) ∧ (901 ≤ d → answer .invalid)

/-- R97: a duration of each band gives the band's classification and bit result, and nothing else changes, where no
measurement waits for a pulse or no measurement returns the duration. That the bands are moves of the environment is the
model's choice (log 14). -/
def Obligations.BandRowsClassify : Prop :=
  ∀ (s : State) (d : Nat), (awaitsPulse s = false ∨ measurable d = false) →
    let answer (c : Cls) (r : Option Bool) : Result :=
      .next { s with handed := { s.handed with cls := some c, bit := some r } }
    (d ≤ 99 → exec (.bandNoise d) s = answer .invalid none) ∧
    (100 ≤ d → d ≤ 179 → exec (.bandDead d) s = answer .invalid none) ∧
    (180 ≤ d → d ≤ 500 → exec (.bandOne d) s = answer .one (some true)) ∧
    (501 ≤ d → d ≤ 900 → exec (.bandZero d) s = answer .zero (some false)) ∧
    (901 ≤ d → exec (.bandOver d) s = answer .invalid none)

/-- R197, R198, R199, R213: while a `RECEIVE` seeks the header and waits for a pulse, a duration of the zero band adds one to
the run and every other duration sets it to 0; with fewer than 24 zeros the search goes on, and the 24th zero ends it: the
sync byte is read next, from its first bit. `RXBUF` is not written (R212). The durations are those a measurement can return
(log 14). -/
def Obligations.BandsMoveTheZeroRun : Prop :=
  ∀ (s : State) (d : Nat), s.call = .receive → s.md.state = .seekingHeader → s.pwc.phase = .waitHigh →
    s.bfa.zeroRun.toNat < 24 → measurable d = true →
    let waits (t : State) : Prop := t.call = .receive ∧ t.pwc.phase = .waitHigh ∧ t.pwc.dur.toNat = d ∧
      t.rxbuf = s.rxbuf ∧ t.env = s.env ∧ t.out = s.out ∧ SameTx s t
    let seeks (o : Result) (z : Nat) : Prop := ∃ t, o = .next t ∧ waits t ∧ t.md = s.md ∧
      t.bfa.zeroRun.toNat = z ∧ t.bfa.shift = s.bfa.shift ∧ t.bfa.nbits = s.bfa.nbits
    (d ≤ 99 → seeks (exec (.bandNoise d) s) 0) ∧
    (100 ≤ d → d ≤ 179 → seeks (exec (.bandDead d) s) 0) ∧
    (180 ≤ d → d ≤ 500 → seeks (exec (.bandOne d) s) 0) ∧
    (501 ≤ d → d ≤ 900 → s.bfa.zeroRun.toNat < 23 → seeks (exec (.bandZero d) s) (s.bfa.zeroRun.toNat + 1)) ∧
    (501 ≤ d → d ≤ 900 → s.bfa.zeroRun.toNat = 23 → ∃ t, exec (.bandZero d) s = .next t ∧ waits t ∧
      t.md = { s.md with state := .readingSync } ∧ t.bfa = { zeroRun := 24, shift := 0, nbits := 0 }) ∧
    (901 ≤ d → seeks (exec (.bandOver d) s) 0)

/-! ### The encoder at the trace level -/

/-- R131, R132: `SEND_BIT` calls SetHigh, Delay(400 or 800), SetLow, Delay(600), exactly these where both drive calls answer
`Ok`, and ends low; it ends at the first drive call that answers `Err(e)`, before any delay or after the high delay, and
nothing more is done; the line's level is then a free value (log 8). Nothing else changes. A `Delay` is stamped where it
begins (log 39). -/
def Obligations.SendBitTrace : Prop :=
  ∀ (s : State) (b : Bool) (e : DrvErr), s.tx.busy = false →
    (nthDrive s 0 = none → nthDrive s 1 = none →
      exec (.sendBit b) s = .next { s with
        line := .lo
        handed := { s.handed with send := some none }
        env := envAfterDrives 2 s.env
        txLog := { now := s.txLog.now + (if b then 400 else 800) + 600
                   trace := s.txLog.trace ++
                     [(s.txLog.now, .setHigh none), (s.txLog.now, .delay (if b then 400 else 800)),
                      (s.txLog.now + (if b then 400 else 800), .setLow none),
                      (s.txLog.now + (if b then 400 else 800), .delay 600)] } }) ∧
    (nthDrive s 0 = some e →
      exec (.sendBit b) s = .next { s with
        line := Config.lineAfterErr s.env.drvCalls
        handed := { s.handed with send := some (some e) }
        env := envAfterDrives 1 s.env
        txLog := { s.txLog with trace := s.txLog.trace ++ [(s.txLog.now, .setHigh (some e))] } }) ∧
    (nthDrive s 0 = none → nthDrive s 1 = some e →
      exec (.sendBit b) s = .next { s with
        line := Config.lineAfterErr (s.env.drvCalls + 1)
        handed := { s.handed with send := some (some e) }
        env := envAfterDrives 2 s.env
        txLog := { now := s.txLog.now + (if b then 400 else 800)
                   trace := s.txLog.trace ++
                     [(s.txLog.now, .setHigh none), (s.txLog.now, .delay (if b then 400 else 800)),
                      (s.txLog.now + (if b then 400 else 800), .setLow (some e))] } })

/-- R133: `SEND_BYTE` with answering drive calls is eight `SEND_BIT`, bit 0 first, in `11200 - 400 * popcount(byte)`
microseconds, and beside `tx.i`, the line, the inputs, the answer (log 12) and the trace nothing changes; the first error
ends it with that error, and the bits after the failing one are not sent; the line's level is then a free value (U2, log 8).
A `Delay` is stamped where it begins (log 39). -/
def Obligations.SendByteIsEightBits : Prop :=
  ∀ (s : State) (b : Byte), s.tx.busy = false →
    (DrivesOk s 16 →
      exec (.sendByte b) s = .next { s with
        tx := { s.tx with i := 7 }
        line := .lo
        handed := { s.handed with send := some none }
        env := envAfterDrives 16 s.env
        txLog := { now := s.txLog.now + (11200 - 400 * popcount b)
                   trace := s.txLog.trace ++ bitsEvents s.txLog.now (byteBits b) } }) ∧
    (∀ (m : Nat) (e : DrvErr), m < 16 → DrivesOk s m → nthDrive s m = some e →
      ∃ t, exec (.sendByte b) s = .next t ∧ t.handed = { s.handed with send := some (some e) } ∧
        t.tx = { s.tx with i := BitVec.ofNat 3 (m / 2) } ∧ t.line = Config.lineAfterErr (s.env.drvCalls + m) ∧
        t.env = envAfterDrives (m + 1) s.env ∧
        t.txLog.trace = s.txLog.trace ++ cutAtDrive e m (bitsEvents s.txLog.now (byteBits b)) ∧
        t.txbuf = s.txbuf ∧ t.out = s.out ∧ SameRx s t)

/-- R135, R136, R64: a `SEND` whose drive calls answer sends the frame of its payload, reads each payload byte once, in
order, when its byte starts, takes `D(p)`, and ends with `Ok`; the receiver and all else stay as they are. That `out.txAddr`
shows the last of its reads beside `tx_done` is the model's (log 31). A `Delay` is stamped where it begins (log 39). -/
def Obligations.SendSendsTheFrame : Prop :=
  ∀ (s : State) (p : List Byte), p.length ≤ 255 → s.tx.busy = false → DrivesOk s (16 * (5 + p.length)) →
    exec (.send p) s = .next { s with
      tx := { s.tx with busy := false, len := BitVec.ofNat 8 p.length, k := BitVec.ofNat 9 (p.length + 4), i := 7,
                        cur := (frameBytes p).getLast (by simp [frameBytes]), phase := .idle, result := .ok }
      line := .lo
      out := { s.out with txDone := true,
                          txAddr := if p = [] then s.out.txAddr else some (BitVec.ofNat 8 (p.length - 1)) }
      txbuf := Memory.writeList s.txbuf 0 p
      env := envAfterDrives (16 * (5 + p.length)) s.env
      txLog := { now := s.txLog.now + frameTime p, trace := s.txLog.trace ++ frameEvents s.txLog.now p } }

/-- R137, R241, R251: the first drive call that answers `Err(e)` ends the `SEND`: the trace stops with that call, the error
is recorded, the encoder is idle; the line's level is a free value (log 8). A `Delay` is stamped where it begins (log 39).
-/
def Obligations.SendFailsAtTheFirstError : Prop :=
  ∀ (s : State) (p : List Byte) (m : Nat) (e : DrvErr), p.length ≤ 255 → s.tx.busy = false →
    m < 16 * (5 + p.length) → DrivesOk s m → nthDrive s m = some e →
    ∃ t, exec (.send p) s = .next t ∧
      t.tx.result = .err e ∧ t.tx.busy = false ∧ t.tx.phase = .idle ∧ t.tx.timer = s.tx.timer ∧
      t.tx.len.toNat = p.length ∧ t.tx.k.toNat = m / 16 ∧ t.tx.i.toNat = m % 16 / 2 ∧ t.out.txDone = true ∧
      t.line = Config.lineAfterErr (s.env.drvCalls + m) ∧
      t.txbuf = Memory.writeList s.txbuf 0 p ∧ t.env = envAfterDrives (m + 1) s.env ∧
      t.txLog.trace = s.txLog.trace ++ cutAtDrive e m (frameEvents s.txLog.now p) ∧ SameRx s t

/-- R302, R96: after a `SEND` that ended with `Ok` the line followed `EncodeWave(p)` tick by tick from the acceptance on, and
the `SEND` ended `D(p)` ticks after it. -/
def Obligations.LineFollowsEncodeWave : Prop :=
  ∀ (s t : State) (p : List Byte), p.length ≤ 255 → s.tx.busy = false → DrivesOk s (16 * (5 + p.length)) →
    exec (.send p) s = .next t →
    t.txLog.now = s.txLog.now + frameTime p ∧
    ∀ k, k < frameTime p →
      lineAt s.env.drvCalls (t.txLog.trace.drop s.txLog.trace.length) (s.txLog.now + k) = waveLevel (encodeWave p) k

/-- R7, D15, 93_implementation_defined U8: an operation of a side that is in a call is ignored: no effect at all, so no line
cancels what is in progress. For the operations that the host starts alone, and for a `RECEIVE` beside one, this is the
model's choice (log 15, log 34). -/
def Obligations.BusySidesIgnoreStarts : Prop :=
  ∀ s : State,
    (s.tx.busy = true →
      (∀ b, exec (.sendBit b) s = .next s) ∧ (∀ b, exec (.sendByte b) s = .next s) ∧
      (∀ p : List Byte, p.length ≤ 255 → exec (.send p) s = .next s)) ∧
    (s.md.busy = true ∨ s.call ≠ .none →
      exec .measurePulse s = .next s ∧ exec .readBit s = .next s ∧ exec .readByte s = .next s ∧
      exec .seekHeader s = .next s ∧ ∀ cap, exec (.receive cap) s = .next s)

/-- 93_implementation_defined U3: a payload of more than 255 bytes cannot be expressed and is refused by name. -/
def Obligations.LongPayloadsAreRefused : Prop :=
  ∀ (s : State) (p : List Byte), 255 < p.length →
    exec (.send p) s = .refused .payloadTooLong ∧ exec (.frame p) s = .refused .payloadTooLong

/-- R130, R248: whatever the drive calls answer, the transmit operations leave the whole receiver, its memory and its
inputs as they are, and `TXBUF` at and above the payload's length. -/
def Obligations.TransmitLeavesTheReceiver : Prop :=
  ∀ (s t : State) (b : Bool) (c : Byte) (p : List Byte),
    (exec (.sendBit b) s = .next t → SameRx s t ∧ t.txbuf = s.txbuf ∧ t.out = s.out) ∧
    (exec (.sendByte c) s = .next t → SameRx s t ∧ t.txbuf = s.txbuf ∧ t.out = s.out) ∧
    (exec (.send p) s = .next t →
      SameRx s t ∧ ∀ a, p.length ≤ a → Memory.read t.txbuf a = Memory.read s.txbuf a)

/-! ### The receiver at the trace level -/

/-- R160, R162: `w` low answers, then `m < 200` high ones, then a low one: `Ok(10 * m)` with exactly those calls and `m`
delays, the later answers unused; only the classifier, the value handed over and the receive trace change. A `Delay` is
stamped where it begins (log 39). -/
def Obligations.MeasurePulseCountsHighReads : Prop :=
  ∀ (s : State) (w m : Nat) (rest : List PinAnswer), rxFree s = true → m < 200 →
    s.env.calls = List.replicate w (.ok true) ++ .ok false :: (List.replicate m (.ok true) ++ .ok false :: rest) →
    exec .measurePulse s = .next { s with
      pwc := { s.pwc with phase := .idle, dur := BitVec.ofNat 11 (10 * m), due := false }
      call := .none
      handed := { s.handed with meas := some (.ok (BitVec.ofNat 11 (10 * m))) }
      env := { s.env with calls := rest }
      rxLog := { now := s.rxLog.now + w + 10 * m, trace := s.rxLog.trace ++ pulseEvents s.rxLog.now w m } }

/-- R164: after the 200th high read and its delay the measurement ends with `Ok(2000)` without another read. That it is the
200th read and that none follows is the spec's own decision D9, which U12 leaves open (DESIGN CHOICE, log 19). A `Delay` is
stamped where it begins (log 39). -/
def Obligations.MeasurePulseStopsAtTheCap : Prop :=
  ∀ (s : State) (w : Nat) (rest : List PinAnswer), rxFree s = true →
    s.env.calls = List.replicate w (.ok true) ++ .ok false :: (List.replicate 200 (.ok true) ++ rest) →
    exec .measurePulse s = .next { s with
      pwc := { s.pwc with phase := .idle, dur := 2000, due := false }
      call := .none
      handed := { s.handed with meas := some (.ok 2000) }
      env := { s.env with calls := rest }
      rxLog := { now := s.rxLog.now + w + 2000, trace := s.rxLog.trace ++ pulseEvents s.rxLog.now w 200 } }

/-- R169: a pin call that answers `Err(e)` ends the measurement at once with `Err(e)`, in phase 1 and in phase 2, and the
later answers are unused. -/
def Obligations.MeasurePulseReportsErrors : Prop :=
  ∀ (s : State) (w m : Nat) (e : PinErr) (rest : List PinAnswer), rxFree s = true → m < 200 →
    (s.env.calls = List.replicate w (.ok true) ++ .err e :: rest →
      exec .measurePulse s = .next { s with
        pwc := { s.pwc with phase := .idle, due := false }
        call := .none
        handed := { s.handed with meas := some (.err e) }
        env := { s.env with calls := rest }
        rxLog := { now := s.rxLog.now + w
                   trace := s.rxLog.trace ++ lowEvents s.rxLog.now w ++ [(s.rxLog.now + w, .pinIsLow (.err e))] } }) ∧
    (s.env.calls = List.replicate w (.ok true) ++ .ok false :: (List.replicate m (.ok true) ++ .err e :: rest) →
      ∃ t, exec .measurePulse s = .next t ∧ t.handed = { s.handed with meas := some (.err e) } ∧
        t.call = .none ∧ t.pwc.phase = .idle ∧ t.bfa = s.bfa ∧ t.md = s.md ∧ t.rxbuf = s.rxbuf ∧
        t.env = { s.env with calls := rest } ∧ t.rxLog.now = s.rxLog.now + w + 10 * m ∧
        t.out = s.out ∧ SameTx s t)

/-- R161: while every answer is low the measurement stays in phase 1: it has not ended after any number of reads, and no
register changes. Where the answers end the operation waits (log 27). -/
def Obligations.MeasurePulseWaitsWhileLow : Prop :=
  ∀ (s : State) (w : Nat), rxFree s = true → s.env.calls = List.replicate w (.ok true) →
    exec .measurePulse s = .next { s with
      pwc := { s.pwc with phase := .waitHigh, due := false }
      call := .measurePulse
      env := { s.env with calls := [] }
      rxLog := { now := s.rxLog.now + w, trace := s.rxLog.trace ++ lowEvents s.rxLog.now w } }

/-- R170, R171: `READ_BIT` is one measurement, classified; a pin error in either phase gives `None`, the error handed on to
nobody. Any number of low reads may come first (R56). -/
def Obligations.ReadBitClassifiesOneMeasurement : Prop :=
  ∀ (s : State) (w : Nat) (rest : List PinAnswer), rxFree s = true →
    (∀ d, measurable d = true → s.env.calls = (BitRead.pulse w d).answers ++ rest →
      ∃ t, exec .readBit s = .next t ∧
        t.handed = { s.handed with meas := some (.ok (BitVec.ofNat 11 d)), cls := some (classify d),
                                   bit := some (bitOfDur d) } ∧
        t.pwc = { s.pwc with phase := .idle, dur := BitVec.ofNat 11 d, due := false } ∧ t.call = .none ∧
        t.bfa = s.bfa ∧ t.md = s.md ∧ t.rxbuf = s.rxbuf ∧ t.env = { s.env with calls := rest } ∧
        t.rxLog.now = s.rxLog.now + w + d ∧ t.out = s.out ∧ SameTx s t) ∧
    (∀ e, s.env.calls = (BitRead.errLow w e).answers ++ rest →
      exec .readBit s = .next { s with
        pwc := { s.pwc with phase := .idle, due := false }
        call := .none
        handed := { s.handed with meas := some (.err e), bit := some none }
        env := { s.env with calls := rest }
        rxLog := { now := s.rxLog.now + w
                   trace := s.rxLog.trace ++ lowEvents s.rxLog.now w ++
                     [(s.rxLog.now + w, .pinIsLow (.err e))] } }) ∧
    (∀ m e, m < 200 → s.env.calls = (BitRead.errHigh w m e).answers ++ rest →
      ∃ t, exec .readBit s = .next t ∧
        t.handed = { s.handed with meas := some (.err e), bit := some none } ∧ t.call = .none ∧
        t.pwc.phase = .idle ∧ t.bfa = s.bfa ∧ t.md = s.md ∧ t.rxbuf = s.rxbuf ∧ t.env = { s.env with calls := rest } ∧
        t.rxLog.now = s.rxLog.now + w + 10 * m ∧ t.out = s.out ∧ SameTx s t)

/-- R190, R191: eight bit reads that give bits give the byte of those bits, bit 0 first, with exactly eight measurements,
whatever low time comes before each pulse (R56). -/
def Obligations.ReadByteAssemblesEightBits : Prop :=
  ∀ (s : State) (rs : List BitRead) (bs : List Bool) (rest : List PinAnswer), rxFree s = true → bs.length = 8 →
    ReadsAs rs bs → s.env.calls = answersOf rs ++ rest →
    ∃ t, exec .readByte s = .next t ∧ t.handed.byte = some (some (byteOfBits bs)) ∧
      t.bfa = { s.bfa with shift := byteOfBits bs, nbits := 8 } ∧ t.call = .none ∧ t.pwc.phase = .idle ∧
      t.md = s.md ∧ t.rxbuf = s.rxbuf ∧ t.env = { s.env with calls := rest } ∧ t.out = s.out ∧ SameTx s t

/-- R190, R191: the first of the eight bits that is invalid, by its duration or by a pin error (R171), ends `READ_BYTE` with
`None` at once, and the rest is not read. -/
def Obligations.ReadByteFailsAtTheFirstInvalidBit : Prop :=
  ∀ (s : State) (rs : List BitRead) (bs : List Bool) (bad : BitRead) (rest : List PinAnswer), rxFree s = true →
    bs.length < 8 → ReadsAs rs bs → bad.possible = true → bad.bit = none →
    s.env.calls = answersOf (rs ++ [bad]) ++ rest →
    ∃ t, exec .readByte s = .next t ∧ t.handed.byte = some none ∧ t.bfa.nbits.toNat = bs.length ∧
      t.bfa.zeroRun = s.bfa.zeroRun ∧ t.call = .none ∧ t.pwc.phase = .idle ∧ t.md = s.md ∧ t.rxbuf = s.rxbuf ∧
      t.env = { s.env with calls := rest } ∧ t.out = s.out ∧ SameTx s t

/-- R196, R199: `SEEK_HEADER` returns right after the 24th zero bit in a row, whatever came before without such a run, pin
errors and low time included (R56, R198), and reads no further. -/
def Obligations.SeekHeaderEndsAtTwentyFourZeros : Prop :=
  ∀ (s : State) (rs zs : List BitRead) (rest : List PinAnswer), rxFree s = true →
    (∀ r ∈ rs, r.possible = true) → keepsSeeking 0 rs = true → ReadsAs zs (List.replicate zs.length false) →
    runAfter 0 rs + zs.length = 24 → s.env.calls = answersOf (rs ++ zs) ++ rest →
    ∃ t, exec .seekHeader s = .next t ∧ t.call = .none ∧ t.pwc.phase = .idle ∧ t.bfa = { s.bfa with zeroRun := 24 } ∧
      t.md = s.md ∧ t.rxbuf = s.rxbuf ∧ t.env = { s.env with calls := rest } ∧ t.out = s.out ∧ SameTx s t

/-- R200: a stream without 24 zeros in a row never ends the search, however many pulses, pin errors and low reads it has; the
counter is the run of zeros that ends at the last bit read (R197, R198), and low time after it changes nothing (R56). -/
def Obligations.SeekHeaderGoesOnWithoutTheRun : Prop :=
  ∀ (s : State) (rs : List BitRead) (w : Nat), rxFree s = true → (∀ r ∈ rs, r.possible = true) →
    keepsSeeking 0 rs = true → s.env.calls = answersOf rs ++ List.replicate w (.ok true) →
    ∃ t, exec .seekHeader s = .next t ∧ t.call = .seekHeader ∧ t.pwc.phase = .waitHigh ∧
      t.bfa.zeroRun.toNat = runAfter 0 rs ∧ t.md = s.md ∧ t.rxbuf = s.rxbuf ∧ t.env = { s.env with calls := [] } ∧
      t.out = s.out ∧ SameTx s t

/-- R171, R198, R223: while a `RECEIVE` seeks the header, a pin error in either phase sets the run of zeros, whatever it is, to
0 and ends nothing: after any bit reads that have not ended the search, other errors among them, and in a tick in which a
read that errs is due (after one in phase 2 the next measurement's read in the same tick errs too; R172).
The tick clause for `pwc.phase = waitHigh` is the model's reading (DEDUCED from R301, log 16): a phase 1 read that errs leaves
the next phase 1 read to the next tick, since R301 makes one `PinIsLow` per tick, where R172 read literally would put the next
measurement's read into the same tick, which errs again, without end. The same holds of the phase 1 read that follows an
error in phase 2. -/
def Obligations.SeekingSurvivesPinErrors : Prop :=
  (∀ (s : State) (cap : BitVec 9) (rs : List BitRead) (bad : BitRead), rxFree s = true →
    (∀ r ∈ rs, r.possible = true) → keepsSeeking 0 rs = true → bad.possible = true → bad.isErr = true →
    s.env.calls = answersOf (rs ++ [bad]) →
    ∃ t, exec (.receive cap) s = .next t ∧ t.call = .receive ∧ t.pwc.phase = .waitHigh ∧ t.bfa.zeroRun = 0 ∧
      t.md = { busy := true, state := .seekingHeader, len := 0, idx := 0, cap := cap, result := .none } ∧
      t.rxbuf = s.rxbuf ∧ t.env = { s.env with calls := [] } ∧
      t.rxLog.now = s.rxLog.now + timeOf (rs ++ [bad]) ∧ t.out = s.out ∧ SameTx s t) ∧
  (∀ (s : State) (h : HostIn) (l : Level) (e : PinErr), Inv s → h.rst = false → s.call = .receive →
    s.md.state = .seekingHeader → (s.pwc.phase = .waitHigh ∨ s.pwc.due = true ∨ s.pwc.poll = 0) →
    ∃ t, tickWith h (fun _ => ⟨l, some e⟩) s = .next t ∧ t.call = .receive ∧ t.pwc.phase = .waitHigh ∧
      t.bfa.zeroRun = 0 ∧ t.md = s.md ∧ t.rxbuf = s.rxbuf ∧ t.out.rxDone = false)

/-- R211, R250: acceptance of a `RECEIVE`: the registers it sets, with its first measurement in phase 1; here no answer has
come yet. That `pwc.dur` is among them is R250's word alone (log 38). -/
def Obligations.ReceiveAcceptance : Prop :=
  ∀ (s : State) (cap : BitVec 9), rxFree s = true → s.env.calls = [] →
    exec (.receive cap) s = .next { s with
      md := { busy := true, state := .seekingHeader, len := 0, idx := 0, cap := cap, result := .none }
      bfa := { zeroRun := 0, shift := 0, nbits := 0 }
      pwc := { s.pwc with phase := .waitHigh, dur := 0, due := false }
      call := .receive }

/-- R219, the round trip: `RECEIVE` on bit reads that give the bits of the frame of `p` (its own durations, R96, or any others of
the right bands), with room for it, returns `Some(length(p))` with `p` in the buffer, writes nothing else and reads nothing
after the frame. Any low time may come before each pulse (R56), and any bit reads before the header whose last is no zero and
that hold no run of 24 (R201 a). -/
def Obligations.ReceiveReturnsThePayload : Prop :=
  ∀ (s : State) (cap : BitVec 9) (p : List Byte) (ns rs : List BitRead) (rest : List PinAnswer), rxFree s = true →
    p.length ≤ 255 → p.length ≤ cap.toNat →
    (∀ r ∈ ns, r.possible = true) → keepsSeeking 0 ns = true → runAfter 0 ns = 0 →
    ReadsAs rs (encodeBits p) → s.env.calls = answersOf (ns ++ rs) ++ rest →
    ∃ t, exec (.receive cap) s = .next t ∧ t.md.result = .some (BitVec.ofNat 8 p.length) ∧ t.md.busy = false ∧
      t.md.state = .rxIdle ∧ t.md.cap = cap ∧ t.call = .none ∧ t.pwc.phase = .idle ∧ t.out.rxDone = true ∧
      t.rxbuf = Memory.writeList s.rxbuf 0 p ∧
      (∀ j (h : j < p.length), Memory.read t.rxbuf j = some p[j]) ∧
      (∀ a, p.length ≤ a → Memory.read t.rxbuf a = Memory.read s.rxbuf a) ∧
      t.rxLog.now = s.rxLog.now + timeOf (ns ++ rs) ∧ t.env = { s.env with calls := rest } ∧ SameTx s t

/-- R214, R101: eight valid bits after the header that are not 0x55 end the `RECEIVE` with `None`; nothing is written and
the rest is not read. -/
def Obligations.WrongSyncGivesNoFrame : Prop :=
  ∀ (s : State) (cap : BitVec 9) (rs : List BitRead) (b : Byte) (rest : List PinAnswer), rxFree s = true →
    b ≠ 0x55#8 → ReadsAs rs (headerPattern ++ byteBits b) → s.env.calls = answersOf rs ++ rest →
    ∃ t, exec (.receive cap) s = .next t ∧
      t.md = { busy := false, state := .rxIdle, len := 0, idx := 0, cap := cap, result := .noFrame } ∧
      t.call = .none ∧ t.pwc.phase = .idle ∧ t.out.rxDone = true ∧ t.rxbuf = s.rxbuf ∧
      t.env = { s.env with calls := rest } ∧ SameTx s t

/-- R216, R102: a length byte above the capacity ends the `RECEIVE` with `None`; nothing is written and the payload is not
read. -/
def Obligations.OversizeLengthGivesNoFrame : Prop :=
  ∀ (s : State) (cap : BitVec 9) (rs : List BitRead) (n : Byte) (rest : List PinAnswer), rxFree s = true →
    cap.toNat < n.toNat → ReadsAs rs (headerPattern ++ syncPattern ++ byteBits n) →
    s.env.calls = answersOf rs ++ rest →
    ∃ t, exec (.receive cap) s = .next t ∧
      t.md = { busy := false, state := .rxIdle, len := n, idx := 0, cap := cap, result := .noFrame } ∧
      t.call = .none ∧ t.pwc.phase = .idle ∧ t.out.rxDone = true ∧ t.rxbuf = s.rxbuf ∧
      t.env = { s.env with calls := rest } ∧ SameTx s t

/-- R214, R215, R220: an invalid bit in the sync byte or in the length byte, by its duration or by a pin error (R171, R223),
ends the `RECEIVE` with `None` at once; nothing is written and the rest is not read. -/
def Obligations.CorruptSyncOrLengthBitGivesNoFrame : Prop :=
  ∀ (s : State) (cap : BitVec 9) (rs : List BitRead) (bs : List Bool) (bad : BitRead) (rest : List PinAnswer),
    rxFree s = true → bs.length < 8 → bad.possible = true → bad.bit = none →
    ReadsAs rs (headerPattern ++ bs) ∨ ReadsAs rs (headerPattern ++ syncPattern ++ bs) →
    s.env.calls = answersOf (rs ++ [bad]) ++ rest →
    ∃ t, exec (.receive cap) s = .next t ∧
      t.md = { busy := false, state := .rxIdle, len := 0, idx := 0, cap := cap, result := .noFrame } ∧
      t.bfa.nbits.toNat = bs.length ∧ t.call = .none ∧ t.pwc.phase = .idle ∧ t.out.rxDone = true ∧
      t.out.rxWrite = s.out.rxWrite ∧ t.rxbuf = s.rxbuf ∧ t.env = { s.env with calls := rest } ∧ SameTx s t

/-- R220, R66: an invalid bit in the payload, by its duration or by a pin error (R171, R223), ends the `RECEIVE` with `None`
and no length; the unfinished byte reaches no memory. That the complete bytes before it stay in `RXBUF` is the spec's own
decision D12 (log 30), of which U4 says that no claim should read them. -/
def Obligations.CorruptPayloadBitGivesNoFrame : Prop :=
  ∀ (s : State) (cap : BitVec 9) (rs : List BitRead) (n : Byte) (q : List Byte) (bs : List Bool) (bad : BitRead)
    (rest : List PinAnswer), rxFree s = true → n.toNat ≤ cap.toNat → q.length < n.toNat → bs.length < 8 →
    ReadsAs rs (headerPattern ++ syncPattern ++ byteBits n ++ q.flatMap byteBits ++ bs) →
    bad.possible = true → bad.bit = none → s.env.calls = answersOf (rs ++ [bad]) ++ rest →
    ∃ t, exec (.receive cap) s = .next t ∧ t.md.result = .noFrame ∧ t.md.busy = false ∧ t.md.state = .rxIdle ∧
      t.md.len = n ∧ t.md.idx.toNat = q.length ∧ t.call = .none ∧ t.pwc.phase = .idle ∧ t.out.rxDone = true ∧
      t.rxbuf = Memory.writeList s.rxbuf 0 q ∧ t.env = { s.env with calls := rest } ∧ SameTx s t

/-- R226 (i): a `RECEIVE` never writes at an index at or above its capacity, and a length it returns never exceeds it,
whatever the pin calls answer. -/
def Obligations.ReceiveStaysInsideTheBuffer : Prop :=
  ∀ (s t : State) (cap : BitVec 9), Inv s → rxFree s = true → exec (.receive cap) s = .next t →
    (∀ a, cap.toNat ≤ a → Memory.read t.rxbuf a = Memory.read s.rxbuf a) ∧
    (∀ n, t.md.result = .some n → n.toNat ≤ cap.toNat)

/-- R163: whatever the pin calls answer, a measurement that ends with `Ok(d)` has `d` a multiple of 10, at most 2000. -/
def Obligations.MeasurementsAreMultiplesOfTen : Prop :=
  ∀ (s t : State) (d : BitVec 11), s.md.busy = false → exec .measurePulse s = .next t → t.call = .none →
    t.handed.meas = some (.ok d) → d.toNat % 10 = 0 ∧ d.toNat ≤ 2000

/-- R174, R20: whatever the answers, the receive operations, the bands and `CLASSIFY` leave the encoder, its line, its
memory and its inputs as they are. -/
def Obligations.ReceiveLeavesTheEncoder : Prop :=
  ∀ (s t : State) (i : Instr),
    (i = .measurePulse ∨ i = .readBit ∨ i = .readByte ∨ i = .seekHeader ∨ (∃ cap, i = .receive cap) ∨
      (∃ d, i = .classify d ∨ i = .bandNoise d ∨ i = .bandDead d ∨ i = .bandOne d ∨ i = .bandZero d ∨
        i = .bandOver d)) →
    exec i s = .next t → SameTx s t

/-! ### Ticks -/

/-- R280, R59: in a tick with `rst = 1` every register takes its reset value and the line is low, all status outputs are
0, no call is made (no answer is used, and the traces gain only the mark of the reset, log 33), reset touches no memory, and
the start signals are ignored: `h` may raise them. That the host's own stores are made in such a tick (log 37), and what
becomes of the model's own `call`, `pwc.due`, program and listed answers (log 11, log 21), is the model's choice. -/
def Obligations.ResetTick : Prop :=
  ∀ (s : State) (h : HostIn) (pin : State → PinSample), h.rst = true →
    ∃ t, tickWith h pin s = .next t ∧
      t.tx = { busy := false, len := 0, k := 0, i := 0, cur := 0, phase := .idle, timer := 0, result := .none } ∧
      t.line = .lo ∧ t.pwc = { phase := .idle, dur := 0, poll := 0, due := false } ∧
      t.bfa = { zeroRun := 0, shift := 0, nbits := 0 } ∧
      t.md = { busy := false, state := .rxIdle, len := 0, idx := 0, cap := 0, result := .none } ∧
      t.call = .none ∧ txBusy t = false ∧ txDone t = false ∧ txOk t = false ∧ txErr t = false ∧ rxBusy t = false ∧
      rxDone t = false ∧ rxSome t = false ∧ rxNone t = false ∧ rxWe t = false ∧
      t.txbuf = (if s.tx.busy then s.txbuf else Memory.storeAll s.txbuf h.txStore) ∧
      (h.txStore = [] → t.txbuf = s.txbuf) ∧ t.rxbuf = s.rxbuf ∧
      t.txLog.trace = s.txLog.trace ++ [(s.txLog.now, .reset)] ∧
      t.rxLog.trace = s.rxLog.trace ∧ t.env.drv = s.env.drv ∧ t.env.drvCalls = s.env.drvCalls ∧
      t.env.calls = s.env.calls ∧ t.program = s.program

/-- R59: the reset values. -/
def Obligations.ResetValues : Prop :=
  State.reset.tx = { busy := false, len := 0, k := 0, i := 0, cur := 0, phase := .idle, timer := 0, result := .none } ∧
  State.reset.line = .lo ∧ State.reset.pwc.phase = .idle ∧ State.reset.pwc.dur = 0 ∧ State.reset.pwc.poll = 0 ∧
  State.reset.bfa = { zeroRun := 0, shift := 0, nbits := 0 } ∧
  State.reset.md = { busy := false, state := .rxIdle, len := 0, idx := 0, cap := 0, result := .none }

/-- R140, R135: the acceptance tick of a `SEND` whose first drive call answers: the registers it sets, the first header
symbol begun with the line high and 800 on the timer; the receiver, which is idle, is untouched. The host's stores of the
tick come first (R76; log 37). A `Delay` is stamped where it begins (log 39). -/
def Obligations.AcceptanceTickOfSend : Prop :=
  ∀ (s : State) (h : HostIn) (pin : State → PinSample), h.rst = false → h.txStart = true → h.rxStart = false →
    s.tx.busy = false → s.call = .none → nthDrive s 0 = none →
    tickWith h pin s = .next { s with
      tx := { busy := true, len := h.txLenIn, k := 0, i := 0, cur := 0, phase := .high, timer := 800, result := .none }
      line := .hi
      out := { txDone := false, rxDone := false, txAddr := none, rxWrite := none }
      txbuf := Memory.storeAll s.txbuf h.txStore
      env := { envAfterDrives 1 s.env with
                 wave := popWave s.env.wave, host := s.env.host.tail, tick := s.env.tick + 1 }
      txLog := { now := s.txLog.now + 1
                 trace := s.txLog.trace ++ [(s.txLog.now, .setHigh none), (s.txLog.now, .delay 800)] }
      rxLog := { s.rxLog with now := s.rxLog.now + 1 } }

/-- R211, R50, R250: the acceptance tick of a `RECEIVE` that finds the line low, beside an idle encoder: the registers it sets
(`pwc.dur` by log 38), and its first phase 1 read made in the same tick, after the host's stores (log 37). -/
def Obligations.AcceptanceTickOfReceive : Prop :=
  ∀ (s : State) (h : HostIn) (pin : State → PinSample), h.rst = false → h.txStart = false → h.rxStart = true →
    s.tx.busy = false → rxFree s = true → pin (hostStore h (clearOut s)) = ⟨.lo, none⟩ →
    tickWith h pin s = .next { s with
      md := { busy := true, state := .seekingHeader, len := 0, idx := 0, cap := h.rxCapIn, result := .none }
      bfa := { zeroRun := 0, shift := 0, nbits := 0 }
      pwc := { s.pwc with phase := .waitHigh, dur := 0, due := false }
      call := .receive
      out := { txDone := false, rxDone := false, txAddr := none, rxWrite := none }
      txbuf := Memory.storeAll s.txbuf h.txStore
      env := { s.env with wave := popWave s.env.wave, host := s.env.host.tail, tick := s.env.tick + 1 }
      txLog := { s.txLog with now := s.txLog.now + 1 }
      rxLog := { now := s.rxLog.now + 1
                 trace := s.rxLog.trace ++ [(s.rxLog.now, .pinIsLow (.ok true))] } }

/-- R46, R50, D15: while a side is busy its start signal and the operand beside it change nothing in a tick; nor do they while
an operation started alone is in progress (the model's choice, log 34). -/
def Obligations.StartSignalsAreIgnoredWhileBusy : Prop :=
  ∀ (s : State) (h : HostIn) (pin : State → PinSample) (a : Bool) (n : BitVec 8) (c : BitVec 9),
    (s.tx.busy = true → tickWith { h with txStart := a, txLenIn := n } pin s = tickWith h pin s) ∧
    (s.md.busy = true ∨ s.call ≠ .none → tickWith { h with rxStart := a, rxCapIn := c } pin s = tickWith h pin s)

/-- R47, R51, R283: `tx_done` is 1 exactly after a tick without reset in which a `SEND` ended, one that was in progress or one
whose first drive call errs in its acceptance tick (R142 e), which then records that error; `rx_done` exactly after one in
which a `RECEIVE` in progress ended (no `RECEIVE` ends in its acceptance tick). The side is then idle with a result. -/
def Obligations.DonePulsesMarkTheEnds : Prop :=
  ∀ (s t : State) (h : HostIn) (pin : State → PinSample), Inv s → tickWith h pin s = .next t →
    (t.out.txDone = true ↔ h.rst = false ∧ ((s.tx.busy = true ∧ t.tx.busy = false) ∨
      (s.tx.busy = false ∧ h.txStart = true ∧ ∃ e, nthDrive s 0 = some e))) ∧
    (∀ e, h.rst = false → s.tx.busy = false → h.txStart = true → nthDrive s 0 = some e → t.tx.result = .err e) ∧
    (t.out.txDone = true → t.tx.busy = false ∧ t.tx.result ≠ .none) ∧
    (t.out.rxDone = true ↔ h.rst = false ∧ s.md.busy = true ∧ t.md.busy = false) ∧
    (t.out.rxDone = true → t.md.busy = false ∧ t.md.result ≠ .none)

/-- R140: the ticks of a `SEND` produce exactly the time-stamped trace, the registers and the line of R131 to R137, whatever
the drive calls answer: as many ticks after the acceptance tick as the trace level takes microseconds. A `Delay` is stamped
where it begins (log 39). -/
def Obligations.TicksRefineSend : Prop :=
  ∀ (s u : State) (p : List Byte), p.length ≤ 255 → s.tx.busy = false → s.tx.timer = 0 → s.call = .none →
    s.txbuf = Memory.writeList s.txbuf 0 p → exec (.send p) s = .next u →
    s.env.host = startSend (BitVec.ofNat 8 p.length) :: List.replicate (u.txLog.now - s.txLog.now) quiet →
    ∃ t, ticks (u.txLog.now - s.txLog.now + 1) s = .next t ∧
      t.tx = u.tx ∧ t.line = u.line ∧ t.txLog.trace = u.txLog.trace ∧ t.txLog.now = u.txLog.now + 1 ∧
      t.out.txDone = true ∧ t.txbuf = s.txbuf ∧ t.env.drv = u.env.drv ∧ t.env.drvCalls = u.env.drvCalls ∧
      t.pwc = s.pwc ∧ t.bfa = s.bfa ∧ t.md = s.md ∧ t.rxbuf = s.rxbuf ∧ t.rxLog.trace = s.rxLog.trace

/-- R168: a whole pulse of `w` ticks, met in phase 1 by the measurement of whatever receive operation is in progress, a
`RECEIVE` in any of its states or one started alone (log 15), is measured as `min(2000, 10 * ceil(w / 10))`. The result is
delivered that many ticks after the pulse began and not before, and classified as the rule's table says. -/
def Obligations.PulseWidthIsRoundedUp : Prop :=
  ∀ (s : State) (w l n : Nat), Inv s → s.tx.busy = false → s.call ≠ .none → s.pwc.phase = .waitHigh → 1 ≤ w → 10 ≤ l →
    s.env.wave = [⟨.hi, none, w⟩, ⟨.lo, none, l⟩] → s.env.host = List.replicate n quiet →
    min 2000 (10 * ((w + 9) / 10)) < n →
    let d := min 2000 (10 * ((w + 9) / 10))
    (∃ u t, ticks d s = .next u ∧ u.call = s.call ∧ u.pwc.phase = .countHigh ∧ u.handed = s.handed ∧
      u.bfa = s.bfa ∧ u.md = s.md ∧ tick u = .next t ∧ t.handed.meas = some (.ok (BitVec.ofNat 11 d)) ∧
      (s.call ≠ .measurePulse →
        t.handed.cls = some (classify d) ∧ t.handed.bit = some (bitOfDur d)) ∧
      (s.call = .measurePulse → t.call = .none ∧ t.pwc.phase = .idle ∧ t.pwc.dur.toNat = d ∧ t.bfa = s.bfa ∧
        t.md = s.md ∧ t.rxbuf = s.rxbuf)) ∧
    (w ≤ 170 → classify d = .invalid) ∧ (171 ≤ w → w ≤ 500 → classify d = .one) ∧
    (501 ≤ w → w ≤ 900 → classify d = .zero) ∧ (901 ≤ w → classify d = .invalid)

/-- R221: an idle receiver reads no pin and counts nothing: beside an idle encoder a tick without signals only passes. -/
def Obligations.IdleSidesIgnoreTheLine : Prop :=
  ∀ (s : State) (pin : State → PinSample), s.tx.busy = false → s.call = .none →
    tickWith quiet pin s = .next { s with
      out := { txDone := false, rxDone := false, txAddr := none, rxWrite := none }
      env := { s.env with wave := popWave s.env.wave, host := s.env.host.tail, tick := s.env.tick + 1 }
      txLog := { s.txLog with now := s.txLog.now + 1 }
      rxLog := { s.rxLog with now := s.rxLog.now + 1 } }

/-- R42: the decoder's states from one tick to the next. An accepted `RECEIVE` seeks the header; seeking goes on while the run
is below 24 and is left with a run of 24, for the sync byte; then length, payload (while bytes are missing) and the end
follow in order; `DONE` and `FAILED` are left in the same tick for `RX_IDLE`, with `Some` and `None` as the result. Nothing
else happens. -/
def Obligations.DecoderTransitions : Prop :=
  ∀ (s t : State) (h : HostIn) (pin : State → PinSample), Inv s → h.rst = false → tickWith h pin s = .next t →
    let failed : Prop := t.md.state = .rxIdle ∧ t.md.result = .noFrame
    let done : Prop := t.md.state = .rxIdle ∧ t.md.result = .some t.md.len ∧ t.md.idx = t.md.len
    let seeking : Prop := t.md.state = .seekingHeader ∧ t.bfa.zeroRun.toNat < 24
    let payload : Prop := t.md.state = .readingPayload ∧ t.md.idx.toNat < t.md.len.toNat
    (s.md.state = .rxIdle → h.rxStart = false → t.md = s.md) ∧
    (s.md.state = .rxIdle → h.rxStart = true → s.call = .none → seeking) ∧
    (s.md.state = .seekingHeader → seeking ∨ (t.md.state = .readingSync ∧ t.bfa.zeroRun.toNat = 24)) ∧
    (s.md.state = .readingSync → t.md.state = .readingSync ∨ t.md.state = .readingLength ∨ failed) ∧
    (s.md.state = .readingLength →
      t.md.state = .readingLength ∨ payload ∨ (done ∧ t.md.len = 0) ∨ failed) ∧
    (s.md.state = .readingPayload → payload ∨ (done ∧ t.md.len ≠ 0) ∨ failed)

/-- R41: the encoder's positions from one tick to the next. An accepted `SEND` starts at `(TX_HIGH, 0, 0)`; an interval runs
until its timer is out; a high interval is followed by the gap of the same bit, a gap by the next bit, the next byte or the
end with `Ok`; where a drive call is due and answers `Err(e)` (R140), the position is `TX_IDLE` with the result `Err(e)`
instead; `k` stops at `tx.len + 4`. -/
def Obligations.EncoderPositions : Prop :=
  ∀ (s t : State) (h : HostIn) (pin : State → PinSample), Inv s → h.rst = false → tickWith h pin s = .next t →
    let here (p : TxPhase) (k : BitVec 9) (i : BitVec 3) : Prop := t.tx.phase = p ∧ t.tx.k = k ∧ t.tx.i = i
    let ended (r : TxResult) : Prop := t.tx.phase = .idle ∧ t.tx.busy = false ∧ t.tx.result = r
    let drives (p : TxPhase) (k : BitVec 9) (i : BitVec 3) : Prop :=
      (nthDrive s 0 = none → here p k i) ∧ ∀ e, nthDrive s 0 = some e → ended (.err e)
    (s.tx.phase = .idle → h.txStart = false → t.tx = s.tx) ∧
    (s.tx.phase = .idle → h.txStart = true → drives .high 0 0) ∧
    (s.tx.phase ≠ .idle → s.tx.timer.toNat ≠ 1 → here s.tx.phase s.tx.k s.tx.i) ∧
    (s.tx.phase = .high → s.tx.timer.toNat = 1 → drives .gap s.tx.k s.tx.i) ∧
    (s.tx.phase = .gap → s.tx.timer.toNat = 1 → s.tx.i.toNat < 7 → drives .high s.tx.k (s.tx.i + 1)) ∧
    (s.tx.phase = .gap → s.tx.timer.toNat = 1 → s.tx.i.toNat = 7 → s.tx.k.toNat < s.tx.len.toNat + 4 →
      drives .high (s.tx.k + 1) 0) ∧
    (s.tx.phase = .gap → s.tx.timer.toNat = 1 → s.tx.i.toNat = 7 → s.tx.k.toNat = s.tx.len.toNat + 4 → ended .ok) ∧
    t.tx.k.toNat ≤ t.tx.len.toNat + 4

/-- R248, R20: a tick of the encoder does not depend on the receiver: two states that agree on the encoder's side end a
tick agreeing on it, whatever the receivers hold and whatever their pins show. -/
def Obligations.EncoderIgnoresTheReceiver : Prop :=
  ∀ (s₁ s₂ t₁ t₂ : State) (h : HostIn) (pin₁ pin₂ : State → PinSample),
    s₁.tx = s₂.tx → s₁.line = s₂.line → s₁.txbuf = s₂.txbuf → s₁.txLog = s₂.txLog →
    s₁.env.drvTied = s₂.env.drvTied → s₁.env.drv = s₂.env.drv → s₁.env.drvCalls = s₂.env.drvCalls →
    tickWith h pin₁ s₁ = .next t₁ → tickWith h pin₂ s₂ = .next t₂ →
    t₁.tx = t₂.tx ∧ t₁.line = t₂.line ∧ t₁.txbuf = t₂.txbuf ∧ t₁.txLog = t₂.txLog ∧
      t₁.out.txDone = t₂.out.txDone ∧ t₁.out.txAddr = t₂.out.txAddr ∧ t₁.env.drvTied = t₂.env.drvTied ∧
      t₁.env.drv = t₂.env.drv ∧ t₁.env.drvCalls = t₂.env.drvCalls

/-- R248, R20: a tick of the receiver does not depend on the encoder but through what the pin shows: two states that agree
on the receiver's side end a tick with the same pin sample agreeing on it, whatever the encoders hold. -/
def Obligations.ReceiverIgnoresTheEncoder : Prop :=
  ∀ (s₁ s₂ t₁ t₂ : State) (h : HostIn) (p : PinSample),
    s₁.pwc = s₂.pwc → s₁.bfa = s₂.bfa → s₁.md = s₂.md → s₁.call = s₂.call → s₁.rxbuf = s₂.rxbuf →
    s₁.rxLog = s₂.rxLog → { s₁.handed with send := none } = { s₂.handed with send := none } →
    tickWith h (fun _ => p) s₁ = .next t₁ → tickWith h (fun _ => p) s₂ = .next t₂ →
    t₁.pwc = t₂.pwc ∧ t₁.bfa = t₂.bfa ∧ t₁.md = t₂.md ∧ t₁.call = t₂.call ∧ t₁.rxbuf = t₂.rxbuf ∧
      t₁.rxLog = t₂.rxLog ∧ { t₁.handed with send := none } = { t₂.handed with send := none } ∧
      t₁.out.rxDone = t₂.out.rxDone ∧ t₁.out.rxWrite = t₂.out.rxWrite

/-- R304, the composed configuration (`loopTick`, log 26): a `RECEIVE` with room, accepted while the line is low, and a `SEND`
accepted on the same wire `g + 1` ticks later or in the same tick: the `RECEIVE` ends with `Some(n)` and the payload in
`RXBUF`, 600 ticks before the `SEND` would end. -/
def Obligations.LoopbackDeliversThePayload : Prop :=
  ∀ (s : State) (cap : BitVec 9) (p : List Byte) (g : Nat), Inv s → s.tx.busy = false → s.md.busy = false →
    s.call = .none → s.line = .lo → s.env.drvTied = true → p.length ≤ 255 → p.length ≤ cap.toNat →
    (∀ j (h : j < p.length), Memory.read s.txbuf j = some p[j]) →
    let n : BitVec 8 := BitVec.ofNat 8 p.length
    let delivers (hs : List HostIn) : Prop := ∃ t, loopTicks hs s = .next t ∧ t.md.result = .some n ∧
      t.md.busy = false ∧ t.out.rxDone = true ∧ t.rxbuf = Memory.writeList s.rxbuf 0 p ∧ t.tx.busy = true
    delivers (startReceive cap :: List.replicate g quiet ++ startSend n :: List.replicate (frameTime p - 600) quiet) ∧
    delivers ({ startSend n with rxStart := true, rxCapIn := cap } :: List.replicate (frameTime p - 600) quiet)

/-! ### The whole machine -/

/-- R59, R282: the invariant holds after reset, and the line is the `line(t)` of the empty trace, `L` (R302). -/
def Obligations.InvariantAtReset : Prop := Inv State.reset ∧ LineTracked State.reset

/-- Every step keeps the invariant: the register ranges of R21 to R39, the positions of R41 and R42, and the canonical
memories. -/
def Obligations.StepKeepsTheInvariant : Prop :=
  ∀ s t : State, Inv s → step s = .next t → Inv t

/-- R302, R29: whatever a step does, the line stays the `line(t)` of the encoder's trace: the level of the last successful
drive call since reset, `L` if there was none, a free value after a failed one (log 8). Reset is marked in the trace
(log 33). -/
def Obligations.StepKeepsTheLineOfTheTrace : Prop :=
  ∀ s t : State, LineTracked s → step s = .next t → LineTracked t

/-- Under the invariant a step stops only at a line the decoder refuses: every decoded instruction and every tick answers
a next state (R63: the write outside the buffer never happens). -/
def Obligations.StepStopsOnlyAtBadLines : Prop :=
  ∀ s : State, Inv s →
    (∃ t, step s = .next t) ∨ (∃ l rest e, s.program = l :: rest ∧ decodeLine l = .error e)

/-- R47, R51: the status signals follow the result registers; `tx_err_code` and `rx_len_out` are the recorded values while
their flags are 1. -/
def Obligations.StatusSignals : Prop :=
  ∀ s : State,
    (txBusy s = s.tx.busy ∧ rxBusy s = s.md.busy) ∧
    (txOk s = true ↔ s.tx.result = .ok) ∧
    (∀ e, s.tx.result = .err e → txErr s = true ∧ txErrCode s = e) ∧
    (txErr s = true → ∃ e, s.tx.result = .err e) ∧
    (∀ n, s.md.result = .some n → rxSome s = true ∧ rxLenOut s = n) ∧
    (rxSome s = true → ∃ n, s.md.result = .some n) ∧
    (rxNone s = true ↔ s.md.result = .noFrame)

/-- R134: the bytes of a frame by their number. -/
def Obligations.FrameByteByNumber : Prop :=
  ∀ (s : State) (k : BitVec 9),
    (k.toNat ≤ 2 → frameByte s k = 0x00#8) ∧ (k.toNat = 3 → frameByte s k = 0x55#8) ∧
    (k.toNat = 4 → frameByte s k = s.tx.len) ∧
    (∀ v, 5 ≤ k.toNat → Memory.read s.txbuf (k.toNat - 5) = some v → frameByte s k = v)
end

