-- ==== Sys2Proof/Laws/State.lean ====
section
/-! SUPPORT. What each named update of the state does to each field: one lemma per update and field, true by rfl. -/

namespace Sys2Proof.Machine

/-! ### logTx -/

@[simp] theorem logTx_tx (ev : TxEvent) (s : State) : (logTx ev s).tx = s.tx := rfl
@[simp] theorem logTx_line (ev : TxEvent) (s : State) : (logTx ev s).line = s.line := rfl
@[simp] theorem logTx_pwc (ev : TxEvent) (s : State) : (logTx ev s).pwc = s.pwc := rfl
@[simp] theorem logTx_bfa (ev : TxEvent) (s : State) : (logTx ev s).bfa = s.bfa := rfl
@[simp] theorem logTx_md (ev : TxEvent) (s : State) : (logTx ev s).md = s.md := rfl
@[simp] theorem logTx_call (ev : TxEvent) (s : State) : (logTx ev s).call = s.call := rfl
@[simp] theorem logTx_handed (ev : TxEvent) (s : State) : (logTx ev s).handed = s.handed := rfl
@[simp] theorem logTx_out (ev : TxEvent) (s : State) : (logTx ev s).out = s.out := rfl
@[simp] theorem logTx_txbuf (ev : TxEvent) (s : State) : (logTx ev s).txbuf = s.txbuf := rfl
@[simp] theorem logTx_rxbuf (ev : TxEvent) (s : State) : (logTx ev s).rxbuf = s.rxbuf := rfl
@[simp] theorem logTx_env (ev : TxEvent) (s : State) : (logTx ev s).env = s.env := rfl
@[simp] theorem logTx_txLog (ev : TxEvent) (s : State) : (logTx ev s).txLog = { s.txLog with trace := s.txLog.trace ++ [(s.txLog.now, ev)] } := rfl
@[simp] theorem logTx_rxLog (ev : TxEvent) (s : State) : (logTx ev s).rxLog = s.rxLog := rfl
@[simp] theorem logTx_program (ev : TxEvent) (s : State) : (logTx ev s).program = s.program := rfl

/-! ### delayTx -/

@[simp] theorem delayTx_tx (n : Nat) (s : State) : (delayTx n s).tx = s.tx := rfl
@[simp] theorem delayTx_line (n : Nat) (s : State) : (delayTx n s).line = s.line := rfl
@[simp] theorem delayTx_pwc (n : Nat) (s : State) : (delayTx n s).pwc = s.pwc := rfl
@[simp] theorem delayTx_bfa (n : Nat) (s : State) : (delayTx n s).bfa = s.bfa := rfl
@[simp] theorem delayTx_md (n : Nat) (s : State) : (delayTx n s).md = s.md := rfl
@[simp] theorem delayTx_call (n : Nat) (s : State) : (delayTx n s).call = s.call := rfl
@[simp] theorem delayTx_handed (n : Nat) (s : State) : (delayTx n s).handed = s.handed := rfl
@[simp] theorem delayTx_out (n : Nat) (s : State) : (delayTx n s).out = s.out := rfl
@[simp] theorem delayTx_txbuf (n : Nat) (s : State) : (delayTx n s).txbuf = s.txbuf := rfl
@[simp] theorem delayTx_rxbuf (n : Nat) (s : State) : (delayTx n s).rxbuf = s.rxbuf := rfl
@[simp] theorem delayTx_env (n : Nat) (s : State) : (delayTx n s).env = s.env := rfl
@[simp] theorem delayTx_txLog (n : Nat) (s : State) : (delayTx n s).txLog = { now := s.txLog.now + n, trace := s.txLog.trace ++ [(s.txLog.now, .delay n)] } := rfl
@[simp] theorem delayTx_rxLog (n : Nat) (s : State) : (delayTx n s).rxLog = s.rxLog := rfl
@[simp] theorem delayTx_program (n : Nat) (s : State) : (delayTx n s).program = s.program := rfl

/-! ### popDrive -/

@[simp] theorem popDrive_tx (s : State) : (popDrive s).tx = s.tx := rfl
@[simp] theorem popDrive_line (s : State) : (popDrive s).line = s.line := rfl
@[simp] theorem popDrive_pwc (s : State) : (popDrive s).pwc = s.pwc := rfl
@[simp] theorem popDrive_bfa (s : State) : (popDrive s).bfa = s.bfa := rfl
@[simp] theorem popDrive_md (s : State) : (popDrive s).md = s.md := rfl
@[simp] theorem popDrive_call (s : State) : (popDrive s).call = s.call := rfl
@[simp] theorem popDrive_handed (s : State) : (popDrive s).handed = s.handed := rfl
@[simp] theorem popDrive_out (s : State) : (popDrive s).out = s.out := rfl
@[simp] theorem popDrive_txbuf (s : State) : (popDrive s).txbuf = s.txbuf := rfl
@[simp] theorem popDrive_rxbuf (s : State) : (popDrive s).rxbuf = s.rxbuf := rfl
@[simp] theorem popDrive_env (s : State) : (popDrive s).env = { s.env with drv := if s.env.drvTied then s.env.drv else s.env.drv.tail, drvCalls := s.env.drvCalls + 1 } := rfl
@[simp] theorem popDrive_txLog (s : State) : (popDrive s).txLog = s.txLog := rfl
@[simp] theorem popDrive_rxLog (s : State) : (popDrive s).rxLog = s.rxLog := rfl
@[simp] theorem popDrive_program (s : State) : (popDrive s).program = s.program := rfl

/-! ### setTxI -/

@[simp] theorem setTxI_tx (i : BitVec 3) (s : State) : (setTxI i s).tx = { s.tx with i := i } := rfl
@[simp] theorem setTxI_line (i : BitVec 3) (s : State) : (setTxI i s).line = s.line := rfl
@[simp] theorem setTxI_pwc (i : BitVec 3) (s : State) : (setTxI i s).pwc = s.pwc := rfl
@[simp] theorem setTxI_bfa (i : BitVec 3) (s : State) : (setTxI i s).bfa = s.bfa := rfl
@[simp] theorem setTxI_md (i : BitVec 3) (s : State) : (setTxI i s).md = s.md := rfl
@[simp] theorem setTxI_call (i : BitVec 3) (s : State) : (setTxI i s).call = s.call := rfl
@[simp] theorem setTxI_handed (i : BitVec 3) (s : State) : (setTxI i s).handed = s.handed := rfl
@[simp] theorem setTxI_out (i : BitVec 3) (s : State) : (setTxI i s).out = s.out := rfl
@[simp] theorem setTxI_txbuf (i : BitVec 3) (s : State) : (setTxI i s).txbuf = s.txbuf := rfl
@[simp] theorem setTxI_rxbuf (i : BitVec 3) (s : State) : (setTxI i s).rxbuf = s.rxbuf := rfl
@[simp] theorem setTxI_env (i : BitVec 3) (s : State) : (setTxI i s).env = s.env := rfl
@[simp] theorem setTxI_txLog (i : BitVec 3) (s : State) : (setTxI i s).txLog = s.txLog := rfl
@[simp] theorem setTxI_rxLog (i : BitVec 3) (s : State) : (setTxI i s).rxLog = s.rxLog := rfl
@[simp] theorem setTxI_program (i : BitVec 3) (s : State) : (setTxI i s).program = s.program := rfl

/-! ### acceptSend -/

@[simp] theorem acceptSend_tx (n : BitVec 8) (s : State) : (acceptSend n s).tx = { s.tx with len := n, busy := true, result := .none, k := 0, i := 0 } := rfl
@[simp] theorem acceptSend_line (n : BitVec 8) (s : State) : (acceptSend n s).line = s.line := rfl
@[simp] theorem acceptSend_pwc (n : BitVec 8) (s : State) : (acceptSend n s).pwc = s.pwc := rfl
@[simp] theorem acceptSend_bfa (n : BitVec 8) (s : State) : (acceptSend n s).bfa = s.bfa := rfl
@[simp] theorem acceptSend_md (n : BitVec 8) (s : State) : (acceptSend n s).md = s.md := rfl
@[simp] theorem acceptSend_call (n : BitVec 8) (s : State) : (acceptSend n s).call = s.call := rfl
@[simp] theorem acceptSend_handed (n : BitVec 8) (s : State) : (acceptSend n s).handed = s.handed := rfl
@[simp] theorem acceptSend_out (n : BitVec 8) (s : State) : (acceptSend n s).out = s.out := rfl
@[simp] theorem acceptSend_txbuf (n : BitVec 8) (s : State) : (acceptSend n s).txbuf = s.txbuf := rfl
@[simp] theorem acceptSend_rxbuf (n : BitVec 8) (s : State) : (acceptSend n s).rxbuf = s.rxbuf := rfl
@[simp] theorem acceptSend_env (n : BitVec 8) (s : State) : (acceptSend n s).env = s.env := rfl
@[simp] theorem acceptSend_txLog (n : BitVec 8) (s : State) : (acceptSend n s).txLog = s.txLog := rfl
@[simp] theorem acceptSend_rxLog (n : BitVec 8) (s : State) : (acceptSend n s).rxLog = s.rxLog := rfl
@[simp] theorem acceptSend_program (n : BitVec 8) (s : State) : (acceptSend n s).program = s.program := rfl

/-! ### endSend -/

@[simp] theorem endSend_tx (r : Option DrvErr) (s : State) : (endSend r s).tx = { s.tx with phase := .idle, busy := false, result := match r with | none => .ok | some e => .err e } := rfl
@[simp] theorem endSend_line (r : Option DrvErr) (s : State) : (endSend r s).line = s.line := rfl
@[simp] theorem endSend_pwc (r : Option DrvErr) (s : State) : (endSend r s).pwc = s.pwc := rfl
@[simp] theorem endSend_bfa (r : Option DrvErr) (s : State) : (endSend r s).bfa = s.bfa := rfl
@[simp] theorem endSend_md (r : Option DrvErr) (s : State) : (endSend r s).md = s.md := rfl
@[simp] theorem endSend_call (r : Option DrvErr) (s : State) : (endSend r s).call = s.call := rfl
@[simp] theorem endSend_handed (r : Option DrvErr) (s : State) : (endSend r s).handed = s.handed := rfl
@[simp] theorem endSend_out (r : Option DrvErr) (s : State) : (endSend r s).out = { s.out with txDone := true } := rfl
@[simp] theorem endSend_txbuf (r : Option DrvErr) (s : State) : (endSend r s).txbuf = s.txbuf := rfl
@[simp] theorem endSend_rxbuf (r : Option DrvErr) (s : State) : (endSend r s).rxbuf = s.rxbuf := rfl
@[simp] theorem endSend_env (r : Option DrvErr) (s : State) : (endSend r s).env = s.env := rfl
@[simp] theorem endSend_txLog (r : Option DrvErr) (s : State) : (endSend r s).txLog = s.txLog := rfl
@[simp] theorem endSend_rxLog (r : Option DrvErr) (s : State) : (endSend r s).rxLog = s.rxLog := rfl
@[simp] theorem endSend_program (r : Option DrvErr) (s : State) : (endSend r s).program = s.program := rfl

/-! ### logRx -/

@[simp] theorem logRx_tx (ev : RxEvent) (s : State) : (logRx ev s).tx = s.tx := rfl
@[simp] theorem logRx_line (ev : RxEvent) (s : State) : (logRx ev s).line = s.line := rfl
@[simp] theorem logRx_pwc (ev : RxEvent) (s : State) : (logRx ev s).pwc = s.pwc := rfl
@[simp] theorem logRx_bfa (ev : RxEvent) (s : State) : (logRx ev s).bfa = s.bfa := rfl
@[simp] theorem logRx_md (ev : RxEvent) (s : State) : (logRx ev s).md = s.md := rfl
@[simp] theorem logRx_call (ev : RxEvent) (s : State) : (logRx ev s).call = s.call := rfl
@[simp] theorem logRx_handed (ev : RxEvent) (s : State) : (logRx ev s).handed = s.handed := rfl
@[simp] theorem logRx_out (ev : RxEvent) (s : State) : (logRx ev s).out = s.out := rfl
@[simp] theorem logRx_txbuf (ev : RxEvent) (s : State) : (logRx ev s).txbuf = s.txbuf := rfl
@[simp] theorem logRx_rxbuf (ev : RxEvent) (s : State) : (logRx ev s).rxbuf = s.rxbuf := rfl
@[simp] theorem logRx_env (ev : RxEvent) (s : State) : (logRx ev s).env = s.env := rfl
@[simp] theorem logRx_txLog (ev : RxEvent) (s : State) : (logRx ev s).txLog = s.txLog := rfl
@[simp] theorem logRx_rxLog (ev : RxEvent) (s : State) : (logRx ev s).rxLog = { s.rxLog with trace := s.rxLog.trace ++ [(s.rxLog.now, ev)] } := rfl
@[simp] theorem logRx_program (ev : RxEvent) (s : State) : (logRx ev s).program = s.program := rfl

/-! ### passRx -/

@[simp] theorem passRx_tx (n : Nat) (s : State) : (passRx n s).tx = s.tx := rfl
@[simp] theorem passRx_line (n : Nat) (s : State) : (passRx n s).line = s.line := rfl
@[simp] theorem passRx_pwc (n : Nat) (s : State) : (passRx n s).pwc = s.pwc := rfl
@[simp] theorem passRx_bfa (n : Nat) (s : State) : (passRx n s).bfa = s.bfa := rfl
@[simp] theorem passRx_md (n : Nat) (s : State) : (passRx n s).md = s.md := rfl
@[simp] theorem passRx_call (n : Nat) (s : State) : (passRx n s).call = s.call := rfl
@[simp] theorem passRx_handed (n : Nat) (s : State) : (passRx n s).handed = s.handed := rfl
@[simp] theorem passRx_out (n : Nat) (s : State) : (passRx n s).out = s.out := rfl
@[simp] theorem passRx_txbuf (n : Nat) (s : State) : (passRx n s).txbuf = s.txbuf := rfl
@[simp] theorem passRx_rxbuf (n : Nat) (s : State) : (passRx n s).rxbuf = s.rxbuf := rfl
@[simp] theorem passRx_env (n : Nat) (s : State) : (passRx n s).env = s.env := rfl
@[simp] theorem passRx_txLog (n : Nat) (s : State) : (passRx n s).txLog = s.txLog := rfl
@[simp] theorem passRx_rxLog (n : Nat) (s : State) : (passRx n s).rxLog = { s.rxLog with now := s.rxLog.now + n } := rfl
@[simp] theorem passRx_program (n : Nat) (s : State) : (passRx n s).program = s.program := rfl

/-! ### beginMeasure -/

@[simp] theorem beginMeasure_tx (s : State) : (beginMeasure s).tx = s.tx := rfl
@[simp] theorem beginMeasure_line (s : State) : (beginMeasure s).line = s.line := rfl
@[simp] theorem beginMeasure_pwc (s : State) : (beginMeasure s).pwc = { s.pwc with phase := .waitHigh, due := false } := rfl
@[simp] theorem beginMeasure_bfa (s : State) : (beginMeasure s).bfa = s.bfa := rfl
@[simp] theorem beginMeasure_md (s : State) : (beginMeasure s).md = s.md := rfl
@[simp] theorem beginMeasure_call (s : State) : (beginMeasure s).call = s.call := rfl
@[simp] theorem beginMeasure_handed (s : State) : (beginMeasure s).handed = s.handed := rfl
@[simp] theorem beginMeasure_out (s : State) : (beginMeasure s).out = s.out := rfl
@[simp] theorem beginMeasure_txbuf (s : State) : (beginMeasure s).txbuf = s.txbuf := rfl
@[simp] theorem beginMeasure_rxbuf (s : State) : (beginMeasure s).rxbuf = s.rxbuf := rfl
@[simp] theorem beginMeasure_env (s : State) : (beginMeasure s).env = s.env := rfl
@[simp] theorem beginMeasure_txLog (s : State) : (beginMeasure s).txLog = s.txLog := rfl
@[simp] theorem beginMeasure_rxLog (s : State) : (beginMeasure s).rxLog = s.rxLog := rfl
@[simp] theorem beginMeasure_program (s : State) : (beginMeasure s).program = s.program := rfl

/-! ### beginByte -/

@[simp] theorem beginByte_tx (s : State) : (beginByte s).tx = s.tx := rfl
@[simp] theorem beginByte_line (s : State) : (beginByte s).line = s.line := rfl
@[simp] theorem beginByte_pwc (s : State) : (beginByte s).pwc = { s.pwc with phase := .waitHigh, due := false } := rfl
@[simp] theorem beginByte_bfa (s : State) : (beginByte s).bfa = { s.bfa with shift := 0, nbits := 0 } := rfl
@[simp] theorem beginByte_md (s : State) : (beginByte s).md = s.md := rfl
@[simp] theorem beginByte_call (s : State) : (beginByte s).call = s.call := rfl
@[simp] theorem beginByte_handed (s : State) : (beginByte s).handed = s.handed := rfl
@[simp] theorem beginByte_out (s : State) : (beginByte s).out = s.out := rfl
@[simp] theorem beginByte_txbuf (s : State) : (beginByte s).txbuf = s.txbuf := rfl
@[simp] theorem beginByte_rxbuf (s : State) : (beginByte s).rxbuf = s.rxbuf := rfl
@[simp] theorem beginByte_env (s : State) : (beginByte s).env = s.env := rfl
@[simp] theorem beginByte_txLog (s : State) : (beginByte s).txLog = s.txLog := rfl
@[simp] theorem beginByte_rxLog (s : State) : (beginByte s).rxLog = s.rxLog := rfl
@[simp] theorem beginByte_program (s : State) : (beginByte s).program = s.program := rfl

/-! ### beginSeek -/

@[simp] theorem beginSeek_tx (s : State) : (beginSeek s).tx = s.tx := rfl
@[simp] theorem beginSeek_line (s : State) : (beginSeek s).line = s.line := rfl
@[simp] theorem beginSeek_pwc (s : State) : (beginSeek s).pwc = { s.pwc with phase := .waitHigh, due := false } := rfl
@[simp] theorem beginSeek_bfa (s : State) : (beginSeek s).bfa = { s.bfa with zeroRun := 0 } := rfl
@[simp] theorem beginSeek_md (s : State) : (beginSeek s).md = s.md := rfl
@[simp] theorem beginSeek_call (s : State) : (beginSeek s).call = s.call := rfl
@[simp] theorem beginSeek_handed (s : State) : (beginSeek s).handed = s.handed := rfl
@[simp] theorem beginSeek_out (s : State) : (beginSeek s).out = s.out := rfl
@[simp] theorem beginSeek_txbuf (s : State) : (beginSeek s).txbuf = s.txbuf := rfl
@[simp] theorem beginSeek_rxbuf (s : State) : (beginSeek s).rxbuf = s.rxbuf := rfl
@[simp] theorem beginSeek_env (s : State) : (beginSeek s).env = s.env := rfl
@[simp] theorem beginSeek_txLog (s : State) : (beginSeek s).txLog = s.txLog := rfl
@[simp] theorem beginSeek_rxLog (s : State) : (beginSeek s).rxLog = s.rxLog := rfl
@[simp] theorem beginSeek_program (s : State) : (beginSeek s).program = s.program := rfl

/-! ### acceptReceive -/

@[simp] theorem acceptReceive_tx (cap : BitVec 9) (s : State) : (acceptReceive cap s).tx = s.tx := rfl
@[simp] theorem acceptReceive_line (cap : BitVec 9) (s : State) : (acceptReceive cap s).line = s.line := rfl
@[simp] theorem acceptReceive_pwc (cap : BitVec 9) (s : State) : (acceptReceive cap s).pwc = { s.pwc with phase := .waitHigh, dur := 0, due := false } := rfl
@[simp] theorem acceptReceive_bfa (cap : BitVec 9) (s : State) : (acceptReceive cap s).bfa = { zeroRun := 0, shift := 0, nbits := 0 } := rfl
@[simp] theorem acceptReceive_md (cap : BitVec 9) (s : State) : (acceptReceive cap s).md = { busy := true, state := .seekingHeader, len := 0, idx := 0, cap := cap, result := .none } := rfl
@[simp] theorem acceptReceive_call (cap : BitVec 9) (s : State) : (acceptReceive cap s).call = .receive := rfl
@[simp] theorem acceptReceive_handed (cap : BitVec 9) (s : State) : (acceptReceive cap s).handed = s.handed := rfl
@[simp] theorem acceptReceive_out (cap : BitVec 9) (s : State) : (acceptReceive cap s).out = s.out := rfl
@[simp] theorem acceptReceive_txbuf (cap : BitVec 9) (s : State) : (acceptReceive cap s).txbuf = s.txbuf := rfl
@[simp] theorem acceptReceive_rxbuf (cap : BitVec 9) (s : State) : (acceptReceive cap s).rxbuf = s.rxbuf := rfl
@[simp] theorem acceptReceive_env (cap : BitVec 9) (s : State) : (acceptReceive cap s).env = s.env := rfl
@[simp] theorem acceptReceive_txLog (cap : BitVec 9) (s : State) : (acceptReceive cap s).txLog = s.txLog := rfl
@[simp] theorem acceptReceive_rxLog (cap : BitVec 9) (s : State) : (acceptReceive cap s).rxLog = s.rxLog := rfl
@[simp] theorem acceptReceive_program (cap : BitVec 9) (s : State) : (acceptReceive cap s).program = s.program := rfl

/-! ### endCall -/

@[simp] theorem endCall_tx (s : State) : (endCall s).tx = s.tx := rfl
@[simp] theorem endCall_line (s : State) : (endCall s).line = s.line := rfl
@[simp] theorem endCall_pwc (s : State) : (endCall s).pwc = s.pwc := rfl
@[simp] theorem endCall_bfa (s : State) : (endCall s).bfa = s.bfa := rfl
@[simp] theorem endCall_md (s : State) : (endCall s).md = s.md := rfl
@[simp] theorem endCall_call (s : State) : (endCall s).call = .none := rfl
@[simp] theorem endCall_handed (s : State) : (endCall s).handed = s.handed := rfl
@[simp] theorem endCall_out (s : State) : (endCall s).out = s.out := rfl
@[simp] theorem endCall_txbuf (s : State) : (endCall s).txbuf = s.txbuf := rfl
@[simp] theorem endCall_rxbuf (s : State) : (endCall s).rxbuf = s.rxbuf := rfl
@[simp] theorem endCall_env (s : State) : (endCall s).env = s.env := rfl
@[simp] theorem endCall_txLog (s : State) : (endCall s).txLog = s.txLog := rfl
@[simp] theorem endCall_rxLog (s : State) : (endCall s).rxLog = s.rxLog := rfl
@[simp] theorem endCall_program (s : State) : (endCall s).program = s.program := rfl

/-! ### endReceive -/

@[simp] theorem endReceive_tx (r : RxResult) (s : State) : (endReceive r s).tx = s.tx := rfl
@[simp] theorem endReceive_line (r : RxResult) (s : State) : (endReceive r s).line = s.line := rfl
@[simp] theorem endReceive_pwc (r : RxResult) (s : State) : (endReceive r s).pwc = s.pwc := rfl
@[simp] theorem endReceive_bfa (r : RxResult) (s : State) : (endReceive r s).bfa = s.bfa := rfl
@[simp] theorem endReceive_md (r : RxResult) (s : State) : (endReceive r s).md = { s.md with busy := false, state := .rxIdle, result := r } := rfl
@[simp] theorem endReceive_call (r : RxResult) (s : State) : (endReceive r s).call = .none := rfl
@[simp] theorem endReceive_handed (r : RxResult) (s : State) : (endReceive r s).handed = s.handed := rfl
@[simp] theorem endReceive_out (r : RxResult) (s : State) : (endReceive r s).out = { s.out with rxDone := true } := rfl
@[simp] theorem endReceive_txbuf (r : RxResult) (s : State) : (endReceive r s).txbuf = s.txbuf := rfl
@[simp] theorem endReceive_rxbuf (r : RxResult) (s : State) : (endReceive r s).rxbuf = s.rxbuf := rfl
@[simp] theorem endReceive_env (r : RxResult) (s : State) : (endReceive r s).env = s.env := rfl
@[simp] theorem endReceive_txLog (r : RxResult) (s : State) : (endReceive r s).txLog = s.txLog := rfl
@[simp] theorem endReceive_rxLog (r : RxResult) (s : State) : (endReceive r s).rxLog = s.rxLog := rfl
@[simp] theorem endReceive_program (r : RxResult) (s : State) : (endReceive r s).program = s.program := rfl

/-! ### raiseNoFrame -/

@[simp] theorem raiseNoFrame_tx (s : State) : (raiseNoFrame s).tx = s.tx := rfl
@[simp] theorem raiseNoFrame_line (s : State) : (raiseNoFrame s).line = s.line := rfl
@[simp] theorem raiseNoFrame_pwc (s : State) : (raiseNoFrame s).pwc = s.pwc := rfl
@[simp] theorem raiseNoFrame_bfa (s : State) : (raiseNoFrame s).bfa = s.bfa := rfl
@[simp] theorem raiseNoFrame_md (s : State) : (raiseNoFrame s).md = { s.md with busy := false, state := .rxIdle, result := .noFrame } := rfl
@[simp] theorem raiseNoFrame_call (s : State) : (raiseNoFrame s).call = .none := rfl
@[simp] theorem raiseNoFrame_handed (s : State) : (raiseNoFrame s).handed = s.handed := rfl
@[simp] theorem raiseNoFrame_out (s : State) : (raiseNoFrame s).out = { s.out with rxDone := true } := rfl
@[simp] theorem raiseNoFrame_txbuf (s : State) : (raiseNoFrame s).txbuf = s.txbuf := rfl
@[simp] theorem raiseNoFrame_rxbuf (s : State) : (raiseNoFrame s).rxbuf = s.rxbuf := rfl
@[simp] theorem raiseNoFrame_env (s : State) : (raiseNoFrame s).env = s.env := rfl
@[simp] theorem raiseNoFrame_txLog (s : State) : (raiseNoFrame s).txLog = s.txLog := rfl
@[simp] theorem raiseNoFrame_rxLog (s : State) : (raiseNoFrame s).rxLog = s.rxLog := rfl
@[simp] theorem raiseNoFrame_program (s : State) : (raiseNoFrame s).program = s.program := rfl

/-! ### clearOut -/

@[simp] theorem clearOut_tx (s : State) : (clearOut s).tx = s.tx := rfl
@[simp] theorem clearOut_line (s : State) : (clearOut s).line = s.line := rfl
@[simp] theorem clearOut_pwc (s : State) : (clearOut s).pwc = s.pwc := rfl
@[simp] theorem clearOut_bfa (s : State) : (clearOut s).bfa = s.bfa := rfl
@[simp] theorem clearOut_md (s : State) : (clearOut s).md = s.md := rfl
@[simp] theorem clearOut_call (s : State) : (clearOut s).call = s.call := rfl
@[simp] theorem clearOut_handed (s : State) : (clearOut s).handed = s.handed := rfl
@[simp] theorem clearOut_out (s : State) : (clearOut s).out = { txDone := false, rxDone := false, txAddr := none, rxWrite := none } := rfl
@[simp] theorem clearOut_txbuf (s : State) : (clearOut s).txbuf = s.txbuf := rfl
@[simp] theorem clearOut_rxbuf (s : State) : (clearOut s).rxbuf = s.rxbuf := rfl
@[simp] theorem clearOut_env (s : State) : (clearOut s).env = s.env := rfl
@[simp] theorem clearOut_txLog (s : State) : (clearOut s).txLog = s.txLog := rfl
@[simp] theorem clearOut_rxLog (s : State) : (clearOut s).rxLog = s.rxLog := rfl
@[simp] theorem clearOut_program (s : State) : (clearOut s).program = s.program := rfl

/-! ### passTick -/

@[simp] theorem passTick_tx (s : State) : (passTick s).tx = s.tx := rfl
@[simp] theorem passTick_line (s : State) : (passTick s).line = s.line := rfl
@[simp] theorem passTick_pwc (s : State) : (passTick s).pwc = s.pwc := rfl
@[simp] theorem passTick_bfa (s : State) : (passTick s).bfa = s.bfa := rfl
@[simp] theorem passTick_md (s : State) : (passTick s).md = s.md := rfl
@[simp] theorem passTick_call (s : State) : (passTick s).call = s.call := rfl
@[simp] theorem passTick_handed (s : State) : (passTick s).handed = s.handed := rfl
@[simp] theorem passTick_out (s : State) : (passTick s).out = s.out := rfl
@[simp] theorem passTick_txbuf (s : State) : (passTick s).txbuf = s.txbuf := rfl
@[simp] theorem passTick_rxbuf (s : State) : (passTick s).rxbuf = s.rxbuf := rfl
@[simp] theorem passTick_env (s : State) : (passTick s).env = { s.env with wave := popWave s.env.wave, host := s.env.host.tail, tick := s.env.tick + 1 } := rfl
@[simp] theorem passTick_txLog (s : State) : (passTick s).txLog = { s.txLog with now := s.txLog.now + 1 } := rfl
@[simp] theorem passTick_rxLog (s : State) : (passTick s).rxLog = { s.rxLog with now := s.rxLog.now + 1 } := rfl
@[simp] theorem passTick_program (s : State) : (passTick s).program = s.program := rfl

/-! ### putWave -/

@[simp] theorem putWave_tx (w : List (Level × Nat)) (s : State) : (putWave w s).tx = s.tx := rfl
@[simp] theorem putWave_line (w : List (Level × Nat)) (s : State) : (putWave w s).line = s.line := rfl
@[simp] theorem putWave_pwc (w : List (Level × Nat)) (s : State) : (putWave w s).pwc = s.pwc := rfl
@[simp] theorem putWave_bfa (w : List (Level × Nat)) (s : State) : (putWave w s).bfa = s.bfa := rfl
@[simp] theorem putWave_md (w : List (Level × Nat)) (s : State) : (putWave w s).md = s.md := rfl
@[simp] theorem putWave_call (w : List (Level × Nat)) (s : State) : (putWave w s).call = s.call := rfl
@[simp] theorem putWave_handed (w : List (Level × Nat)) (s : State) : (putWave w s).handed = s.handed := rfl
@[simp] theorem putWave_out (w : List (Level × Nat)) (s : State) : (putWave w s).out = s.out := rfl
@[simp] theorem putWave_txbuf (w : List (Level × Nat)) (s : State) : (putWave w s).txbuf = s.txbuf := rfl
@[simp] theorem putWave_rxbuf (w : List (Level × Nat)) (s : State) : (putWave w s).rxbuf = s.rxbuf := rfl
@[simp] theorem putWave_env (w : List (Level × Nat)) (s : State) : (putWave w s).env = { s.env with wave := s.env.wave ++ w.map (fun p => ⟨p.1, none, p.2⟩) } := rfl
@[simp] theorem putWave_txLog (w : List (Level × Nat)) (s : State) : (putWave w s).txLog = s.txLog := rfl
@[simp] theorem putWave_rxLog (w : List (Level × Nat)) (s : State) : (putWave w s).rxLog = s.rxLog := rfl
@[simp] theorem putWave_program (w : List (Level × Nat)) (s : State) : (putWave w s).program = s.program := rfl

/-! ### resetRegs -/

@[simp] theorem resetRegs_tx (s : State) : (resetRegs s).tx = State.reset.tx := rfl
@[simp] theorem resetRegs_line (s : State) : (resetRegs s).line = State.reset.line := rfl
@[simp] theorem resetRegs_pwc (s : State) : (resetRegs s).pwc = State.reset.pwc := rfl
@[simp] theorem resetRegs_bfa (s : State) : (resetRegs s).bfa = State.reset.bfa := rfl
@[simp] theorem resetRegs_md (s : State) : (resetRegs s).md = State.reset.md := rfl
@[simp] theorem resetRegs_call (s : State) : (resetRegs s).call = State.reset.call := rfl
@[simp] theorem resetRegs_handed (s : State) : (resetRegs s).handed = State.reset.handed := rfl
@[simp] theorem resetRegs_out (s : State) : (resetRegs s).out = State.reset.out := rfl
@[simp] theorem resetRegs_txbuf (s : State) : (resetRegs s).txbuf = s.txbuf := rfl
@[simp] theorem resetRegs_rxbuf (s : State) : (resetRegs s).rxbuf = s.rxbuf := rfl
@[simp] theorem resetRegs_env (s : State) : (resetRegs s).env = s.env := rfl
@[simp] theorem resetRegs_txLog (s : State) : (resetRegs s).txLog =
    { s.txLog with trace := s.txLog.trace ++ [(s.txLog.now, .reset)] } := rfl
@[simp] theorem resetRegs_rxLog (s : State) : (resetRegs s).rxLog = s.rxLog := rfl
@[simp] theorem resetRegs_program (s : State) : (resetRegs s).program = s.program := rfl

/-! ### handBand -/

@[simp] theorem handBand_tx (d : Nat) (s : State) : (handBand d s).tx = s.tx := rfl
@[simp] theorem handBand_line (d : Nat) (s : State) : (handBand d s).line = s.line := rfl
@[simp] theorem handBand_pwc (d : Nat) (s : State) : (handBand d s).pwc = s.pwc := rfl
@[simp] theorem handBand_bfa (d : Nat) (s : State) : (handBand d s).bfa = s.bfa := rfl
@[simp] theorem handBand_md (d : Nat) (s : State) : (handBand d s).md = s.md := rfl
@[simp] theorem handBand_call (d : Nat) (s : State) : (handBand d s).call = s.call := rfl
@[simp] theorem handBand_handed (d : Nat) (s : State) : (handBand d s).handed = { s.handed with cls := some (classify d), bit := some (bitOfCls (classify d)) } := rfl
@[simp] theorem handBand_out (d : Nat) (s : State) : (handBand d s).out = s.out := rfl
@[simp] theorem handBand_txbuf (d : Nat) (s : State) : (handBand d s).txbuf = s.txbuf := rfl
@[simp] theorem handBand_rxbuf (d : Nat) (s : State) : (handBand d s).rxbuf = s.rxbuf := rfl
@[simp] theorem handBand_env (d : Nat) (s : State) : (handBand d s).env = s.env := rfl
@[simp] theorem handBand_txLog (d : Nat) (s : State) : (handBand d s).txLog = s.txLog := rfl
@[simp] theorem handBand_rxLog (d : Nat) (s : State) : (handBand d s).rxLog = s.rxLog := rfl
@[simp] theorem handBand_program (d : Nat) (s : State) : (handBand d s).program = s.program := rfl

/-! ### handSend -/

@[simp] theorem handSend_tx (r : State × Option DrvErr) : (handSend r).tx = r.1.tx := rfl
@[simp] theorem handSend_line (r : State × Option DrvErr) : (handSend r).line = r.1.line := rfl
@[simp] theorem handSend_pwc (r : State × Option DrvErr) : (handSend r).pwc = r.1.pwc := rfl
@[simp] theorem handSend_bfa (r : State × Option DrvErr) : (handSend r).bfa = r.1.bfa := rfl
@[simp] theorem handSend_md (r : State × Option DrvErr) : (handSend r).md = r.1.md := rfl
@[simp] theorem handSend_call (r : State × Option DrvErr) : (handSend r).call = r.1.call := rfl
@[simp] theorem handSend_handed (r : State × Option DrvErr) : (handSend r).handed = { r.1.handed with send := some r.2 } := rfl
@[simp] theorem handSend_out (r : State × Option DrvErr) : (handSend r).out = r.1.out := rfl
@[simp] theorem handSend_txbuf (r : State × Option DrvErr) : (handSend r).txbuf = r.1.txbuf := rfl
@[simp] theorem handSend_rxbuf (r : State × Option DrvErr) : (handSend r).rxbuf = r.1.rxbuf := rfl
@[simp] theorem handSend_env (r : State × Option DrvErr) : (handSend r).env = r.1.env := rfl
@[simp] theorem handSend_txLog (r : State × Option DrvErr) : (handSend r).txLog = r.1.txLog := rfl
@[simp] theorem handSend_rxLog (r : State × Option DrvErr) : (handSend r).rxLog = r.1.rxLog := rfl
@[simp] theorem handSend_program (r : State × Option DrvErr) : (handSend r).program = r.1.program := rfl

/-! ### hostStore: the fields it never writes -/

@[simp] theorem hostStore_tx (h : HostIn) (s : State) : (hostStore h s).tx = s.tx := by unfold hostStore; split <;> rfl
@[simp] theorem hostStore_line (h : HostIn) (s : State) : (hostStore h s).line = s.line := by unfold hostStore; split <;> rfl
@[simp] theorem hostStore_pwc (h : HostIn) (s : State) : (hostStore h s).pwc = s.pwc := by unfold hostStore; split <;> rfl
@[simp] theorem hostStore_bfa (h : HostIn) (s : State) : (hostStore h s).bfa = s.bfa := by unfold hostStore; split <;> rfl
@[simp] theorem hostStore_md (h : HostIn) (s : State) : (hostStore h s).md = s.md := by unfold hostStore; split <;> rfl
@[simp] theorem hostStore_call (h : HostIn) (s : State) : (hostStore h s).call = s.call := by unfold hostStore; split <;> rfl
@[simp] theorem hostStore_handed (h : HostIn) (s : State) : (hostStore h s).handed = s.handed := by unfold hostStore; split <;> rfl
@[simp] theorem hostStore_out (h : HostIn) (s : State) : (hostStore h s).out = s.out := by unfold hostStore; split <;> rfl
@[simp] theorem hostStore_rxbuf (h : HostIn) (s : State) : (hostStore h s).rxbuf = s.rxbuf := by unfold hostStore; split <;> rfl
@[simp] theorem hostStore_env (h : HostIn) (s : State) : (hostStore h s).env = s.env := by unfold hostStore; split <;> rfl
@[simp] theorem hostStore_txLog (h : HostIn) (s : State) : (hostStore h s).txLog = s.txLog := by unfold hostStore; split <;> rfl
@[simp] theorem hostStore_rxLog (h : HostIn) (s : State) : (hostStore h s).rxLog = s.rxLog := by unfold hostStore; split <;> rfl
@[simp] theorem hostStore_program (h : HostIn) (s : State) : (hostStore h s).program = s.program := by unfold hostStore; split <;> rfl

/-! ### handCls: the fields it never writes -/

@[simp] theorem handCls_tx (m : Meas) (s : State) : (handCls m s).tx = s.tx := by cases m <;> rfl
@[simp] theorem handCls_line (m : Meas) (s : State) : (handCls m s).line = s.line := by cases m <;> rfl
@[simp] theorem handCls_pwc (m : Meas) (s : State) : (handCls m s).pwc = s.pwc := by cases m <;> rfl
@[simp] theorem handCls_bfa (m : Meas) (s : State) : (handCls m s).bfa = s.bfa := by cases m <;> rfl
@[simp] theorem handCls_md (m : Meas) (s : State) : (handCls m s).md = s.md := by cases m <;> rfl
@[simp] theorem handCls_call (m : Meas) (s : State) : (handCls m s).call = s.call := by cases m <;> rfl
@[simp] theorem handCls_out (m : Meas) (s : State) : (handCls m s).out = s.out := by cases m <;> rfl
@[simp] theorem handCls_txbuf (m : Meas) (s : State) : (handCls m s).txbuf = s.txbuf := by cases m <;> rfl
@[simp] theorem handCls_rxbuf (m : Meas) (s : State) : (handCls m s).rxbuf = s.rxbuf := by cases m <;> rfl
@[simp] theorem handCls_env (m : Meas) (s : State) : (handCls m s).env = s.env := by cases m <;> rfl
@[simp] theorem handCls_txLog (m : Meas) (s : State) : (handCls m s).txLog = s.txLog := by cases m <;> rfl
@[simp] theorem handCls_rxLog (m : Meas) (s : State) : (handCls m s).rxLog = s.rxLog := by cases m <;> rfl
@[simp] theorem handCls_program (m : Meas) (s : State) : (handCls m s).program = s.program := by cases m <;> rfl

/-! ### loadByte: the fields it never writes -/

@[simp] theorem loadByte_line (k : BitVec 9) (s : State) : (loadByte k s).line = s.line := by unfold loadByte; dsimp only; split <;> rfl
@[simp] theorem loadByte_pwc (k : BitVec 9) (s : State) : (loadByte k s).pwc = s.pwc := by unfold loadByte; dsimp only; split <;> rfl
@[simp] theorem loadByte_bfa (k : BitVec 9) (s : State) : (loadByte k s).bfa = s.bfa := by unfold loadByte; dsimp only; split <;> rfl
@[simp] theorem loadByte_md (k : BitVec 9) (s : State) : (loadByte k s).md = s.md := by unfold loadByte; dsimp only; split <;> rfl
@[simp] theorem loadByte_call (k : BitVec 9) (s : State) : (loadByte k s).call = s.call := by unfold loadByte; dsimp only; split <;> rfl
@[simp] theorem loadByte_handed (k : BitVec 9) (s : State) : (loadByte k s).handed = s.handed := by unfold loadByte; dsimp only; split <;> rfl
@[simp] theorem loadByte_txbuf (k : BitVec 9) (s : State) : (loadByte k s).txbuf = s.txbuf := by unfold loadByte; dsimp only; split <;> rfl
@[simp] theorem loadByte_rxbuf (k : BitVec 9) (s : State) : (loadByte k s).rxbuf = s.rxbuf := by unfold loadByte; dsimp only; split <;> rfl
@[simp] theorem loadByte_env (k : BitVec 9) (s : State) : (loadByte k s).env = s.env := by unfold loadByte; dsimp only; split <;> rfl
@[simp] theorem loadByte_rxLog (k : BitVec 9) (s : State) : (loadByte k s).rxLog = s.rxLog := by unfold loadByte; dsimp only; split <;> rfl
@[simp] theorem loadByte_program (k : BitVec 9) (s : State) : (loadByte k s).program = s.program := by unfold loadByte; dsimp only; split <;> rfl

/-! ### seekDone: the fields it never writes -/

@[simp] theorem seekDone_tx (s : State) : (seekDone s).tx = s.tx := by unfold seekDone; split <;> rfl
@[simp] theorem seekDone_line (s : State) : (seekDone s).line = s.line := by unfold seekDone; split <;> rfl
@[simp] theorem seekDone_handed (s : State) : (seekDone s).handed = s.handed := by unfold seekDone; split <;> rfl
@[simp] theorem seekDone_out (s : State) : (seekDone s).out = s.out := by unfold seekDone; split <;> rfl
@[simp] theorem seekDone_txbuf (s : State) : (seekDone s).txbuf = s.txbuf := by unfold seekDone; split <;> rfl
@[simp] theorem seekDone_rxbuf (s : State) : (seekDone s).rxbuf = s.rxbuf := by unfold seekDone; split <;> rfl
@[simp] theorem seekDone_env (s : State) : (seekDone s).env = s.env := by unfold seekDone; split <;> rfl
@[simp] theorem seekDone_txLog (s : State) : (seekDone s).txLog = s.txLog := by unfold seekDone; split <;> rfl
@[simp] theorem seekDone_rxLog (s : State) : (seekDone s).rxLog = s.rxLog := by unfold seekDone; split <;> rfl
@[simp] theorem seekDone_program (s : State) : (seekDone s).program = s.program := by unfold seekDone; split <;> rfl

@[simp] theorem loadByte_tx (k : BitVec 9) (s : State) :
    (loadByte k s).tx = { s.tx with k := k, i := 0, cur := frameByte s k } := by unfold loadByte; dsimp only; split <;> rfl

end Sys2Proof.Machine
end

