-- ==== Sys2Proof/Laws/Memory.lean ====
section
/-! SUPPORT. The laws of the byte memories: read after write, the canonical form, and stores of several bytes. -/

namespace Sys2Proof.Machine

/-- Reading the index just written gives the byte written. -/
@[simp] theorem Memory.read_write_same (m : Memory) (a : Nat) (v : Byte) :
    Memory.read (Memory.write m a v) a = some v := by
  induction m with
  | nil => simp [Memory.write, Memory.read]
  | cons c m ih =>
    unfold Memory.write
    split
    · simp [Memory.read]
    · split
      · simp [Memory.read]
      · rename_i h; simp [Memory.read, Ne.symm h, ih]

/-- A write leaves every other index alone (R63). -/
theorem Memory.read_write_other (m : Memory) {a b : Nat} (v : Byte) (h : b ≠ a) :
    Memory.read (Memory.write m a v) b = Memory.read m b := by
  induction m with
  | nil => simp [Memory.write, Memory.read, Ne.symm h]
  | cons c m ih =>
    unfold Memory.write
    split
    · simp [Memory.read, Ne.symm h]
    · split
      · rename_i h'; subst h'; simp [Memory.read, Ne.symm h]
      · simp only [Memory.read, ih]

/-- A write keeps the first address or puts a smaller one, its own, in front. -/
theorem Memory.write_head (m : Memory) (a : Nat) (v : Byte) (c : Host.Cell) :
    ∃ d r, Memory.write (c :: m) a v = d :: r ∧ (d.1 = a ∧ a ≤ c.1 ∨ d = c ∧ c.1 < a) := by
  unfold Memory.write
  split
  · exact ⟨_, _, rfl, .inl ⟨rfl, by omega⟩⟩
  · split
    · exact ⟨_, _, rfl, .inl ⟨rfl, by omega⟩⟩
    · exact ⟨_, _, rfl, .inr ⟨rfl, by omega⟩⟩

/-- A write keeps the canonical form. -/
theorem Memory.wf_write (m : Memory) (a : Nat) (v : Byte) (h : Memory.wf m = true) :
    Memory.wf (Memory.write m a v) = true := by
  induction m with
  | nil => rfl
  | cons c m ih =>
    cases m with
    | nil =>
      unfold Memory.write
      split
      · simp_all [Memory.wf]
      · split
        · rfl
        · simp only [Memory.write, Memory.wf, Bool.and_true, decide_eq_true_eq]; omega
    | cons d m =>
      simp only [Memory.wf, Bool.and_eq_true, decide_eq_true_eq] at h
      unfold Memory.write
      split
      · rename_i hlt; simp [Memory.wf, hlt, h]
      · split
        · rename_i _ he; subst he; simp [Memory.wf, h]
        · obtain ⟨e, r, he, hc⟩ := Memory.write_head m a v d
          have := ih h.2
          rw [he] at this ⊢
          simp only [Memory.wf, Bool.and_eq_true, decide_eq_true_eq]
          refine ⟨?_, this⟩
          rcases hc with ⟨h1, _⟩ | ⟨rfl, _⟩
          · omega
          · exact h.1

/-- A write adds no address but its own. -/
theorem Memory.mem_write (m : Memory) (a : Nat) (v : Byte) (c : Host.Cell) (h : c ∈ Memory.write m a v) :
    c.1 = a ∨ c ∈ m := by
  induction m with
  | nil => simp_all [Memory.write]
  | cons d m ih =>
    unfold Memory.write at h
    split at h
    · rcases List.mem_cons.1 h with rfl | h
      · exact .inl rfl
      · exact .inr h
    · split at h
      · rcases List.mem_cons.1 h with rfl | h
        · exact .inl rfl
        · exact .inr (List.mem_cons_of_mem _ h)
      · rcases List.mem_cons.1 h with rfl | h
        · exact .inr (List.mem_cons_self ..)
        · exact (ih h).imp id (List.mem_cons_of_mem _)

/-- Storing several bytes keeps the canonical form. -/
theorem Memory.wf_writeList (m : Memory) (a : Nat) (vs : List Byte) (h : Memory.wf m = true) :
    Memory.wf (Memory.writeList m a vs) = true := by
  induction vs generalizing m a with
  | nil => exact h
  | cons v vs ih => exact ih _ _ (Memory.wf_write m a v h)

/-- Storing several bytes leaves the indices outside them alone. -/
theorem Memory.read_writeList_other (m : Memory) (a b : Nat) (vs : List Byte) (h : b < a ∨ a + vs.length ≤ b) :
    Memory.read (Memory.writeList m a vs) b = Memory.read m b := by
  induction vs generalizing m a with
  | nil => rfl
  | cons v vs ih =>
    simp only [List.length_cons] at h
    rw [Memory.writeList, ih _ _ (by omega), Memory.read_write_other _ _ (by omega)]

/-- Storing several bytes stores byte `j` at index `a + j`. -/
theorem Memory.read_writeList (m : Memory) (a j : Nat) (vs : List Byte) (h : j < vs.length) :
    Memory.read (Memory.writeList m a vs) (a + j) = some vs[j] := by
  induction vs generalizing m a j with
  | nil => simp at h
  | cons v vs ih =>
    cases j with
    | zero => rw [Memory.writeList, Memory.read_writeList_other _ _ _ _ (by omega)]; simp
    | succ j =>
      simp only [List.length_cons] at h
      have := ih (Memory.write m a v) (a + 1) j (by omega)
      rw [Memory.writeList, show a + (j + 1) = a + 1 + j by omega, this]; rfl

/-- Storing several bytes adds no address but theirs. -/
theorem Memory.mem_writeList (m : Memory) (a : Nat) (vs : List Byte) (c : Host.Cell)
    (h : c ∈ Memory.writeList m a vs) : (a ≤ c.1 ∧ c.1 < a + vs.length) ∨ c ∈ m := by
  induction vs generalizing m a with
  | nil => exact .inr h
  | cons v vs ih =>
    rcases ih _ _ h with h | h
    · simp only [List.length_cons]; omega
    · rcases Memory.mem_write _ _ _ _ h with h | h
      · simp only [List.length_cons]; omega
      · exact .inr h

/-- The host's stores of a tick keep the canonical form. -/
theorem Memory.wf_storeAll (m : Memory) (l : List (Fin 255 × Byte)) (h : Memory.wf m = true) :
    Memory.wf (Memory.storeAll m l) = true := by
  induction l generalizing m with
  | nil => exact h
  | cons c l ih => exact ih _ (Memory.wf_write m c.1.val c.2 h)

/-- The host's stores of a tick add no address but theirs. -/
theorem Memory.mem_storeAll (m : Memory) (l : List (Fin 255 × Byte)) (c : Host.Cell)
    (h : c ∈ Memory.storeAll m l) : c.1 < 255 ∨ c ∈ m := by
  induction l generalizing m with
  | nil => exact .inr h
  | cons d l ih =>
    rcases ih _ h with h | h
    · exact .inl h
    · rcases Memory.mem_write _ _ _ _ h with h | h
      · exact .inl (h ▸ d.1.isLt)
      · exact .inr h

/-- A store into an index that no later store of the tick meets is read back. -/
theorem Memory.read_storeAll_last (m : Memory) (l r : List (Fin 255 × Byte)) (j : Fin 255) (v : Byte)
    (h : ∀ c ∈ r, c.1 ≠ j) : Memory.read (Memory.storeAll m (l ++ (j, v) :: r)) j.val = some v := by
  rw [Memory.storeAll, List.foldl_append, List.foldl_cons]
  generalize List.foldl _ m l = m'
  suffices ∀ (r : List (Fin 255 × Byte)) (n : Memory), (∀ c ∈ r, c.1 ≠ j) → Memory.read n j.val = some v →
      Memory.read (Memory.storeAll n r) j.val = some v from this r _ h (by simp)
  intro r
  induction r with
  | nil => exact fun _ _ hn => hn
  | cons c r ih =>
    intro n hr hn
    refine ih _ (fun d hd => hr d (List.mem_cons_of_mem _ hd)) ?_
    rw [Memory.read_write_other _ _ (fun h' => hr c (List.mem_cons_self ..) (Fin.ext h'.symm)), hn]

end Sys2Proof.Machine
end

