-- ==== Sys2Proof/Laws/Encoder.lean ====
section
/-! SUPPORT. What one drive call and one `SEND_BIT` can do, how the listed answers advance, and that the encoder's
operations leave the receiver alone. -/

namespace Sys2Proof.Machine

/-- The next drive call's answer is number 0. -/
theorem driveAnswer_eq (s : State) : driveAnswer s = nthDrive s 0 := by
  unfold driveAnswer nthDrive
  cases s.env.drv <;> simp

/-- After one drive call the answers move up by one. -/
theorem nthDrive_popDrive (s : State) (j : Nat) : nthDrive (popDrive s) j = nthDrive s (j + 1) := by
  cases h : s.env.drvTied
  · cases h' : s.env.drv <;> simp [nthDrive, popDrive, h, h', Nat.add_assoc, Nat.add_comm 1 j]
  · simp [nthDrive, popDrive, h]

/-- The answers depend on the listed inputs alone. -/
theorem nthDrive_congr {s t : State} (h : t.env = s.env) (j : Nat) : nthDrive t j = nthDrive s j := by
  simp [nthDrive, h]

/-- The answers after `n` drive calls. -/
theorem nthDrive_envAfterDrives {s t : State} (n : Nat) (h : t.env = envAfterDrives n s.env) (j : Nat) :
    nthDrive t j = nthDrive s (n + j) := by
  cases h' : s.env.drvTied <;> simp [nthDrive, h, envAfterDrives, h', Nat.add_assoc]

/-- Drive calls count on. -/
theorem envAfterDrives_add (m n : Nat) (e : Env) :
    envAfterDrives m (envAfterDrives n e) = envAfterDrives (n + m) e := by
  cases h : e.drvTied <;> simp [envAfterDrives, h, Nat.add_assoc]

/-- One drive call uses one answer. -/
theorem popDrive_env_eq (s : State) : (popDrive s).env = envAfterDrives 1 s.env := by
  cases h : s.env.drvTied <;> simp [envAfterDrives, h]

/-- A drive call that answers `Ok`: the line has the level, one answer is used, the event is in the trace (R262). -/
theorem drive_ok (l : Level) (s : State) (h : nthDrive s 0 = none) :
    drive l s = ({ s with
      line := l
      env := envAfterDrives 1 s.env
      txLog := { s.txLog with trace := s.txLog.trace ++ [(s.txLog.now, driveEvent l none)] } }, none) := by
  rw [← driveAnswer_eq] at h
  simp [drive, h, ← popDrive_env_eq, popDrive, logTx]

/-- A drive call that answers `Err(e)`: the line is a free value, one answer is used, the event is in the trace (U2). -/
theorem drive_err (l : Level) (s : State) (e : DrvErr) (h : nthDrive s 0 = some e) :
    drive l s = ({ s with
      line := Config.lineAfterErr s.env.drvCalls
      env := envAfterDrives 1 s.env
      txLog := { s.txLog with trace := s.txLog.trace ++ [(s.txLog.now, driveEvent l (some e))] } }, some e) := by
  rw [← driveAnswer_eq] at h
  simp [drive, h, ← popDrive_env_eq, popDrive, logTx]

/-- `SEND_BIT` with two answering drive calls. -/
theorem sendBit_ok (b : Bool) (s : State) (h0 : nthDrive s 0 = none) (h1 : nthDrive s 1 = none) :
    sendBit b s = ({ s with
      line := .lo
      env := envAfterDrives 2 s.env
      txLog := { now := s.txLog.now + symPeriod b, trace := s.txLog.trace ++ symEvents s.txLog.now b } }, none) := by
  have h1' : nthDrive (delayTx (highTime b) { s with
      line := .hi, env := envAfterDrives 1 s.env
      txLog := { s.txLog with trace := s.txLog.trace ++ [(s.txLog.now, driveEvent .hi none)] } }) 0 = none := by
    rw [nthDrive_envAfterDrives (s := s) 1 rfl]; exact h1
  rw [sendBit, drive_ok _ _ h0]
  simp only
  rw [drive_ok _ _ h1']
  simp [delayTx, symEvents, symPeriod, driveEvent, envAfterDrives_add, Nat.add_assoc]

/-- `SEND_BIT` whose first drive call errs. -/
theorem sendBit_err_high (b : Bool) (s : State) (e : DrvErr) (h : nthDrive s 0 = some e) :
    sendBit b s = ({ s with
      line := Config.lineAfterErr s.env.drvCalls
      env := envAfterDrives 1 s.env
      txLog := { s.txLog with trace := s.txLog.trace ++ [(s.txLog.now, .setHigh (some e))] } }, some e) := by
  rw [sendBit, drive_err _ _ e h]; rfl

/-- `SEND_BIT` whose second drive call errs. -/
theorem sendBit_err_low (b : Bool) (s : State) (e : DrvErr) (h0 : nthDrive s 0 = none) (h1 : nthDrive s 1 = some e) :
    sendBit b s = ({ s with
      line := Config.lineAfterErr (s.env.drvCalls + 1)
      env := envAfterDrives 2 s.env
      txLog := { now := s.txLog.now + highTime b
                 trace := s.txLog.trace ++ [(s.txLog.now, .setHigh none), (s.txLog.now, .delay (highTime b)),
                   (s.txLog.now + highTime b, .setLow (some e))] } }, some e) := by
  have h1' : nthDrive (delayTx (highTime b) { s with
      line := .hi, env := envAfterDrives 1 s.env
      txLog := { s.txLog with trace := s.txLog.trace ++ [(s.txLog.now, driveEvent .hi none)] } }) 0 = some e := by
    rw [nthDrive_envAfterDrives (s := s) 1 rfl]; exact h1
  rw [sendBit, drive_ok _ _ h0]
  simp only
  rw [drive_err _ _ e h1']
  simp [delayTx, driveEvent, envAfterDrives_add]
  simp [envAfterDrives]

/-- The encoder leaves the receiver alone: reflexive and transitive. -/
@[refl] theorem SameRx.refl (s : State) : SameRx s s := by simp [SameRx]

@[trans] theorem SameRx.trans {s t u : State} (h : SameRx s t) (k : SameRx t u) : SameRx s u := by
  obtain ⟨h1, h2, h3, h4, h5, h6, h7, h8, h9, h10, h11⟩ := h
  obtain ⟨k1, k2, k3, k4, k5, k6, k7, k8, k9, k10, k11⟩ := k
  refine ⟨k1.trans h1, k2.trans h2, k3.trans h3, k4.trans h4, k5.trans h5, k6.trans h6, k7.trans h7, ?_,
    k9.trans h9, k10.trans h10, ?_⟩
  · rw [← h8, ← k8]
  · rw [← h11, ← k11]

/-- A drive call leaves the receiver alone. -/
theorem drive_sameRx (l : Level) (s : State) : SameRx s (drive l s).1 := by
  unfold drive
  dsimp only
  split <;> simp [SameRx]

/-- `SEND_BIT` leaves the receiver alone. -/
theorem sendBit_sameRx (b : Bool) (s : State) : SameRx s (sendBit b s).1 := by
  unfold sendBit
  rcases h : drive .hi s with ⟨s1, _ | e⟩
  · have h1 : SameRx s s1 := by simpa [h] using drive_sameRx .hi s
    have hd : SameRx s1 (delayTx (highTime b) s1) := by simp [SameRx]
    rcases h' : drive .lo (delayTx (highTime b) s1) with ⟨s2, _ | e⟩
    · have h2 : SameRx (delayTx (highTime b) s1) s2 := by simpa [h'] using drive_sameRx .lo (delayTx (highTime b) s1)
      have : SameRx s2 (delayTx tGap s2) := by simp [SameRx]
      simpa [h'] using ((h1.trans hd).trans h2).trans this
    · have h2 : SameRx (delayTx (highTime b) s1) s2 := by simpa [h'] using drive_sameRx .lo (delayTx (highTime b) s1)
      simpa [h'] using (h1.trans hd).trans h2
  · simpa [h] using drive_sameRx .hi s

/-- `SEND_BYTE` leaves the receiver alone. -/
theorem sendBits_sameRx (b : Byte) (is : List (BitVec 3)) (s : State) : SameRx s (sendBits b is s).1 := by
  induction is generalizing s with
  | nil => exact SameRx.refl s
  | cons i is ih =>
    have h0 : SameRx s (setTxI i s) := by simp [SameRx]
    have h1 := sendBit_sameRx (b.getLsbD i.toNat) (setTxI i s)
    unfold sendBits
    rcases h : sendBit (b.getLsbD i.toNat) (setTxI i s) with ⟨s1, _ | e⟩
    · rw [h] at h1; exact (h0.trans h1).trans (ih s1)
    · rw [h] at h1; exact h0.trans h1

/-- The start of a frame byte leaves the receiver alone. -/
theorem loadByte_sameRx (k : BitVec 9) (s : State) : SameRx s (loadByte k s) := by
  unfold loadByte
  dsimp only
  split <;> simp [SameRx]

/-- The bytes of a frame leave the receiver alone. -/
theorem sendBytes_sameRx (ks : List (BitVec 9)) (s : State) : SameRx s (sendBytes ks s).1 := by
  induction ks generalizing s with
  | nil => exact SameRx.refl s
  | cons k ks ih =>
    have h0 := loadByte_sameRx k s
    have h1 := sendBits_sameRx (loadByte k s).tx.cur bitIndices (loadByte k s)
    unfold sendBytes sendByte
    rcases h : sendBits (loadByte k s).tx.cur bitIndices (loadByte k s) with ⟨s1, _ | e⟩
    · rw [h] at h1; exact (h0.trans h1).trans (ih s1)
    · rw [h] at h1; exact h0.trans h1

end Sys2Proof.Machine
end

