-- ==== Sys2Proof/Laws/PerInstr.lean ====
section
/-! SUPPORT. The statements made per instruction: how many bits the encoded line of a well-formed instruction has, one lemma
for each row of the table. -/

namespace Sys2Proof.Laws.EncodedLength

open Sys2Proof.Machine

/-- The number of bits of a row's pattern, from the `encoding` column of the table: 11 for a duration, or as many as a
larger number needs (log 1); the host's 9-bit port for RECEIVE (R50). -/
def rowBits : Instr → Nat
  | .sym1 | .sym0 | .sendBit _ => 1
  | .byte _ | .sync | .length _ | .payloadByte _ | .sendByte _ => 8
  | .header | .seekHeader => 24
  | .frame p | .send p => 40 + 8 * p.length
  | .bandNoise _ | .bandDead _ | .bandOne _ | .bandZero _ => 11
  | .bandOver d | .classify d => max 11 (d.log2 + 1)
  | .measurePulse | .readBit | .readByte => 0
  | .receive _ => 9

/-- A well-formed instruction's line has its row's number of bits. -/
def Statement (i : Instr) : Prop := i.wellFormed = true → (encode i).pattern.length = rowBits i

theorem bitsOf_length (w v : Nat) : (bitsOf w v).length = w := by
  induction w generalizing v with
  | zero => rfl
  | succ w ih => simp [bitsOf, ih]

theorem durBits_length (d : Nat) : (durBits d).length = max 11 (d.log2 + 1) := bitsOf_length _ _

theorem durBits_length_small {d : Nat} (h : d ≤ 900) : (durBits d).length = 11 := by
  rw [durBits_length, Nat.max_eq_left]
  rcases Nat.eq_zero_or_pos d with rfl | h0
  · decide
  · have := (Nat.log2_lt (k := 10) (by omega)).2 (show d < 2 ^ 10 by omega)
    omega

theorem encodeBits_length (p : List Byte) : (encodeBits p).length = 40 + 8 * p.length := by
  have h : (p.flatMap byteBits).length = 8 * p.length := by
    induction p with
    | nil => rfl
    | cons b p ih => simp only [List.flatMap_cons, List.length_append, ih, byteBits, List.length_cons, List.length_nil]; omega
  simp only [encodeBits, List.length_append, h, headerPattern, List.length_replicate, syncPattern, byteBits,
    List.length_cons, List.length_nil]

theorem sym1 : Statement .sym1 := fun _ => rfl
theorem sym0 : Statement .sym0 := fun _ => rfl
theorem byte (b : Byte) : Statement (.byte b) := fun _ => rfl
theorem header : Statement .header := fun _ => rfl
theorem sync : Statement .sync := fun _ => rfl
theorem length (n : Byte) : Statement (.length n) := fun _ => rfl
theorem payloadByte (b : Byte) : Statement (.payloadByte b) := fun _ => rfl
theorem frame (p : List Byte) : Statement (.frame p) := fun _ => encodeBits_length p
theorem bandNoise (d : Nat) : Statement (.bandNoise d) := fun h =>
  durBits_length_small (by
    simp [Instr.wellFormed, thNoise] at h
    omega)
theorem bandDead (d : Nat) : Statement (.bandDead d) := fun h =>
  durBits_length_small (by
    simp [Instr.wellFormed, thNoise, thOneMin] at h
    omega)
theorem bandOne (d : Nat) : Statement (.bandOne d) := fun h =>
  durBits_length_small (by
    simp [Instr.wellFormed, thOneMin, thOneMax] at h
    omega)
theorem bandZero (d : Nat) : Statement (.bandZero d) := fun h =>
  durBits_length_small (by
    simp [Instr.wellFormed, thZeroMin, thZeroMax] at h
    omega)
theorem bandOver (d : Nat) : Statement (.bandOver d) := fun _ => durBits_length d
theorem sendBit (b : Bool) : Statement (.sendBit b) := fun _ => rfl
theorem sendByte (b : Byte) : Statement (.sendByte b) := fun _ => rfl
theorem send (p : List Byte) : Statement (.send p) := fun _ => encodeBits_length p
theorem measurePulse : Statement .measurePulse := fun _ => rfl
theorem classify (d : Nat) : Statement (.classify d) := fun _ => durBits_length d
theorem readBit : Statement .readBit := fun _ => rfl
theorem readByte : Statement .readByte := fun _ => rfl
theorem seekHeader : Statement .seekHeader := fun _ => rfl
theorem receive (cap : BitVec 9) : Statement (.receive cap) := fun _ => bitsOf_length 9 cap.toNat

end Sys2Proof.Laws.EncodedLength
end

