-- ==== Sys2Proof/Laws/Receiver.lean ====
section
/-! SUPPORT. What each shared operation of the receive chain can do: each leaves the encoder alone, a write happens only in
`storePayload`, and one bit read on the answers of its pin calls is one hand-over (`runCalls_read`). -/

namespace Sys2Proof.Machine

/-- `andThen` answers a next state exactly through one. -/
theorem andThen_eq_next {o : Result} {f : State → Result} {t : State} :
    andThen o f = .next t ↔ ∃ u, o = .next u ∧ f u = .next t := by
  cases o <;> simp [andThen]

@[simp] theorem andThen_next (s : State) (f : State → Result) : andThen (.next s) f = f s := rfl

@[refl] theorem SameTx.refl (s : State) : SameTx s s := by simp [SameTx]

@[trans] theorem SameTx.trans {s t u : State} (h : SameTx s t) (k : SameTx t u) : SameTx s u := by
  obtain ⟨h1, h2, h3, h4, h5, h6, h7, h8, h9⟩ := h
  obtain ⟨k1, k2, k3, k4, k5, k6, k7, k8, k9⟩ := k
  refine ⟨k1.trans h1, k2.trans h2, k3.trans h3, k4.trans h4, k5.trans h5, k6.trans h6, k7.trans h7, k8.trans h8, ?_⟩
  rw [← h9, ← k9]

/-- The payload store, where it answers a next state: inside the buffer, one byte written, one event, the index up. -/
theorem storePayload_next {b : Byte} {s t : State} (h : storePayload b s = .next t) :
    s.md.idx.toNat < s.md.cap.toNat ∧
    t = logRx (.memWrite s.md.idx.toNat b)
      { s with rxbuf := Memory.write s.rxbuf s.md.idx.toNat b
               out := { s.out with rxWrite := some (s.md.idx, b) }
               md := { s.md with idx := s.md.idx + 1 } } := by
  unfold storePayload at h
  split at h
  · exact absurd h (by simp)
  · exact ⟨by omega, by simpa using h.symm⟩

/-- The store happens inside the buffer. -/
theorem storePayload_inside (b : Byte) (s : State) (h : s.md.idx.toNat < s.md.cap.toNat) :
    storePayload b s = .next (logRx (.memWrite s.md.idx.toNat b)
      { s with rxbuf := Memory.write s.rxbuf s.md.idx.toNat b
               out := { s.out with rxWrite := some (s.md.idx, b) }
               md := { s.md with idx := s.md.idx + 1 } }) := by
  unfold storePayload
  rw [if_neg (by omega)]

/-- `RECEIVE` with a byte leaves the encoder alone. -/
theorem recvByte_sameTx {r : Option Byte} {s t : State} (h : recvByte r s = .next t) : SameTx s t := by
  cases r with
  | none => simp only [recvByte, Host.Outcome.next.injEq] at h; subst h; simp [SameTx]
  | some b =>
    simp only [recvByte] at h
    split at h
    · split at h <;> (simp only [Host.Outcome.next.injEq] at h; subst h; simp [SameTx])
    · split at h
      · simp only [Host.Outcome.next.injEq] at h; subst h; simp [SameTx]
      · split at h <;> (simp only [Host.Outcome.next.injEq] at h; subst h; simp [SameTx])
    · obtain ⟨u, hu, ht⟩ := andThen_eq_next.1 h
      obtain ⟨-, rfl⟩ := storePayload_next hu
      split at ht <;> (simp only [Host.Outcome.next.injEq] at ht; subst ht; simp [SameTx])
    all_goals (simp only [Host.Outcome.next.injEq] at h; subst h; simp [SameTx])

/-- `READ_BYTE`'s return leaves the encoder alone. -/
theorem byteDone_sameTx {r : Option Byte} {s t : State} (h : byteDone r s = .next t) : SameTx s t := by
  simp only [byteDone] at h
  split at h
  · exact SameTx.trans (by simp [SameTx]) (recvByte_sameTx h)
  · simp only [Host.Outcome.next.injEq] at h; subst h; simp [SameTx]

/-- One bit of a byte leaves the encoder alone. -/
theorem byteBit_sameTx {r : Option Bool} {s t : State} (h : byteBit r s = .next t) : SameTx s t := by
  cases r with
  | none => exact byteDone_sameTx h
  | some v =>
    simp only [byteBit] at h
    split at h
    · simp only [Host.Outcome.next.injEq] at h; subst h; simp [SameTx]
    · exact SameTx.trans (by simp [SameTx]) (byteDone_sameTx h)

/-- One bit of a header search leaves the encoder alone. -/
theorem seekBit_sameTx {r : Option Bool} {s t : State} (h : seekBit r s = .next t) : SameTx s t := by
  simp only [seekBit] at h
  generalize (if r = some false then s.bfa.zeroRun + 1 else 0) = z at h
  split at h <;> (simp only [Host.Outcome.next.injEq] at h; subst h; simp [SameTx])

/-- `READ_BIT`'s return leaves the encoder alone. -/
theorem bitDone_sameTx {r : Option Bool} {s t : State} (h : bitDone r s = .next t) : SameTx s t := by
  have h0 : SameTx s { s with handed := { s.handed with bit := some r } } := by simp [SameTx]
  simp only [bitDone] at h
  split at h
  · simp only [Host.Outcome.next.injEq] at h; subst h; simp [SameTx]
  · exact h0.trans (seekBit_sameTx h)
  · exact h0.trans (byteBit_sameTx h)
  · split at h
    · exact h0.trans (seekBit_sameTx h)
    · exact h0.trans (byteBit_sameTx h)
  · simp only [Host.Outcome.next.injEq] at h; subst h; exact h0
  · simp only [Host.Outcome.next.injEq] at h; subst h; exact h0

/-- A measurement's return leaves the encoder alone. -/
theorem measDone_sameTx {m : Meas} {s t : State} (h : measDone m s = .next t) : SameTx s t := by
  simp only [measDone] at h
  split at h
  · simp only [Host.Outcome.next.injEq] at h; subst h; simp [SameTx]
  · simp only [Host.Outcome.next.injEq] at h; subst h; simp [SameTx]
  · refine SameTx.trans ?_ (bitDone_sameTx h)
    cases m <;> simp [SameTx, handCls]

/-- One pin call leaves the encoder alone. -/
theorem pinCall_sameTx {a : PinAnswer} {s t : State} (h : pinCall a s = .next t) : SameTx s t := by
  simp only [pinCall] at h
  split at h
  · simp only [Host.Outcome.next.injEq] at h; subst h; rfl
  · split at h
    · exact SameTx.trans (by simp [SameTx]) (measDone_sameTx h)
    · simp only [Host.Outcome.next.injEq] at h; subst h; simp [SameTx]
    · simp only [Host.Outcome.next.injEq] at h; subst h; simp [SameTx]
  · split at h
    · exact SameTx.trans (by simp [SameTx]) (measDone_sameTx h)
    · exact SameTx.trans (by simp [SameTx]) (measDone_sameTx h)
    · split at h
      · exact SameTx.trans (by simp [SameTx]) (measDone_sameTx h)
      · simp only [Host.Outcome.next.injEq] at h; subst h; simp [SameTx]

/-- A run on listed answers leaves the encoder alone. -/
theorem runCalls_sameTx (as : List PinAnswer) {s t : State} (h : runCalls as s = .next t) : SameTx s t := by
  induction as generalizing s with
  | nil => simp only [runCalls, Host.Outcome.next.injEq] at h; subst h; simp [SameTx]
  | cons a as ih =>
    simp only [runCalls] at h
    split at h
    · simp only [Host.Outcome.next.injEq] at h; subst h; simp [SameTx]
    · obtain ⟨u, hu, ht⟩ := andThen_eq_next.1 h
      exact (pinCall_sameTx hu).trans (ih ht)

/-- The receiver is free exactly when nothing is in progress. -/
theorem rxFree_iff (s : State) : rxFree s = true ↔ s.md.busy = false ∧ s.call = .none := by
  simp [rxFree]

/-- An operation in progress is not free to be replaced (R7). -/
theorem rxFree_of_call {s : State} (h : s.call ≠ .none) : rxFree s = false := by
  simp [rxFree, h]

/-- A line that starts a receive operation alone where the receiver is free. -/
theorem startAlone_free (c : RxCall) (b : State → State) {s : State} (h : rxFree s = true) :
    startAlone c b s = runCalls s.env.calls (b { s with call := c }) := by
  simp [startAlone, h]

/-- A line that starts a receive operation while one is in progress has no effect. -/
theorem startAlone_busy (c : RxCall) (b : State → State) {s : State} (h : rxFree s = false) :
    startAlone c b s = .next s := by
  simp [startAlone, h]

/-- A run ends at once where nothing is in progress. -/
theorem runCalls_done (as : List PinAnswer) (s : State) (h : s.call = .none) :
    runCalls as s = .next { s with env := { s.env with calls := as } } := by
  cases as <;> simp [runCalls, h]

/-- A run with something in progress makes one pin call after the other. -/
theorem runCalls_cons (a : PinAnswer) (as : List PinAnswer) (s : State) (h : s.call ≠ .none) :
    runCalls (a :: as) s = andThen (pinCall a s) (runCalls as) := by
  simp [runCalls, h]

/-! ### One bit read on its answers -/

theorem lowEvents_succ (t w : Nat) : lowEvents t (w + 1) = (t, .pinIsLow (.ok true)) :: lowEvents (t + 1) w := by
  simp [lowEvents, List.range_succ_eq_map, Nat.add_comm, Nat.add_left_comm]

theorem highEvents_succ (t m : Nat) :
    highEvents t (m + 1) = (t, .pinIsHigh (.ok true)) :: (t, .delay 10) :: highEvents (t + 10) m := by
  simp [highEvents, List.range_succ_eq_map, List.flatMap_map, Nat.mul_add, Nat.add_comm 10, Nat.add_assoc]

/-- A low read of phase 1: only the time passes (R161). -/
theorem pinCall_low (s : State) (hp : s.pwc.phase = .waitHigh) :
    pinCall (.ok true) s = .next { s with
      rxLog := { now := s.rxLog.now + 1, trace := s.rxLog.trace ++ [(s.rxLog.now, .pinIsLow (.ok true))] } } := by
  simp only [pinCall, hp]; rfl

/-- The read that ends phase 1 (R160). -/
theorem pinCall_rise (s : State) (hp : s.pwc.phase = .waitHigh) :
    pinCall (.ok false) s = .next { s with
      pwc := { s.pwc with phase := .countHigh, dur := 0, due := true }
      rxLog := { s.rxLog with trace := s.rxLog.trace ++ [(s.rxLog.now, .pinIsLow (.ok false))] } } := by
  simp only [pinCall, hp]; rfl

/-- A high read of phase 2: ten more on the duration, and the cap ends the measurement (R160, R164). -/
theorem pinCall_high (s : State) (hp : s.pwc.phase = .countHigh) (hd : s.pwc.dur.toNat < 2000) :
    let t : State := { s with
      pwc := { s.pwc with dur := s.pwc.dur + 10, due := true }
      rxLog := { now := s.rxLog.now + 10
                 trace := s.rxLog.trace ++ [(s.rxLog.now, .pinIsHigh (.ok true)), (s.rxLog.now, .delay 10)] } }
    pinCall (.ok true) s = if s.pwc.dur.toNat < 1990 then .next t else measDone (.ok (s.pwc.dur + 10)) t := by
  have hdur : (s.pwc.dur + 10).toNat = s.pwc.dur.toNat + 10 := by
    simp [BitVec.toNat_add]; omega
  simp only [pinCall, hp, logRx, passRx, List.append_assoc, List.cons_append, List.nil_append]
  by_cases h : s.pwc.dur.toNat < 1990
  · rw [if_pos h, if_neg (by show ¬ 2000 ≤ (s.pwc.dur + 10).toNat; omega)]; rfl
  · rw [if_neg h, if_pos (by show 2000 ≤ (s.pwc.dur + 10).toNat; omega)]; rfl

/-- Low reads of phase 1 only pass the time (R161). -/
theorem runCalls_low (w : Nat) (as : List PinAnswer) (s : State) (hc : s.call ≠ .none)
    (hp : s.pwc.phase = .waitHigh) :
    runCalls (List.replicate w (.ok true) ++ as) s = runCalls as { s with
      rxLog := { now := s.rxLog.now + w, trace := s.rxLog.trace ++ lowEvents s.rxLog.now w } } := by
  induction w generalizing s with
  | zero => simp [lowEvents]
  | succ w ih =>
    rw [List.replicate_succ, List.cons_append, runCalls_cons _ _ _ hc, pinCall_low s hp, andThen_next,
      ih _ (by exact hc) (by exact hp)]
    simp [lowEvents_succ, Nat.add_assoc, Nat.add_comm 1]

/-- High reads of phase 2, short of the cap, count and pass the time (R160, R162). -/
theorem runCalls_high (m : Nat) (as : List PinAnswer) (s : State) (hc : s.call ≠ .none)
    (hp : s.pwc.phase = .countHigh) (hd : s.pwc.due = true) (hm : s.pwc.dur.toNat + 10 * m < 2000) :
    runCalls (List.replicate m (.ok true) ++ as) s = runCalls as { s with
      pwc := { s.pwc with dur := s.pwc.dur + BitVec.ofNat 11 (10 * m) }
      rxLog := { now := s.rxLog.now + 10 * m, trace := s.rxLog.trace ++ highEvents s.rxLog.now m } } := by
  induction m generalizing s with
  | zero => simp [highEvents]
  | succ m ih =>
    have hdur : (s.pwc.dur + 10).toNat = s.pwc.dur.toNat + 10 := by
      simp [BitVec.toNat_add]; omega
    rw [List.replicate_succ, List.cons_append, runCalls_cons _ _ _ hc, pinCall_high s hp (by omega),
      if_pos (by omega), andThen_next, ih _ (by exact hc) (by exact hp) rfl (by simp only [hdur]; omega)]
    simp [highEvents_succ, hd, Nat.mul_add, Nat.add_assoc, Nat.add_comm 10, BitVec.ofNat_add, BitVec.add_assoc,
      BitVec.add_comm 10#11]

/-- One bit read on the answers of its pin calls is one hand-over of what it measured (R160, R169, R170): beside the
classifier's registers and the receive trace nothing has changed before, and the time is that of its reads. -/
theorem runCalls_read (r : BitRead) (as : List PinAnswer) (s : State) (hc : s.call ≠ .none)
    (hp : s.pwc.phase = .waitHigh) (hr : r.possible = true) :
    ∃ p l, runCalls (r.answers ++ as) s = andThen (measDone r.meas { s with pwc := p, rxLog := l }) (runCalls as) ∧
      l.now = s.rxLog.now + r.time ∧ p.poll = s.pwc.poll ∧ ∀ w d, r = .pulse w d → p.dur = BitVec.ofNat 11 d := by
  cases r with
  | errLow w e =>
    rw [BitRead.answers, List.append_assoc, runCalls_low _ _ _ hc hp, List.singleton_append,
      runCalls_cons _ _ _ (by exact hc)]
    simp only [pinCall, hp]
    exact ⟨_, _, rfl, rfl, rfl, fun _ _ h => by cases h⟩
  | errHigh w m e =>
    simp only [BitRead.possible, decide_eq_true_eq] at hr
    rw [BitRead.answers, List.append_assoc, runCalls_low _ _ _ hc hp, List.cons_append, List.append_assoc,
      runCalls_cons _ _ _ (by exact hc), pinCall_rise _ (by exact hp), andThen_next,
      runCalls_high _ _ _ (by exact hc) rfl rfl (by simp; omega), List.singleton_append,
      runCalls_cons _ _ _ (by exact hc)]
    simp only [pinCall]
    exact ⟨_, _, rfl, by simp [BitRead.time, Nat.add_assoc], rfl, fun _ _ h => by cases h⟩
  | pulse w d =>
    simp only [BitRead.possible, measurable, Bool.and_eq_true, beq_iff_eq, decide_eq_true_eq, pollStep, pulseCap] at hr
    obtain ⟨m, rfl⟩ : ∃ m, d = 10 * m := ⟨d / 10, by omega⟩
    rw [BitRead.answers, callsFor, List.append_assoc, runCalls_low _ _ _ hc hp, List.cons_append, List.append_assoc,
      runCalls_cons _ _ _ (by exact hc), pinCall_rise _ (by exact hp), andThen_next,
      show 10 * m / pollStep = m by simp [pollStep]]
    by_cases hcap : 10 * m < pulseCap
    · rw [if_pos hcap, runCalls_high _ _ _ (by exact hc) rfl rfl (by simpa using hcap), List.singleton_append,
        runCalls_cons _ _ _ (by exact hc)]
      simp only [pinCall, BitRead.meas, logRx]
      rw [show (0 : BitVec 11) + BitVec.ofNat 11 (10 * m) = BitVec.ofNat 11 (10 * m) from BitVec.zero_add _]
      exact ⟨_, _, rfl, Nat.add_assoc .., rfl, fun _ _ h => by cases h; rfl⟩
    · obtain rfl : m = 200 := by simp only [pulseCap] at hcap; omega
      rw [if_neg hcap, show List.replicate 200 (PinAnswer.ok true) = List.replicate 199 (.ok true) ++ [.ok true] by
          rw [show 200 = 199 + 1 from rfl, List.replicate_succ'],
        List.append_assoc, runCalls_high _ _ _ (by exact hc) rfl rfl (by simp), List.append_assoc,
        List.singleton_append, runCalls_cons _ _ _ (by exact hc), pinCall_high _ rfl (by simp), if_neg (by simp)]
      simp only [BitRead.meas,
        show (0 : BitVec 11) + BitVec.ofNat 11 (10 * 199) + 10 = BitVec.ofNat 11 (10 * 200) by decide]
      exact ⟨_, _, rfl, by simp only [BitRead.time]; omega, rfl, fun _ _ h => by cases h; rfl⟩
end Sys2Proof.Machine
end

