-- ==== Sys2Proof/Laws/Tick.lean ====
section
/-! SUPPORT. What the two halves of a tick can do: the encoder's half leaves the receiver alone, the receiver's half leaves
the encoder alone, and `line(t)` follows the trace event by event. -/

namespace Sys2Proof.Machine

/-! ### The encoder's half -/

/-- The start of a high interval leaves the receiver alone. -/
theorem startBit_sameRx (s : State) : SameRx s (startBit s) := by
  have h := drive_sameRx .hi s
  unfold startBit
  rcases hd : drive .hi s with ⟨s₁, _ | e⟩ <;> rw [hd] at h <;> exact h.trans (by simp [SameRx])

/-- The start of a gap leaves the receiver alone. -/
theorem startGap_sameRx (s : State) : SameRx s (startGap s) := by
  have h := drive_sameRx .lo s
  unfold startGap
  rcases hd : drive .lo s with ⟨s₁, _ | e⟩ <;> rw [hd] at h <;> exact h.trans (by simp [SameRx])

/-- The end of a gap leaves the receiver alone. -/
theorem bitComplete_sameRx (s : State) : SameRx s (bitComplete s) := by
  unfold bitComplete
  split
  · exact SameRx.trans (by simp [SameRx]) (startBit_sameRx _)
  · split
    · exact (loadByte_sameRx _ s).trans (startBit_sameRx _)
    · simp [SameRx]

/-- The encoder's half of a tick leaves the receiver alone (R248). -/
theorem txTick_sameRx (h : HostIn) (s : State) : SameRx s (txTick h s) := by
  unfold txTick
  split
  · split
    · rfl
    · dsimp only
      split
      · exact SameRx.trans (by simp [SameRx]) (startGap_sameRx _)
      · simp [SameRx]
    · dsimp only
      split
      · exact SameRx.trans (by simp [SameRx]) (bitComplete_sameRx _)
      · simp [SameRx]
  · split
    · exact (SameRx.trans (by simp [SameRx]) (loadByte_sameRx 0 (acceptSend h.txLenIn s))).trans (startBit_sameRx _)
    · rfl

/-! ### The receiver's half -/

/-- A phase 1 read leaves the encoder alone. -/
theorem phase1Read_sameTx {p : PinSample} {s t : State} (h : phase1Read p s = .next t) : SameTx s t := by
  simp only [phase1Read] at h
  split at h
  · exact SameTx.trans (by simp [SameTx]) (measDone_sameTx h)
  · split at h <;> (simp only [Host.Outcome.next.injEq] at h; subst h; simp [SameTx])

/-- A phase 2 read leaves the encoder alone. -/
theorem phase2Read_sameTx {p : PinSample} {s t : State} (h : phase2Read p s = .next t) : SameTx s t := by
  simp only [phase2Read] at h
  split at h
  · exact SameTx.trans (by simp [SameTx]) (measDone_sameTx h)
  · split at h
    · exact SameTx.trans (by simp [SameTx]) (measDone_sameTx h)
    · simp only [Host.Outcome.next.injEq] at h; subst h; simp [SameTx]

/-- The first read of the next measurement leaves the encoder alone. -/
theorem readAgain_sameTx {p : PinSample} {s t : State} (h : readAgain p s = .next t) : SameTx s t := by
  simp only [readAgain] at h
  split at h
  · exact phase1Read_sameTx h
  · simp only [Host.Outcome.next.injEq] at h; subst h; rfl

/-- A tick of phase 2 leaves the encoder alone. -/
theorem countTick_sameTx {p : PinSample} {s t : State} (h : countTick p s = .next t) : SameTx s t := by
  simp only [countTick] at h
  split at h
  · obtain ⟨u, hu, ht⟩ := andThen_eq_next.1 h
    exact (phase2Read_sameTx hu).trans (readAgain_sameTx ht)
  · split at h
    · simp only [Host.Outcome.next.injEq] at h; subst h; simp [SameTx]
    · split at h <;> obtain ⟨u, hu, ht⟩ := andThen_eq_next.1 h
      · exact (SameTx.trans (by simp [SameTx]) (measDone_sameTx hu)).trans (readAgain_sameTx ht)
      · exact (SameTx.trans (by simp [SameTx]) (phase2Read_sameTx hu)).trans (readAgain_sameTx ht)

/-- The receiver's half of a tick leaves the encoder alone (R248). -/
theorem rxTick_sameTx {h : HostIn} {p : PinSample} {s t : State} (ht : rxTick h p s = .next t) : SameTx s t := by
  simp only [rxTick] at ht
  split at ht
  · exact SameTx.trans (by simp [SameTx]) (phase1Read_sameTx ht)
  · split at ht
    · simp only [Host.Outcome.next.injEq] at ht; subst ht; rfl
    · split at ht
      · simp only [Host.Outcome.next.injEq] at ht; subst ht; rfl
      · exact phase1Read_sameTx ht
      · exact countTick_sameTx ht

/-- An idle receiver without a start does nothing in a tick (R221). -/
theorem rxTick_idle (h : HostIn) (p : PinSample) (s : State) (hs : h.rxStart = false) (hc : s.call = .none) :
    rxTick h p s = .next s := by
  simp [rxTick, hs, hc]

/-! ### The tick -/

/-- A tick with `rst = 1` (R280). -/
theorem tickWith_reset (h : HostIn) (pin : State → PinSample) (s : State) (hr : h.rst = true) :
    tickWith h pin s = .next (passTick (resetRegs (hostStore h s))) := by
  simp [tickWith, hr]

/-- A tick without reset answers a next state exactly through the receiver's half, after the encoder's. -/
theorem tickWith_eq_next {h : HostIn} {pin : State → PinSample} {s t : State} (hr : h.rst = false) :
    tickWith h pin s = .next t ↔
      ∃ u, rxTick h (pin (txTick h (hostStore h (clearOut s)))) (txTick h (hostStore h (clearOut s))) = .next u ∧
        passTick u = t := by
  simp [tickWith, hr, andThen_eq_next]

/-- A tick beside an idle receiver always answers a next state: the encoder's half, and a tick of time. -/
theorem tickWith_rxIdle (h : HostIn) (pin : State → PinSample) (s : State) (hr : h.rst = false)
    (hs : h.rxStart = false) (hc : s.call = .none) :
    tickWith h pin s = .next (passTick (txTick h (hostStore h (clearOut s)))) := by
  have hstore : (hostStore h (clearOut s)).call = s.call := by simp
  have hcall := (txTick_sameRx h (hostStore h (clearOut s))).2.2.2.1
  simp [tickWith, hr, rxTick_idle _ _ _ hs (hcall.trans (hstore.trans hc))]

/-! ### `line(t)` -/

@[simp] theorem lineStep_reset (t : Nat) (a : Level × Nat) (u : Nat) :
    lineStep t a (u, .reset) = (if u ≤ t then .lo else a.1, a.2) := rfl
@[simp] theorem lineStep_delay (t : Nat) (a : Level × Nat) (u n : Nat) : lineStep t a (u, .delay n) = a := rfl
@[simp] theorem lineStep_memRead (t : Nat) (a : Level × Nat) (u j : Nat) (v : Byte) :
    lineStep t a (u, .memRead j v) = a := rfl

/-- A drive call that answered `Ok`. -/
@[simp] theorem lineStep_drive_ok (t : Nat) (a : Level × Nat) (u : Nat) (l : Level) :
    lineStep t a (u, driveEvent l none) = (if u ≤ t then l else a.1, a.2 + 1) := by
  cases l <;> rfl

/-- A drive call that answered `Err(e)`. -/
@[simp] theorem lineStep_drive_err (t : Nat) (a : Level × Nat) (u : Nat) (l : Level) (e : DrvErr) :
    lineStep t a (u, driveEvent l (some e)) = (if u ≤ t then Config.lineAfterErr a.2 else a.1, a.2 + 1) := by
  cases l <;> rfl

/-- The number that `lineStep` counts goes up at a drive call. -/
theorem lineStep_snd (t : Nat) (a : Level × Nat) (p : Nat × TxEvent) :
    (lineStep t a p).2 = a.2 + if p.2.isDrive then 1 else 0 := by
  obtain ⟨u, (_ | _) | (_ | _) | _ | _ | _⟩ := p <;> rfl

/-- The number that `lineStep` counts is that of the next drive call. -/
theorem lineStep_foldl_snd (t : Nat) (trace : List (Nat × TxEvent)) (a : Level × Nat) :
    (trace.foldl (lineStep t) a).2 = a.2 + trace.countP fun p => p.2.isDrive := by
  induction trace generalizing a with
  | nil => rfl
  | cons p trace ih => rw [List.foldl_cons, ih, lineStep_snd, List.countP_cons]; omega

/-- `line(t)` of a longer trace is that of the trace before, changed by its last event. -/
theorem lineAt_append_one (n : Nat) (trace : List (Nat × TxEvent)) (p : Nat × TxEvent) (t : Nat) :
    lineAt n (trace ++ [p]) t =
      (lineStep t (lineAt n trace t, n + trace.countP fun q => q.2.isDrive) p).1 := by
  unfold lineAt
  rw [List.foldl_append, List.foldl_cons, List.foldl_nil, ← lineStep_foldl_snd t trace (.lo, n)]

/-- `line(t)` does not depend on events stamped after `t`, nor on which later time one asks at. -/
theorem lineAt_later (n : Nat) (trace : List (Nat × TxEvent)) (t u : Nat) (h : ∀ p ∈ trace, p.1 ≤ t) (htu : t ≤ u) :
    lineAt n trace u = lineAt n trace t := by
  unfold lineAt
  congr 1
  refine List.foldl_ext _ _ _ fun a p hp => ?_
  have h1 := h p hp
  have h2 : p.1 ≤ u := le_trans h1 htu
  simp [lineStep, h1, h2]

end Sys2Proof.Machine
end

