-- ==== Sys2Proof/Tests/Slice0.lean ====
section
/-! SUPPORT. Small tests, their expected values from the spec (the vectors T1 to T8, 2.1 to 2.10 and V1 to V8 of
95_test_vectors.md, or the rule named), and one witness for the hypotheses of each statement. -/

namespace Sys2Proof.Tests.Slice0

open Sys2Proof Sys2Proof.Machine

/-! ### Helpers -/

/-- What holds of the next state of an outcome. -/
def after (o : Result) (p : State → Bool) : Bool :=
  match o with
  | .next t => p t
  | _ => false

/-- Whether the outcome is a refusal for this reason. -/
def refusedAs (o : Result) (r : Refusal) : Bool :=
  match o with
  | .refused q => q == r
  | _ => false

/-- The machine after reset on a platform whose output pin cannot fail (R49). -/
def tied : State := { State.reset with env := { State.reset.env with drvTied := true } }

/-- The machine after reset with listed answers of its drive calls. -/
def drives (as : List (Option DrvErr)) : State := { State.reset with env := { State.reset.env with drv := as } }

/-- The machine after reset with listed answers of its pin calls. -/
def pins (as : List PinAnswer) : State := { State.reset with env := { State.reset.env with calls := as } }

/-- A `RECEIVE` in the given state of the decoder, waiting for a pulse. -/
def recvAt (m : MdState) (len : BitVec 8) (run : BitVec 5) (shift : Byte) (nbits : BitVec 4) : State :=
  { State.reset with
    md := { busy := true, state := m, len := len, idx := 0, cap := 16, result := .none }
    bfa := { zeroRun := run, shift := shift, nbits := nbits }
    pwc := { State.reset.pwc with phase := .waitHigh }
    call := .receive
    env := { State.reset.env with drvTied := true, pinTied := true, host := [quiet], wave := [⟨.lo, none, 5⟩] } }

/-- Both sides in the last tick of an operation: the last gap of a `SEND` of nothing, and the last bit of a sync byte
that is not 0x55. -/
def ending : State :=
  { State.reset with
    tx := { busy := true, len := 0, k := 4, i := 7, cur := 0, phase := .gap, timer := 1, result := .none }
    md := { busy := true, state := .readingSync, len := 0, idx := 0, cap := 16, result := .none }
    bfa := { zeroRun := 24, shift := 0x54#8, nbits := 7 }
    pwc := { phase := .countHigh, dur := 790, poll := 0, due := false }
    call := .receive
    env := { State.reset.env with drvTied := true, pinTied := true, host := [quiet], wave := [⟨.lo, none, 5⟩] } }

/-! ### Well-formedness: an ill-formed term for each check -/

theorem test_wf_frame : (Instr.frame (List.replicate 256 0x00#8)).wellFormed = false := by decide +kernel
theorem test_wf_send : (Instr.send (List.replicate 256 0x00#8)).wellFormed = false := by decide +kernel
theorem test_wf_noise : (Instr.bandNoise 100).wellFormed = false := by decide
theorem test_wf_dead : (Instr.bandDead 99).wellFormed = false ∧ (Instr.bandDead 180).wellFormed = false := by decide
theorem test_wf_one : (Instr.bandOne 179).wellFormed = false ∧ (Instr.bandOne 501).wellFormed = false := by decide
theorem test_wf_zero : (Instr.bandZero 500).wellFormed = false ∧ (Instr.bandZero 901).wellFormed = false := by decide
theorem test_wf_over : (Instr.bandOver 900).wellFormed = false := by decide

/-! ### Decoding: the table's patterns written out, first bit on the wire first -/

theorem test_dec_symbols :
    decodeLine ⟨.sym1, [true]⟩ = .ok .sym1 ∧ decodeLine ⟨.sym0, [false]⟩ = .ok .sym0 ∧
    decodeLine ⟨.sym1, [false]⟩ = .error .fixedBits ∧ decodeLine ⟨.sym0, []⟩ = .error .patternLength := by decide

/-- 0x2A and 0xDE in wire order (2.2), 0x01 (T1). -/
theorem test_dec_bytes :
    decodeLine ⟨.byte, [false, true, false, true, false, true, false, false]⟩ = .ok (.byte 0x2A#8) ∧
    decodeLine ⟨.length, [true, false, false, false, false, false, false, false]⟩ = .ok (.length 0x01#8) ∧
    decodeLine ⟨.payloadByte, [false, true, true, true, true, false, true, true]⟩ = .ok (.payloadByte 0xDE#8) ∧
    decodeLine ⟨.sendByte, [false, false, false, false, false, false, false, true]⟩ = .ok (.sendByte 0x80#8) := by decide

/-- The sync byte is 1, 0, 1, 0, 1, 0, 1, 0 on the wire (R69). -/
theorem test_dec_sync :
    decodeLine ⟨.sync, [true, false, true, false, true, false, true, false]⟩ = .ok .sync ∧
    decodeLine ⟨.sync, [false, true, false, true, false, true, false, true]⟩ = .error .fixedBits := by decide

/-- 24 zeros (R92). -/
theorem test_dec_header :
    decodeLine ⟨.header, [false, false, false, false, false, false, false, false, false, false, false, false,
      false, false, false, false, false, false, false, false, false, false, false, false]⟩ = .ok .header ∧
    decodeLine ⟨.seekHeader, [false, false, false, false, false, false, false, false, false, false, false, false,
      false, false, false, false, false, false, false, false, false, false, false, false]⟩ = .ok .seekHeader ∧
    decodeLine ⟨.header, [true]⟩ = .error .patternLength := by decide

/-- The 48 bits of the frame of [0x2A], from T1. -/
def frame2A : List Bool :=
  [false, false, false, false, false, false, false, false, false, false, false, false,
   false, false, false, false, false, false, false, false, false, false, false, false] ++
  [true, false, true, false, true, false, true, false] ++
  [true, false, false, false, false, false, false, false] ++
  [false, true, false, true, false, true, false, false]

theorem test_dec_frame :
    decodeLine ⟨.frame, frame2A⟩ = .ok (.frame [0x2A#8]) ∧ decodeLine ⟨.send, frame2A⟩ = .ok (.send [0x2A#8]) ∧
    decodeLine ⟨.frame, frame2A ++ [true]⟩ = .error .patternLength ∧
    decodeLine ⟨.frame, frame2A.take 40⟩ = .error .lengthMismatch := by decide

/-- Durations in 11 bits, bit 0 first: 99 = 1100011b, 100 = 1100100b, 180 = 10110100b, 501 = 111110101b,
901 = 1110000101b. -/
theorem test_dec_bands :
    decodeLine ⟨.bandNoise, [true, true, false, false, false, true, true, false, false, false, false]⟩
      = .ok (.bandNoise 99) ∧
    decodeLine ⟨.bandDead, [false, false, true, false, false, true, true, false, false, false, false]⟩
      = .ok (.bandDead 100) ∧
    decodeLine ⟨.bandOne, [false, false, true, false, true, true, false, true, false, false, false]⟩
      = .ok (.bandOne 180) ∧
    decodeLine ⟨.bandZero, [true, false, true, false, true, true, true, true, true, false, false]⟩
      = .ok (.bandZero 501) ∧
    decodeLine ⟨.bandOver, [true, false, true, false, false, false, false, true, true, true, false]⟩
      = .ok (.bandOver 901) ∧
    decodeLine ⟨.bandNoise, [false, false, true, false, false, true, true, false, false, false, false]⟩
      = .error .outOfBand := by decide

/-- A duration of more than 11 bits: 2048 (R167, log 1). -/
theorem test_dec_classify :
    decodeLine ⟨.classify, [false, false, false, false, true, false, false, true, true, false, false]⟩
      = .ok (.classify 400) ∧
    decodeLine ⟨.classify, [false, false, false, false, false, false, false, false, false, false, false, true]⟩
      = .ok (.classify 2048) := by decide

theorem test_dec_operations :
    decodeLine ⟨.sendBit, [true]⟩ = .ok (.sendBit true) ∧ decodeLine ⟨.measurePulse, []⟩ = .ok .measurePulse ∧
    decodeLine ⟨.readBit, []⟩ = .ok .readBit ∧ decodeLine ⟨.readByte, []⟩ = .ok .readByte ∧
    decodeLine ⟨.receive, [true, true, true, true, true, true, true, true, true]⟩ = .ok (.receive 511) ∧
    decodeLine ⟨.readBit, [true]⟩ = .error .patternLength := by decide

/-- Words of the table without a strobe (log 2). -/
theorem test_dec_words :
    decodeTableWord 24 0 = some .header ∧ decodeTableWord 8 0x55 = some .sync ∧ decodeTableWord 1 1 = some .sym1 ∧
    decodeTableWord 8 0 = some .sym0 ∧ decodeTableWord 8 0x2A = some (.byte 0x2A#8) ∧
    decodeTableWord 11 800 = some (.bandZero 800) ∧ decodeTableWord 40 0x55000000 = some (.frame []) := by decide

/-- A word placed for the next step runs as the first instruction after reset. -/
theorem test_fetch_word :
    after (step (State.reset.withFetchWord 8 0x55)) (fun t => t.env.wave.length == 16 && t.program.isEmpty) = true := by
  decide

/-! ### The wire format -/

/-- R91: the two symbols. -/
theorem test_sym1 : after (exec .sym1 State.reset) (fun t => t.env.wave == [⟨.hi, none, 400⟩, ⟨.lo, none, 600⟩]) = true := by
  decide
theorem test_sym0 : after (exec .sym0 State.reset) (fun t => t.env.wave == [⟨.hi, none, 800⟩, ⟨.lo, none, 600⟩]) = true := by
  decide

/-- The high times of a waveform. -/
def highs (t : State) : List Nat := (t.env.wave.filter fun g => g.level == .hi).map (·.ticks)

/-- 2.2: 0x2A. -/
theorem test_byte : after (exec (.byte 0x2A#8) State.reset)
    (fun t => highs t == [800, 400, 800, 400, 800, 400, 800, 800]) = true := by decide
theorem test_header : after (exec .header State.reset) (fun t => highs t == List.replicate 24 800) = true := by decide
/-- T1: the sync byte. -/
theorem test_sync : after (exec .sync State.reset)
    (fun t => highs t == [400, 800, 400, 800, 400, 800, 400, 800]) = true := by decide
/-- T1: the length 0x01. -/
theorem test_length : after (exec (.length 0x01#8) State.reset)
    (fun t => highs t == [400, 800, 800, 800, 800, 800, 800, 800]) = true := by decide
/-- 2.2: 0xDE. -/
theorem test_payloadByte : after (exec (.payloadByte 0xDE#8) State.reset)
    (fun t => highs t == [800, 400, 400, 400, 400, 800, 400, 400]) = true := by decide
/-- T1: the high times of the frame of [0x2A]; the wave follows what is on the line already. -/
theorem test_frame : after (exec (.frame [0x2A#8]) State.reset) (fun t => highs t == List.replicate 24 800 ++
    [400, 800, 400, 800, 400, 800, 400, 800] ++ [400, 800, 800, 800, 800, 800, 800, 800] ++
    [800, 400, 800, 400, 800, 400, 800, 800]) = true := by decide
/-- U3: 256 bytes cannot be expressed. -/
theorem test_frame_long :
    refusedAs (exec (.frame (List.replicate 256 0x00#8)) State.reset) .payloadTooLong = true := by decide +kernel
/-- 2.3 and R138: durations of frames. -/
theorem test_frame_times : frameTime [] = 54400 ∧ frameTime [0x2A#8] = 64000 ∧ frameTime [0x01#8, 0x80#8] = 75600 ∧
    frameTime [0xDE#8, 0xAD#8, 0xBE#8, 0xEF#8] = 89200 := by decide

/-! ### Durations -/

/-- T3 and 2.6: the boundary values of CLASSIFY. -/
theorem test_classify : classify 99 = .invalid ∧ classify 100 = .invalid ∧ classify 179 = .invalid ∧ classify 180 = .one ∧
    classify 500 = .one ∧ classify 501 = .zero ∧ classify 900 = .zero ∧ classify 901 = .invalid ∧
    classify 2000 = .invalid ∧ classify 100000 = .invalid := by decide
theorem test_classify_exec :
    after (exec (.classify 800) State.reset) (fun t => t.handed.cls == some .zero && t.call == .none) = true := by decide

/-- T4: a pulse of 50 in a header search sets the run to 0. -/
theorem test_bandNoise : after (exec (.bandNoise 50) (recvAt .seekingHeader 0 12 0 0))
    (fun t => t.bfa.zeroRun == 0 && t.md.state == .seekingHeader && t.handed.meas == some (.ok 50)) = true := by decide +kernel
/-- T4: so does one of 170. -/
theorem test_bandDead : after (exec (.bandDead 170) (recvAt .seekingHeader 0 23 0 0))
    (fun t => t.bfa.zeroRun == 0 && t.md.state == .seekingHeader) = true := by decide +kernel
/-- V2: read 31 of the sync byte sets bit 6 of `bfa.shift`. -/
theorem test_bandOne : after (exec (.bandOne 400) (recvAt .readingSync 0 24 0x15#8 6))
    (fun t => t.bfa.shift == 0x55#8 && t.bfa.nbits == 7 && t.md.state == .readingSync) = true := by decide +kernel
/-- V2: read 32 completes 0x55. -/
theorem test_bandZero : after (exec (.bandZero 800) (recvAt .readingSync 0 24 0x55#8 7))
    (fun t => t.md.state == .readingLength && t.bfa.nbits == 0 && t.handed.byte == some (some 0x55#8)) = true := by decide +kernel
/-- R213: the 24th zero bit ends the search. -/
theorem test_bandZero_24 : after (exec (.bandZero 900) (recvAt .seekingHeader 0 23 0 0))
    (fun t => t.md.state == .readingSync && t.bfa.zeroRun == 24 && t.pwc.phase == .waitHigh) = true := by decide +kernel
/-- 2.10 j: an invalid pulse in the length byte ends the RECEIVE with None. -/
theorem test_bandOver : after (exec (.bandOver 910) (recvAt .readingLength 0 24 0x01#8 3))
    (fun t => t.md.result == .noFrame && t.md.state == .rxIdle && t.out.rxDone && t.pwc.phase == .idle) = true := by decide +kernel

/-! ### Transmit operations -/

/-- 2.1: SEND_BIT(1) with two answers `Ok`. -/
theorem test_sendBit : after (exec (.sendBit true) tied) (fun t => t.line == .lo && t.txLog.now == 1000 &&
    t.txLog.trace == [(0, .setHigh none), (0, .delay 400), (400, .setLow none), (400, .delay 600)]) = true := by decide
/-- 2.1: SEND_BIT(0) whose SetLow errs. -/
theorem test_sendBit_err (e : DrvErr) : ∃ t, exec (.sendBit false) (drives [none, some e]) = .next t ∧
    t.txLog.now = 800 ∧ t.txLog.trace = [(0, .setHigh none), (0, .delay 800), (800, .setLow (some e))] ∧
    t.handed.send = some (some e) := ⟨_, rfl, rfl, rfl, rfl⟩
/-- 2.2: SEND_BYTE(0x2A) takes 10000 us. -/
theorem test_sendByte : after (exec (.sendByte 0x2A#8) tied)
    (fun t => t.txLog.now == 10000 && t.line == .lo && t.tx.i == 7) = true := by decide
/-- 2.2: an error on the SetHigh of bit 3, 3800 us after the start. -/
theorem test_sendByte_err (e : DrvErr) : ∃ t,
    exec (.sendByte 0x2A#8) (drives [none, none, none, none, none, none, some e]) = .next t ∧
    t.txLog.now = 3800 ∧ t.tx.i = 3 ∧ t.handed.send = some (some e) := ⟨_, rfl, rfl, rfl, rfl⟩
/-- R142 e: an error on the first SetHigh; the length and the payload stand. -/
theorem test_send_err (e : DrvErr) : ∃ t, exec (.send [0x2A#8]) (drives [some e]) = .next t ∧ t.tx.result = .err e ∧
    t.tx.busy = false ∧ t.tx.len = 1 ∧ t.out.txDone = true ∧ t.txLog.now = 0 ∧ t.txbuf = [(0, 0x2A#8)] :=
  ⟨_, rfl, rfl, rfl, rfl, rfl, rfl, rfl⟩
/-- 2.3: SEND of the empty payload ends after 54400 us with `Ok`. -/
theorem test_send_empty : after (exec (.send []) tied)
    (fun t => t.tx.result == .ok && t.txLog.now == 54400 && t.tx.k == 4 && t.txLog.trace.length == 160) = true := by
  decide +kernel

/-! ### Receive operations -/

/-- 2.4: answers low, low, high, then 2 high, then low: `Ok(20)`. -/
theorem test_measurePulse : after (exec .measurePulse
    (pins [.ok true, .ok true, .ok false, .ok true, .ok true, .ok false]))
    (fun t => t.handed.meas == some (.ok 20) && t.call == .none && t.rxLog.trace.length == 8) = true := by decide
/-- 2.4: the two reads disagree: `Ok(0)` (R163). -/
theorem test_measurePulse_zero : after (exec .measurePulse (pins [.ok false, .ok false, .ok true]))
    (fun t => t.handed.meas == some (.ok 0) && t.env.calls == [.ok true]) = true := by decide
/-- 2.7: `Err(e)` gives `None`. -/
theorem test_readBit_err (e : PinErr) : ∃ t, exec .readBit (pins [.err e]) = .next t ∧ t.handed.bit = some none ∧
    t.handed.meas = some (.err e) ∧ t.call = .none := ⟨_, rfl, rfl, rfl, rfl⟩
/-- 2.7: 190 is `ONE` (2.6), `Some(1)`. -/
theorem test_readBit : after (exec .readBit (pins (callsFor 190)))
    (fun t => t.handed.bit == some (some true) && t.handed.cls == some .one) = true := by decide
/-- 2.8: the first invalid measurement ends READ_BYTE. -/
theorem test_readByte_err : after (exec .readByte (pins (callsFor 190 ++ callsFor 0 ++ [.ok true])))
    (fun t => t.handed.byte == some none && t.bfa.nbits == 1 && t.env.calls == [.ok true]) = true := by decide
/-- R190: the eighth bit completes the byte: here 0x55 with bit 7 read as 1. -/
theorem test_readByte : after (exec (.bandOne 180) { recvAt .rxIdle 0 0 0x55#8 7 with
      call := .readByte, md := State.reset.md })
    (fun t => t.handed.byte == some (some 0xD5#8) && t.call == .none && t.bfa.nbits == 8) = true := by decide +kernel
/-- R198: a read error sets the run to 0 and seeking goes on. -/
theorem test_seekHeader : after (exec .seekHeader (pins (callsFor 510 ++ [.err default])))
    (fun t => t.call == .seekHeader && t.bfa.zeroRun == 0 && t.pwc.phase == .waitHigh) = true := by decide
/-- R197: a zero bit adds one. -/
theorem test_seekHeader_zero : after (exec .seekHeader (pins (callsFor 510)))
    (fun t => t.call == .seekHeader && t.bfa.zeroRun == 1) = true := by decide
/-- R211: acceptance. -/
theorem test_receive : after (exec (.receive 16) State.reset)
    (fun t => t.md.busy && t.md.state == .seekingHeader && t.md.cap == 16 && t.pwc.phase == .waitHigh) = true := by decide
/-- R216: a length above the capacity; `md.len` is loaded, nothing is written. -/
theorem test_receive_oversize : after (exec (.bandZero 800) (recvAt .readingLength 0 24 0x11#8 7))
    (fun t => t.md.result == .noFrame && t.md.len == 0x11#8 && t.rxbuf == []) = true := by decide +kernel

/-! ### Ticks -/

/-- V1, tick 0: the registers after the acceptance tick of a SEND. -/
theorem test_tick_send : after (tickWith (startSend 1) pinSample tied) (fun t => t.tx.busy && t.tx.len == 1 &&
    t.tx.phase == .high && t.tx.timer == 800 && t.line == .hi && t.txLog.now == 1) = true := by decide
/-- 2.5, W = 20: the first high read of a measurement. -/
theorem test_tick_measure : after (tick { recvAt .seekingHeader 0 0 0 0 with
      env := { State.reset.env with drvTied := true, pinTied := true, host := [quiet], wave := [⟨.hi, none, 20⟩] } })
    (fun t => t.pwc.phase == .countHigh && t.pwc.dur == 0 && t.pwc.poll == 9) = true := by decide
/-- R140, R137, R214: both sides end in one tick. -/
theorem test_tick_ends : after (tick ending) (fun t => t.out.txDone && t.tx.result == .ok && t.out.rxDone &&
    t.md.result == .noFrame && t.line == .lo) = true := by decide
/-- R283: reset cancels without a result. -/
theorem test_tick_reset : after (tickWith { quiet with rst := true } pinSample ending) (fun t => !t.out.txDone &&
    t.tx.result == .none && t.md.result == .none && t.md.state == .rxIdle && t.line == .lo) = true := by decide
/-- R250, R211: the acceptance of a RECEIVE resets `pwc.dur`. -/
theorem test_receive_dur :
    after (exec (.receive 16) { State.reset with pwc := { State.reset.pwc with dur := 800 } })
      (fun t => t.pwc.dur == 0 && t.pwc.phase == .waitHigh) = true := by decide
/-- R76: the host's stores of a tick come before the SEND accepted in it; the later of two to one index stands. -/
theorem test_tick_stores :
    after (tickWith { startSend 2 with txStore := [(0, 1#8), (1, 2#8), (0, 3#8)] } (fun _ => ⟨.lo, none⟩) tied)
      (fun t => t.tx.busy && t.tx.len == 2 && t.txbuf == [(0, 3#8), (1, 2#8)]) = true := by decide
/-- R7, R283: no line and no signal but reset cancels a measurement that was started alone. -/
theorem test_no_cancel :
    (∀ i ∈ [Instr.measurePulse, .readBit, .readByte, .seekHeader, .receive 16], ∀ s ∈
      [{ State.reset with call := .readBit, pwc := { State.reset.pwc with phase := .waitHigh } }],
      after (exec i s) (fun t => t == s) = true) ∧
    after (tickWith (startReceive 16) (fun _ => ⟨.lo, none⟩)
      { tied with call := .readBit, pwc := { tied.pwc with phase := .waitHigh } })
      (fun t => t.call == .readBit && !t.md.busy && t.pwc.phase == .waitHigh) = true := by decide
/-- R280: reset touches no memory; the host's own store of the tick is made (log 37). -/
theorem test_reset_store :
    after (tickWith { quiet with rst := true, txStore := [(3, 9#8)] } pinSample tied)
      (fun t => t.txbuf == [(3, 9#8)] && t.rxbuf == []) = true := by decide
/-- R302, R282: after a reset inside a high interval `line(t)` is `L`, and was `H` before. -/
theorem test_lineAt_reset :
    lineAt 0 [(0, .setHigh none), (0, .delay 800), (5, .reset)] 4 = .hi ∧
    lineAt 0 [(0, .setHigh none), (0, .delay 800), (5, .reset)] 6 = .lo := by decide
/-- U2: after a failed drive call `line(t)` is its free value. -/
theorem test_lineAt_err (e : DrvErr) :
    lineAt 7 [(0, .setHigh none), (400, .setLow (some e))] 400 = Config.lineAfterErr 8 := rfl

/-! ### Witnesses: for each statement with hypotheses, states and operands that meet all of them, each clause at the ends
of its range -/

/-- An invariant state other than reset: bytes in both memories. -/
def stored : State := { tied with txbuf := [(0, 5), (254, 6)], rxbuf := [(0, 7), (510, 8)] }

/-- Both sides in the middle of an operation, the receiver at a payload byte. -/
def busy : State :=
  { ending with
    tx := { ending.tx with phase := .high, timer := 800 }
    md := { busy := true, state := .readingPayload, len := 2, idx := 1, cap := 2, result := .none } }

/-- A measurement started alone, waiting for a pulse. -/
def measuring : State := { tied with call := .measurePulse, pwc := { tied.pwc with phase := .waitHigh } }

theorem witness_inv_stored : Inv stored := by
  constructor <;> decide
theorem witness_inv_busy : Inv busy := by
  constructor <;> decide
theorem witness_inv_ending : Inv ending := by
  constructor <;> decide
theorem witness_inv_measuring : Inv measuring := by
  constructor <;> decide
theorem witness_inv_seeking : Inv (recvAt .seekingHeader 0 23 0 0) := by
  constructor <;> decide
theorem witness_inv_length : Inv (recvAt .readingLength 0 24 0 7) := by
  constructor <;> decide

theorem witness_DecodeEncodeAgree :
    (Instr.frame (List.replicate 255 0#8)).wellFormed = true ∧ (Instr.send []).wellFormed = true ∧
    (Instr.bandNoise 99).wellFormed = true ∧ (Instr.bandDead 100).wellFormed = true ∧
    (Instr.bandDead 179).wellFormed = true ∧ (Instr.bandOne 180).wellFormed = true ∧
    (Instr.bandOne 500).wellFormed = true ∧ (Instr.bandZero 501).wellFormed = true ∧
    (Instr.bandZero 900).wellFormed = true ∧ (Instr.bandOver 901).wellFormed = true ∧
    (Instr.bandOver 5000).wellFormed = true ∧ (Instr.classify 5000).wellFormed = true := by decide +kernel

theorem witness_DecodedLinesAreWellFormed : decodeLine ⟨.send, frame2A⟩ = .ok (.send [0x2A#8]) := by decide

theorem witness_StepRunsTheDecodedLine :
    { stored with program := [⟨.sym1, [true]⟩] }.program = [⟨.sym1, [true]⟩] ∧
    decodeLine ⟨.sym1, [true]⟩ = .ok .sym1 ∧ decodeLine ⟨.sym1, [false]⟩ = .error .fixedBits ∧
    stored.program = [] := by decide

/-- FrameSymbolPositions, FrameDuration, FormatRowsPutTheirWaveform: the shortest and the longest payload (a state whose
drive calls answer is in `witness_SendSendsTheFrame`). -/
theorem witness_payloads : ([] : List Byte).length ≤ 255 ∧ (List.replicate 255 0x00#8).length ≤ 255 ∧
    (List.replicate 255 0xFF#8).length ≤ 255 ∧ 254 < (List.replicate 255 0x00#8).length := by
  simp only [List.length_replicate, List.length_nil]
  decide

/-- ClassificationOfDurations and ClassifyByBands. -/
theorem witness_ClassifyByBands : 0 ≤ 99 ∧ 99 ≤ 99 ∧ (100 ≤ 100 ∧ 100 ≤ 179) ∧ (100 ≤ 179 ∧ 179 ≤ 179) ∧
    (180 ≤ 180 ∧ 180 ≤ 500) ∧ (180 ≤ 500 ∧ 500 ≤ 500) ∧ (501 ≤ 501 ∧ 501 ≤ 900) ∧ (501 ≤ 900 ∧ 900 ≤ 900) ∧
    901 ≤ 901 := by decide

theorem witness_BandRowsClassify : awaitsPulse stored = false ∧ awaitsPulse busy = false ∧
    (measurable 99 = false ∧ awaitsPulse (recvAt .seekingHeader 0 0 0 0) = true) ∧ measurable 901 = false := by decide

/-- The two ends of each band among the durations a measurement returns, with the longest run that goes on and the one that
the next zero ends. -/
theorem witness_BandsMoveTheZeroRun : ∀ d ∈ [0, 90, 100, 170, 180, 500, 510, 900, 910, 2000],
    (∃ s : State, s.call = .receive ∧ s.md.state = .seekingHeader ∧ s.pwc.phase = .waitHigh ∧
      s.bfa.zeroRun.toNat = 22 ∧ measurable d = true) ∧
    ∃ s : State, s.call = .receive ∧ s.md.state = .seekingHeader ∧ s.pwc.phase = .waitHigh ∧
      s.bfa.zeroRun.toNat = 23 ∧ measurable d = true := by
  intro d hd
  have h : measurable d = true := by revert d; decide
  exact ⟨⟨recvAt .seekingHeader 0 22 0 0, rfl, rfl, rfl, rfl, h⟩, recvAt .seekingHeader 0 23 0 0, rfl, rfl, rfl, rfl, h⟩

theorem witness_drives (n : Nat) : DrivesOk tied n := fun _ _ => rfl

theorem witness_SendBitTrace (e : DrvErr) :
    (tied.tx.busy = false ∧ nthDrive tied 0 = none ∧ nthDrive tied 1 = none) ∧
    ((drives [some e]).tx.busy = false ∧ nthDrive (drives [some e]) 0 = some e) ∧
    (nthDrive (drives [none, some e]) 0 = none ∧ nthDrive (drives [none, some e]) 1 = some e) :=
  ⟨⟨rfl, rfl, rfl⟩, ⟨rfl, rfl⟩, rfl, rfl⟩

/-- The first and the last drive call of a byte. -/
theorem witness_SendByteIsEightBits (e : DrvErr) :
    (tied.tx.busy = false ∧ DrivesOk tied 16) ∧
    (0 < 16 ∧ DrivesOk (drives [some e]) 0 ∧ nthDrive (drives [some e]) 0 = some e) ∧
    (15 < 16 ∧ DrivesOk (drives (List.replicate 15 none ++ [some e])) 15 ∧
      nthDrive (drives (List.replicate 15 none ++ [some e])) 15 = some e) := by
  refine ⟨⟨rfl, witness_drives 16⟩, ⟨by decide, fun _ h => absurd h (Nat.not_lt_zero _), rfl⟩, by decide, ?_, rfl⟩
  unfold DrivesOk
  intro j h
  interval_cases j <;> rfl

theorem witness_SendSendsTheFrame : ([] : List Byte).length ≤ 255 ∧ [0x2A#8].length ≤ 255 ∧ tied.tx.busy = false ∧
    DrivesOk tied (16 * (5 + [0x2A#8].length)) := ⟨by decide, by decide, rfl, witness_drives _⟩

/-- The first and the last drive call of the frame of the empty payload. -/
theorem witness_SendFailsAtTheFirstError (e : DrvErr) : ∀ m ∈ [0, 79], ∃ s : State, s.tx.busy = false ∧
    m < 16 * (5 + ([] : List Byte).length) ∧ DrivesOk s m ∧ nthDrive s m = some e := by
  intro m hm
  refine ⟨drives (List.replicate m none ++ [some e]), rfl, ?_, ?_, ?_⟩
  · revert m; decide
  · intro j h
    simp [nthDrive, drives, State.reset, List.getElem?_append, h]
  · simp [nthDrive, drives, State.reset]

theorem witness_LineFollowsEncodeWave : ∃ t, exec (.send []) tied = .next t ∧ tied.tx.busy = false ∧
    DrivesOk tied (16 * (5 + ([] : List Byte).length)) ∧ 0 < frameTime [] ∧ 54399 < frameTime [] :=
  ⟨_, rfl, rfl, witness_drives _, by decide, by decide⟩

/-- Both sides with an operation of the host's, and a measurement started alone. -/
theorem witness_BusySidesIgnoreStarts : busy.tx.busy = true ∧ busy.md.busy = true ∧ [0x2A#8].length ≤ 255 ∧
    measuring.md.busy = false ∧ measuring.call ≠ .none := by decide

theorem witness_LongPayloadsAreRefused : 255 < (List.replicate 256 0x00#8).length := by simp only [List.length_replicate]; decide

theorem witness_TransmitLeavesTheReceiver :
    (∃ t, exec (.sendBit true) stored = .next t) ∧ (∃ t, exec (.sendByte 0x2A#8) stored = .next t) ∧
    ∃ t, exec (.send [1, 2]) stored = .next t ∧ [1#8, 2#8].length ≤ 254 :=
  ⟨⟨_, rfl⟩, ⟨_, rfl⟩, _, rfl, by decide⟩

/-- Answers of a measurement: `w` low reads, the read that ends phase 1, `m` high reads, and what follows. -/
def pulse (w m : Nat) (rest : List PinAnswer) : State :=
  pins (List.replicate w (.ok true) ++ .ok false :: (List.replicate m (.ok true) ++ rest))

theorem witness_MeasurePulseCountsHighReads : ∀ m ∈ [0, 199], rxFree (pulse 2 m [.ok false]) = true ∧ m < 200 ∧
    (pulse 2 m [.ok false]).env.calls =
      List.replicate 2 (.ok true) ++ .ok false :: (List.replicate m (.ok true) ++ .ok false :: []) := by
  intro m hm
  refine ⟨rfl, ?_, rfl⟩
  revert m; decide

theorem witness_MeasurePulseStopsAtTheCap : rxFree (pulse 0 200 [.ok true]) = true ∧
    (pulse 0 200 [.ok true]).env.calls =
      List.replicate 0 (.ok true) ++ .ok false :: (List.replicate 200 (.ok true) ++ [.ok true]) := ⟨rfl, rfl⟩

theorem witness_MeasurePulseReportsErrors (e : PinErr) :
    (pins (List.replicate 7 (.ok true) ++ .err e :: [])).env.calls = List.replicate 7 (.ok true) ++ .err e :: [] ∧
    (pulse 0 199 [.err e]).env.calls =
      List.replicate 0 (.ok true) ++ .ok false :: (List.replicate 199 (.ok true) ++ .err e :: []) ∧
    rxFree (pulse 0 199 [.err e]) = true := ⟨rfl, rfl, rfl⟩

theorem witness_MeasurePulseWaitsWhileLow : rxFree (pins (List.replicate 3 (.ok true))) = true ∧
    (pins (List.replicate 3 (.ok true))).env.calls = List.replicate 3 (.ok true) := ⟨rfl, rfl⟩

theorem witness_ReadBitClassifiesOneMeasurement (e : PinErr) : (∀ d ∈ [0, 180, 510, 2000], measurable d = true) ∧
    ∀ r ∈ [BitRead.pulse 3 2000, .pulse 0 0, .errLow 0 e, .errLow 3 e, .errHigh 0 0 e, .errHigh 3 199 e],
      (pins (r.answers ++ [.ok true])).env.calls = r.answers ++ [.ok true] ∧
      rxFree (pins (r.answers ++ [.ok true])) = true :=
  ⟨by decide, fun _ _ => ⟨rfl, rfl⟩⟩

/-- Pulses of these durations, each after a gap of 600 low reads. -/
def sent (ds : List Nat) : List BitRead := ds.map (.pulse 600)

/-- The nominal durations of bits read as those bits (R96): for the statements about `ReadsAs`, whatever the bits. -/
theorem witness_ReadsAs (bs : List Bool) : ReadsAs (sent (bs.map highTime)) bs := by
  constructor
  · intro r hr
    simp only [sent, List.mem_map] at hr
    obtain ⟨_, ⟨b, _, rfl⟩, rfl⟩ := hr
    cases b <;> rfl
  · simp only [sent, List.map_map, List.map_inj_left]
    intro b _
    cases b <;> rfl

/-- An invalid duration at each end of the invalid bands, an error in phase 1, and one after 0 and after 199 high reads. -/
theorem witness_badRead (e : PinErr) : ∀ bad ∈ [BitRead.pulse 0 0, .pulse 600 170, .pulse 600 910, .pulse 0 2000,
    .errLow 0 e, .errLow 600 e, .errHigh 0 0 e, .errHigh 600 199 e], bad.possible = true ∧ bad.bit = none := by
  intro bad h
  fin_cases h <;> exact ⟨rfl, rfl⟩

/-- The ends of the valid bands among the durations a measurement returns. -/
theorem witness_ReadByteAssemblesEightBits : (List.replicate 8 true).length = 8 ∧
    ReadsAs (sent [180, 510, 500, 900, 180, 510, 500, 900]) [true, false, true, false, true, false, true, false] ∧
    rxFree (pins (answersOf (sent [180, 510, 500, 900, 180, 510, 500, 900]) ++ [.ok true])) = true := by
  refine ⟨rfl, ?_, rfl⟩
  unfold ReadsAs; decide

/-- The first and the eighth bit invalid (`rs` from `witness_ReadsAs`, `bad` from `witness_badRead`). -/
theorem witness_ReadByteFailsAtTheFirstInvalidBit :
    ([] : List Bool).length < 8 ∧ ReadsAs [] [] ∧ (List.replicate 7 true).length < 8 ∧
    ReadsAs (sent (List.replicate 7 500)) (List.replicate 7 true) := by
  unfold ReadsAs; decide

/-- Before the run: a zero, a one, a zero and a pin error. -/
theorem witness_SeekHeaderEndsAtTwentyFourZeros :
    let rs : List BitRead := sent [800, 400, 800] ++ [.errLow 2 default] ++ sent [900]
    (∀ r ∈ rs, r.possible = true) ∧ keepsSeeking 0 rs = true ∧
    ReadsAs (sent (List.replicate 23 510)) (List.replicate (sent (List.replicate 23 510)).length false) ∧
    runAfter 0 rs + (sent (List.replicate 23 510)).length = 24 := by
  unfold ReadsAs; decide +kernel

/-- T4: a run of 23, broken by an invalid pulse, another of 23, broken by a pin error, and another of 23. -/
def brokenRuns : List BitRead :=
  sent (List.replicate 23 800 ++ [950] ++ List.replicate 23 800) ++ [.errHigh 600 199 default] ++
    sent (List.replicate 23 800)

theorem witness_SeekHeaderGoesOnWithoutTheRun :
    (∀ r ∈ brokenRuns, r.possible = true) ∧ keepsSeeking 0 brokenRuns = true ∧ runAfter 0 brokenRuns = 23 := by
  decide +kernel

/-- A `RECEIVE` that seeks with a run of 23, its measurement in phase 2. -/
def counting (dur : BitVec 11) (poll : BitVec 4) (due : Bool) : State :=
  { recvAt .seekingHeader 0 23 0 0 with pwc := { phase := .countHigh, dur := dur, poll := poll, due := due } }

/-- A pin error on a run of 23 at the trace level (`bad`: its last two reads), and in a tick in phase 1, at a read that is
due at once, and at a read after a `Delay(10)`, also the one where the cap is met. -/
theorem witness_SeekingSurvivesPinErrors :
    ((∀ r ∈ brokenRuns, r.possible = true) ∧ keepsSeeking 0 brokenRuns = true ∧ runAfter 0 brokenRuns = 23 ∧
      ∀ bad ∈ [BitRead.errLow 600 default, .errHigh 600 199 default], bad.possible = true ∧ bad.isErr = true) ∧
    ∀ s ∈ [recvAt .seekingHeader 0 23 0 0, counting 0 9 true, counting 0 0 false, counting 1990 0 false],
      Inv s ∧ quiet.rst = false ∧ s.call = .receive ∧ s.md.state = .seekingHeader ∧
      (s.pwc.phase = .waitHigh ∨ s.pwc.due = true ∨ s.pwc.poll = 0) := by
  refine ⟨by decide +kernel, fun s hs => ?_⟩
  simp only [List.mem_cons, List.not_mem_nil, or_false] at hs
  obtain rfl | rfl | rfl | rfl := hs
  · exact ⟨witness_inv_seeking, rfl, rfl, rfl, .inl rfl⟩
  · exact ⟨by constructor <;> decide, rfl, rfl, rfl, .inr (.inl rfl)⟩
  · exact ⟨by constructor <;> decide, rfl, rfl, rfl, .inr (.inr rfl)⟩
  · exact ⟨by constructor <;> decide, rfl, rfl, rfl, .inr (.inr rfl)⟩

theorem witness_ReceiveAcceptance : rxFree stored = true ∧ stored.env.calls = [] := ⟨rfl, rfl⟩

/-- The shortest payload with no room, and the longest with just enough, sent with gaps (`rs` from `witness_ReadsAs`); noise
before it that ends with a pin error. -/
theorem witness_ReceiveReturnsThePayload :
    (∀ p ∈ [[], List.replicate 255 0x00#8], p.length ≤ 255 ∧ p.length ≤ (BitVec.ofNat 9 p.length).toNat ∧
      ReadsAs (sent (encodeDurations p)) (encodeBits p)) ∧
    (∀ r ∈ brokenRuns ++ [.errLow 3 default], r.possible = true) ∧
    keepsSeeking 0 (brokenRuns ++ [.errLow 3 default]) = true ∧ runAfter 0 (brokenRuns ++ [.errLow 3 default]) = 0 := by
  refine ⟨fun p hp => ⟨?_, ?_, witness_ReadsAs _⟩, by decide +kernel⟩ <;> (revert p; decide +kernel)

/-- T6: 0x54 where the sync byte should be. -/
theorem witness_WrongSyncGivesNoFrame : 0x54#8 ≠ 0x55#8 ∧
    ReadsAs (sent (List.replicate 26 800 ++ [400, 800, 400, 800, 400, 800])) (headerPattern ++ byteBits 0x54#8) := by
  unfold ReadsAs; decide +kernel

/-- T5: length 3, capacity 2. -/
theorem witness_OversizeLengthGivesNoFrame : (2#9).toNat < (3#8).toNat ∧
    ReadsAs (sent (List.replicate 24 800 ++ [400, 800, 400, 800, 400, 800, 400, 800] ++
      [400, 400, 800, 800, 800, 800, 800, 800])) (headerPattern ++ syncPattern ++ byteBits 3#8) := by
  unfold ReadsAs; decide +kernel

/-- The first and the eighth bit of the sync byte and of the length byte (`bad` from `witness_badRead`). -/
theorem witness_CorruptSyncOrLengthBitGivesNoFrame : ∀ bs ∈ [[], List.replicate 7 true], bs.length < 8 ∧
    ReadsAs (sent ((headerPattern ++ bs).map highTime)) (headerPattern ++ bs) ∧
    ReadsAs (sent ((headerPattern ++ syncPattern ++ bs).map highTime)) (headerPattern ++ syncPattern ++ bs) := by
  refine fun bs hbs => ⟨?_, witness_ReadsAs _, witness_ReadsAs _⟩
  revert bs; decide

/-- The first bit of the first payload byte, and the last bit of the last (`bad` from `witness_badRead`). -/
theorem witness_CorruptPayloadBitGivesNoFrame : (1#8).toNat ≤ (1#9).toNat ∧ ([] : List Byte).length < (1#8).toNat ∧
    ∀ bs ∈ [[], List.replicate 7 false], bs.length < 8 ∧
      ReadsAs (sent ((headerPattern ++ syncPattern ++ byteBits 1#8 ++ ([] : List Byte).flatMap byteBits ++ bs).map highTime))
        (headerPattern ++ syncPattern ++ byteBits 1#8 ++ ([] : List Byte).flatMap byteBits ++ bs) := by
  refine ⟨by decide, by decide, fun bs hbs => ⟨?_, witness_ReadsAs _⟩⟩
  revert bs; decide

theorem witness_ReceiveStaysInsideTheBuffer : Inv stored ∧ rxFree stored = true ∧
    (∃ t, exec (.receive 3) stored = .next t) ∧ (3#9).toNat ≤ 510 := ⟨witness_inv_stored, rfl, ⟨_, rfl⟩, by decide⟩

theorem witness_MeasurementsAreMultiplesOfTen : ∃ t, exec .measurePulse (pulse 1 1 [.ok false]) = .next t ∧
    t.call = .none ∧ t.handed.meas = some (.ok 10) := ⟨_, rfl, rfl, rfl⟩

theorem witness_ReceiveLeavesTheEncoder : ∀ i ∈ [Instr.measurePulse, .readBit, .readByte, .seekHeader, .receive 3,
    .classify 800, .bandNoise 0, .bandDead 100, .bandOne 180, .bandZero 900, .bandOver 901],
    ∃ t, exec i stored = .next t := by
  intro i hi
  fin_cases hi <;> exact ⟨_, rfl⟩

theorem witness_ResetTick : { quiet with rst := true }.rst = true ∧ { quiet with rst := true }.txStore = [] ∧
    busy.tx.busy = true ∧ stored.tx.busy = false := ⟨rfl, rfl, rfl, rfl⟩

theorem witness_AcceptanceTickOfSend : (startSend 255).rst = false ∧ (startSend 255).txStart = true ∧
    (startSend 255).rxStart = false ∧ stored.tx.busy = false ∧
    stored.call = .none ∧ nthDrive stored 0 = none := ⟨rfl, rfl, rfl, rfl, rfl, rfl⟩

theorem witness_AcceptanceTickOfReceive : (startReceive 511).rst = false ∧ (startReceive 511).txStart = false ∧
    (startReceive 511).rxStart = true ∧ stored.tx.busy = false ∧
    rxFree stored = true ∧ (fun _ => ⟨.lo, none⟩ : State → PinSample)
      (hostStore (startReceive 511) (clearOut stored)) = ⟨.lo, none⟩ := ⟨rfl, rfl, rfl, rfl, rfl, rfl⟩

theorem witness_StartSignalsAreIgnoredWhileBusy : busy.tx.busy = true ∧ busy.md.busy = true ∧
    measuring.md.busy = false ∧ measuring.call ≠ .none := by decide

theorem witness_inv_drives (as : List (Option DrvErr)) : Inv (drives as) :=
  have h : Inv State.reset := by constructor <;> decide
  { h with }

/-- Both sides ending, a `SEND` that fails in its acceptance tick, and a reset tick while both sides are busy. -/
theorem witness_DonePulsesMarkTheEnds (e : DrvErr) :
    (∃ t, tickWith quiet pinSample ending = .next t ∧ quiet.rst = false ∧ Inv ending ∧ t.out.txDone = true ∧
      t.out.rxDone = true ∧ ending.tx.busy = true ∧ t.tx.busy = false ∧ ending.md.busy = true ∧ t.md.busy = false) ∧
    (∃ t, tickWith (startSend 2) pinSample (drives [some e]) = .next t ∧ Inv (drives [some e]) ∧
      (startSend 2).rst = false ∧ (drives [some e]).tx.busy = false ∧ (startSend 2).txStart = true ∧
      nthDrive (drives [some e]) 0 = some e ∧ t.out.txDone = true ∧ t.tx.result = .err e) ∧
    ∃ t, tickWith { quiet with rst := true } pinSample ending = .next t ∧ t.out.txDone = false ∧ t.out.rxDone = false :=
  ⟨⟨_, rfl, rfl, witness_inv_ending, rfl, rfl, rfl, rfl, rfl, rfl⟩,
   ⟨_, rfl, witness_inv_drives _, rfl, rfl, rfl, rfl, rfl, rfl⟩, _, rfl, rfl, rfl⟩

/-- A `SEND` whose second drive call errs, 800 ticks after the first. -/
theorem witness_TicksRefineSend : ∃ s u : State, s.tx.busy = false ∧ s.tx.timer = 0 ∧ s.call = .none ∧
    s.txbuf = Memory.writeList s.txbuf 0 [] ∧ exec (.send []) s = .next u ∧
    s.env.host = startSend 0 :: List.replicate (u.txLog.now - s.txLog.now) quiet := by
  refine ⟨{ drives [none, some default] with env := { (drives [none, some default]).env with
    host := startSend 0 :: List.replicate 800 quiet } }, _, rfl, rfl, rfl, rfl, rfl, rfl⟩

/-- The machine of `s` with a pulse of `w` ticks and a gap of 10 on the line, and a quiet host. -/
def pulseAt (w : Nat) (s : State) : State :=
  { s with env := { s.env with wave := [⟨.hi, none, w⟩, ⟨.lo, none, 10⟩], host := List.replicate 2001 quiet } }

/-- A measurement started alone, and a `RECEIVE` with 23 zeros seen: the shortest pulse, one tick more than a multiple of
10, the ends of the rows of R168's table, and one that meets the cap. -/
theorem witness_PulseWidthIsRoundedUp : ∀ w ∈ [1, 11, 170, 171, 500, 501, 900, 901, 1991, 2600],
    ∀ s ∈ [measuring, recvAt .seekingHeader 0 23 0 0], Inv (pulseAt w s) ∧ (pulseAt w s).tx.busy = false ∧
    (pulseAt w s).call ≠ .none ∧ (pulseAt w s).pwc.phase = .waitHigh ∧ 1 ≤ w ∧ 10 ≤ 10 ∧
    (pulseAt w s).env.wave = [⟨.hi, none, w⟩, ⟨.lo, none, 10⟩] ∧
    (pulseAt w s).env.host = List.replicate 2001 quiet ∧ min 2000 (10 * ((w + 9) / 10)) < 2001 := by
  intro w hw s hs
  have h1 : 1 ≤ w := by revert w; decide
  simp only [List.mem_cons, List.not_mem_nil, or_false] at hs
  obtain rfl | rfl := hs
  · exact ⟨{ witness_inv_measuring with }, rfl, (fun h => nomatch h), rfl, h1, by decide, rfl, rfl, by omega⟩
  · exact ⟨{ witness_inv_seeking with }, rfl, (fun h => nomatch h), rfl, h1, by decide, rfl, rfl, by omega⟩

theorem witness_IdleSidesIgnoreTheLine : stored.tx.busy = false ∧ stored.call = .none := ⟨rfl, rfl⟩

/-- Each state of the decoder in which a tick can begin, and an acceptance. -/
theorem witness_DecoderTransitions : quiet.rst = false ∧ (startReceive 3).rst = false ∧
    (∀ s ∈ [stored, recvAt .seekingHeader 0 23 0 0, ending, recvAt .readingLength 0 24 0 7, busy],
      ∃ t, tickWith quiet (fun _ => ⟨.lo, none⟩) s = .next t) ∧
    (∃ t, tickWith (startReceive 3) (fun _ => ⟨.lo, none⟩) stored = .next t) ∧
    stored.md.state = .rxIdle ∧ (recvAt .seekingHeader 0 23 0 0).md.state = .seekingHeader ∧
    ending.md.state = .readingSync ∧ (recvAt .readingLength 0 24 0 7).md.state = .readingLength ∧
    busy.md.state = .readingPayload := by
  refine ⟨rfl, rfl, ?_, ⟨_, rfl⟩, rfl, rfl, rfl, rfl, rfl⟩
  intro s hs
  fin_cases hs <;> exact ⟨_, rfl⟩

/-- The encoder at a position with a timer, its next drive call answering `a`; the receiver idle. -/
def txAt (p : TxPhase) (k : BitVec 9) (i : BitVec 3) (timer : BitVec 10) (a : Option DrvErr) : State :=
  { drives [a] with tx := { busy := true, len := 2, k := k, i := i, cur := 0, phase := p, timer := timer, result := .none } }

/-- Each position of the encoder, whatever its drive call answers: idle with and without a start, the two intervals before
and in their last tick, a gap before the next bit, before the next byte and before the end. -/
theorem witness_EncoderPositions (a : Option DrvErr) :
    (∀ s ∈ [drives [a], txAt .high 0 0 800 a, txAt .high 4 7 1 a, txAt .gap 6 7 600 a, txAt .gap 0 6 1 a,
      txAt .gap 5 7 1 a, txAt .gap 6 7 1 a], Inv s ∧ nthDrive s 0 = a ∧
        ∃ t, tickWith quiet (fun _ => ⟨.lo, none⟩) s = .next t) ∧
    (∃ t, tickWith (startSend 2) (fun _ => ⟨.lo, none⟩) (drives [a]) = .next t) ∧ (startSend 2).rst = false ∧
    (drives [a]).tx.phase = .idle ∧
    ((txAt .high 4 7 1 a).tx.phase = .high ∧ (txAt .high 4 7 1 a).tx.timer.toNat = 1 ∧
      (txAt .high 0 0 800 a).tx.timer.toNat = 800 ∧ (txAt .gap 6 7 600 a).tx.timer.toNat = 600) ∧
    ((txAt .gap 0 6 1 a).tx.phase = .gap ∧ (txAt .gap 0 6 1 a).tx.i.toNat = 6) ∧
    ((txAt .gap 5 7 1 a).tx.k.toNat = 5 ∧ (txAt .gap 5 7 1 a).tx.len.toNat + 4 = 6) ∧
    (txAt .gap 6 7 1 a).tx.k.toNat = 6 := by
  refine ⟨?_, ?_, rfl, rfl, ⟨rfl, rfl, rfl, rfl⟩, ⟨rfl, rfl⟩, ⟨rfl, rfl⟩, rfl⟩
  · intro s hs
    simp only [List.mem_cons, List.not_mem_nil, or_false] at hs
    obtain rfl | rfl | rfl | rfl | rfl | rfl | rfl := hs
    · exact ⟨witness_inv_drives _, rfl, _, tickWith_rxIdle _ _ _ rfl rfl rfl⟩
    all_goals
      refine ⟨{ witness_inv_drives [a] with
        k_le := ?_, tx_busy := ?_, tx_result := ?_, timer_idle := ?_, timer_high := ?_, timer_gap := ?_ },
        rfl, _, tickWith_rxIdle _ _ _ rfl rfl rfl⟩
    all_goals simp [txAt]
  · exact ⟨_, tickWith_rxIdle _ _ _ rfl rfl rfl⟩

theorem witness_EncoderIgnoresTheReceiver : ∃ t₁ t₂, tickWith quiet (fun _ => ⟨.lo, none⟩) ending = .next t₁ ∧
    tickWith quiet (fun _ => ⟨.hi, none⟩) { ending with md := stored.md, call := .none, pwc := stored.pwc } = .next t₂ :=
  ⟨_, _, rfl, rfl⟩

theorem witness_ReceiverIgnoresTheEncoder : ∃ t₁ t₂, tickWith quiet (fun _ => ⟨.lo, none⟩) ending = .next t₁ ∧
    tickWith quiet (fun _ => ⟨.lo, none⟩) { ending with tx := stored.tx, line := .hi, txbuf := stored.txbuf } = .next t₂ :=
  ⟨_, _, rfl, rfl⟩

theorem witness_LoopbackDeliversThePayload : Inv stored ∧ stored.tx.busy = false ∧ stored.md.busy = false ∧
    stored.call = .none ∧ stored.line = .lo ∧ stored.env.drvTied = true ∧ [5#8].length ≤ 255 ∧
    [5#8].length ≤ (1#9).toNat ∧ ∀ j (h : j < [5#8].length), Memory.read stored.txbuf j = some [5#8][j] := by
  refine ⟨witness_inv_stored, rfl, rfl, rfl, rfl, rfl, by decide, by decide, ?_⟩
  intro j h
  obtain rfl : j = 0 := by simpa using h
  rfl

theorem witness_StepKeepsTheInvariant :
    (∃ t, step { stored with program := [⟨.sync, syncPattern⟩] } = .next t) ∧ (∃ t, step busy = .next t) ∧
    (∃ t, step ending = .next t) ∧ Inv busy ∧ Inv ending :=
  ⟨⟨_, rfl⟩, ⟨_, rfl⟩, ⟨_, rfl⟩, witness_inv_busy, witness_inv_ending⟩

/-- After a `SEND_BIT` whose SetLow failed, in a tick and in another line. -/
theorem witness_StepKeepsTheLineOfTheTrace (e : DrvErr) :
    ∃ s : State, s.line = Config.lineAfterErr 1 ∧ s.txLog.now = 400 ∧ LineTracked s ∧
      (∃ t, step { s with env := { s.env with host := [quiet], wave := [⟨.lo, none, 1⟩] } } = .next t) ∧
      ∃ t, step { s with program := [⟨.sync, syncPattern⟩] } = .next t := by
  refine ⟨{ State.reset with
    line := Config.lineAfterErr 1
    env := { State.reset.env with drvCalls := 2 }
    txLog := { now := 400, trace := [(0, .setHigh none), (0, .delay 400), (400, .setLow (some e))] } },
    rfl, rfl, ⟨?_, rfl, rfl⟩, ⟨_, rfl⟩, _, rfl⟩
  simp

theorem witness_StepStopsOnlyAtBadLines : Inv stored ∧ (∃ t, step busy = .next t) ∧
    decodeLine ⟨.sym1, [false]⟩ = .error .fixedBits := ⟨witness_inv_stored, ⟨_, rfl⟩, by decide⟩

theorem witness_StatusSignals (e : DrvErr) : { tied with tx := { tied.tx with result := .err e } }.tx.result = .err e ∧
    txErr { tied with tx := { tied.tx with result := .err e } } = true ∧
    { tied with md := { tied.md with result := .some 255 } }.md.result = .some 255 ∧
    rxSome { tied with md := { tied.md with result := .some 255 } } = true := ⟨rfl, rfl, rfl, rfl⟩

/-- The ends of each range of byte numbers; byte 259 is payload byte 254. -/
theorem witness_FrameByteByNumber : (0#9).toNat ≤ 2 ∧ (2#9).toNat ≤ 2 ∧ (3#9).toNat = 3 ∧ (4#9).toNat = 4 ∧
    5 ≤ (5#9).toNat ∧ 5 ≤ (259#9).toNat ∧ Memory.read stored.txbuf ((5#9).toNat - 5) = some 5 ∧
    Memory.read stored.txbuf ((259#9).toNat - 5) = some 6 := by decide

end Sys2Proof.Tests.Slice0
end

section
/-! SUPPORT. What an accepted pattern gives, one lemma for each reading of the decoder; then O2, one case for each strobe. -/

namespace Sys2Proof.Machine

/-- What the reading of a frame requires and what it answers: the three fixed fields in front (R92), then groups of eight
bits whose number is the length field's (R94). -/
theorem decodeFrame_eq_ok_iff {p : List Bool} {bs : List Byte} :
    decodeFrame p = .ok bs ↔ p.take 24 = headerPattern ∧ (p.drop 24).take 8 = syncPattern ∧
      ∃ n : Byte, decodeByte ((p.drop 32).take 8) = .ok n ∧ decodeBytes (p.drop 40) = some bs ∧
        n.toNat = bs.length := by
  unfold decodeFrame
  by_cases hheader : p.take 24 = headerPattern
  · by_cases hsync : (p.drop 24).take 8 = syncPattern
    · rw [if_neg (not_not.2 hheader), if_neg (not_not.2 hsync)]
      cases decodeByte ((p.drop 32).take 8) with
      | error e => simp
      | ok n =>
        cases decodeBytes (p.drop 40) with
        | none => simp
        | some cs =>
          by_cases hlen : n.toNat = cs.length
          · simpa [hheader, hsync, hlen] using congrArg List.length
          · simpa [hheader, hsync, hlen] using fun hbs : cs = bs => hbs ▸ hlen
    · simp [hheader, hsync]
  · simp [hheader]

/-- An accepted frame's payload is counted by its length byte, so it fits `MAX_PAYLOAD` (R94). -/
theorem decodeFrame_length_le {p : List Bool} {bs : List Byte} (h : decodeFrame p = .ok bs) : bs.length ≤ maxPayload := by
  obtain ⟨-, -, n, -, -, hlen⟩ := decodeFrame_eq_ok_iff.1 h
  exact hlen ▸ Nat.le_of_lt_succ n.isLt

theorem decodeFixed_eq_ok_iff {want p : List Bool} {e : DecodeError} {i j : Instr} :
    decodeFixed want e i p = .ok j ↔ p = want ∧ i = j := by
  unfold decodeFixed
  split
  · simp [*]
  · split <;> simp [*]

/-- A row without operands decodes to itself, so it is well formed where its own instruction is. -/
theorem decodeFixed_wellFormed {want p : List Bool} {e : DecodeError} {i j : Instr} (hi : i.wellFormed = true)
    (h : decodeFixed want e i p = .ok j) : j.wellFormed = true :=
  (decodeFixed_eq_ok_iff.1 h).2 ▸ hi

/-- A row with one operand is well formed where its instruction is for every operand the reading accepts. -/
theorem exceptMap_wellFormed {α : Type} {r : Except DecodeError α} {row : α → Instr} {i : Instr}
    (hrow : ∀ a, r = .ok a → (row a).wellFormed = true) (h : r.map row = .ok i) : i.wellFormed = true := by
  cases r with
  | error e => cases h
  | ok a =>
    cases h
    exact hrow a rfl

/-- A band row is accepted only after the check of its band (R97). -/
theorem decodeBand_wellFormed {row : Nat → Instr} {p : List Bool} {i : Instr} (h : decodeBand row p = .ok i) :
    i.wellFormed = true := by
  unfold decodeBand at h
  split at h
  next d _ =>
    split at h
    next hband =>
      cases h
      exact hband
    next => cases h
  next => cases h

/-- The row chosen for a duration is the one whose band holds it (R97). -/
theorem bandRow_wellFormed (d : Nat) : (bandRow d).wellFormed = true := by
  unfold bandRow
  split_ifs with hnoise hdead hone hzero
  · exact decide_eq_true hnoise
  · simp [Instr.wellFormed, not_lt.1 hnoise, hdead]
  · simp [Instr.wellFormed, not_lt.1 hdead, hone]
  · simp [Instr.wellFormed, Nat.succ_le_of_lt (not_le.1 hone), hzero]
  · exact decide_eq_true (not_le.1 hzero)

/-- A pattern without a strobe: a frame and a duration carry an operand that is checked, and they meet their check; the
other rows have none. -/
theorem decodeBare_wellFormed {p : List Bool} {i : Instr} (h : decodeBare p = .ok i) : i.wellFormed = true := by
  unfold decodeBare at h
  split at h
  next bs hframe =>
    cases h
    exact decide_eq_true (decodeFrame_length_le hframe)
  next =>
    split_ifs at h with hheader hdur hsync hsym1 hsym0
    · cases h; rfl
    · cases h; exact bandRow_wellFormed _
    · cases h; rfl
    · cases h; rfl
    · cases h; rfl
    · split at h <;> cases h
      rfl

theorem decodeLine_wellFormed {l : Line} {i : Instr} (h : decodeLine l = .ok i) : i.wellFormed = true := by
  obtain ⟨strobe, p⟩ := l
  cases strobe with
  | bare => exact decodeBare_wellFormed h
  | frame => exact exceptMap_wellFormed (row := .frame) (fun _ hbs => decide_eq_true (decodeFrame_length_le hbs)) h
  | send => exact exceptMap_wellFormed (row := .send) (fun _ hbs => decide_eq_true (decodeFrame_length_le hbs)) h
  | bandNoise | bandDead | bandOne | bandZero | bandOver => exact decodeBand_wellFormed h
  | sym1 | sym0 | header | sync | measurePulse | readBit | readByte | seekHeader => exact decodeFixed_wellFormed rfl h
  | byte | length | payloadByte | sendByte | classify => exact exceptMap_wellFormed (fun _ _ => rfl) h
  | sendBit | receive =>
    simp only [decodeLine] at h
    split at h <;> cases h
    rfl

/-- Settles O2: the decoder checks a band row's duration, a duration without a strobe goes to the row of its band, and a
payload's length is the value of a byte. -/
theorem decodedLinesAreWellFormed : Obligations.DecodedLinesAreWellFormed :=
  fun _ _ => decodeLine_wellFormed

end Sys2Proof.Machine
end

section
/-! SUPPORT. The invariant taken apart: the encoder's registers, the byte memories, and the receive side, whose ranges hold
also between the hand-overs of one tick while its positions hold at the end of a step only. -/

namespace Sys2Proof.Machine

/-- A byte memory in canonical form whose addresses are below `n`. -/
structure Memory.Ok (n : Nat) (m : Memory) : Prop where
  wf    : Memory.wf m = true
  range : ∀ c ∈ m, c.1 < n

theorem Memory.Ok.write {n a : Nat} {m : Memory} (h : Memory.Ok n m) (ha : a < n) (v : Byte) :
    Memory.Ok n (Memory.write m a v) where
  wf := Memory.wf_write m a v h.wf
  range c hc := by
    rcases Memory.mem_write m a v c hc with rfl | hc
    · exact ha
    · exact h.range c hc

theorem Memory.Ok.writeList {n a : Nat} {m : Memory} {vs : List Byte} (h : Memory.Ok n m) (ha : a + vs.length ≤ n) :
    Memory.Ok n (Memory.writeList m a vs) where
  wf := Memory.wf_writeList m a vs h.wf
  range c hc := by
    rcases Memory.mem_writeList m a vs c hc with ⟨_, hlt⟩ | hc
    · omega
    · exact h.range c hc

theorem Memory.Ok.storeAll {m : Memory} (h : Memory.Ok 255 m) (l : List (Fin 255 × Byte)) :
    Memory.Ok 255 (Memory.storeAll m l) where
  wf := Memory.wf_storeAll m l h.wf
  range c hc := (Memory.mem_storeAll m l c hc).elim id (h.range c)

/-- The encoder's registers (R21 to R28, R41). -/
structure TxInv (x : Tx) : Prop where
  k_le       : x.k.toNat ≤ x.len.toNat + 4
  busy       : x.busy = true ↔ x.phase ≠ .idle
  result     : x.busy = true → x.result = .none
  timer_idle : x.phase = .idle → x.timer = 0
  timer_high : x.phase = .high → 1 ≤ x.timer.toNat ∧ x.timer.toNat ≤ 800
  timer_gap  : x.phase = .gap → 1 ≤ x.timer.toNat ∧ x.timer.toNat ≤ 600

/-- The decoder's registers (R36 to R39, R42). -/
structure MdInv (m : Md) : Prop where
  idle        : m.busy = false ↔ m.state = .rxIdle
  left        : m.state ≠ .done ∧ m.state ≠ .failed
  idx_le      : m.idx.toNat ≤ m.len.toNat
  early       : m.state = .seekingHeader ∨ m.state = .readingSync ∨ m.state = .readingLength → m.idx = 0
  payload_idx : m.state = .readingPayload → m.idx.toNat < m.len.toNat
  payload_cap : m.state = .readingPayload → m.len.toNat ≤ m.cap.toNat
  result      : m.busy = true → m.result = .none
  some        : ∀ n, m.result = .some n → n = m.len ∧ n.toNat ≤ m.cap.toNat

/-- The ranges of the classifier's registers (R31, R32). -/
structure PwcRanges (p : Pwc) : Prop where
  dur_step : p.dur.toNat % 10 = 0
  dur_le   : p.dur.toNat ≤ 2000
  poll_le  : p.poll.toNat ≤ 9

/-- What holds of the receive side also between the hand-overs of one tick (R227). -/
structure RxRanges (s : State) : Prop where
  pwc        : PwcRanges s.pwc
  zeroRun_le : s.bfa.zeroRun.toNat ≤ 24
  nbits_le   : s.bfa.nbits.toNat ≤ 8
  md_busy    : s.md.busy = true ↔ s.call = .receive
  md         : MdInv s.md
  rxbuf      : Memory.Ok 511 s.rxbuf

/-- The position of the bit being read: a header search is short of its run, a byte of its eight bits (R33, R35). -/
structure BitPosition (c : RxCall) (b : Bfa) (m : Md) : Prop where
  seek : c = .seekHeader ∨ m.state = .seekingHeader → b.zeroRun.toNat < 24
  byte : c = .readByte ∨ (c = .receive ∧ m.state ≠ .seekingHeader) → b.nbits.toNat < 8

/-- The receive side at the end of a step: its ranges and its positions. -/
structure RxInv (s : State) : Prop extends RxRanges s where
  bit          : BitPosition s.call s.bfa s.md
  dur_counting : s.pwc.phase = .countHigh → s.pwc.dur.toNat < 2000
  due_counting : s.pwc.due = true → s.pwc.phase = .countHigh
  phase_call   : s.pwc.phase = .idle ↔ s.call = .none

/-- The parts are the whole. -/
theorem inv_iff (s : State) : Inv s ↔ TxInv s.tx ∧ Memory.Ok 255 s.txbuf ∧ RxInv s := by
  constructor
  · intro h
    have hmd : MdInv s.md :=
      ⟨h.md_idle, h.md_left, h.idx_le, h.md_early, h.payload_idx, h.payload_cap, h.md_result, h.md_some⟩
    have hranges : RxRanges s :=
      ⟨⟨h.dur_step, h.dur_le, h.poll_le⟩, h.zeroRun_le, h.nbits_le, h.md_busy, hmd, ⟨h.rxbuf_wf, h.rxbuf_range⟩⟩
    exact ⟨⟨h.k_le, h.tx_busy, h.tx_result, h.timer_idle, h.timer_high, h.timer_gap⟩, ⟨h.txbuf_wf, h.txbuf_range⟩,
      ⟨hranges, ⟨h.seek_run, h.byte_bits⟩, h.dur_counting, h.due_counting, h.phase_call⟩⟩
  · rintro ⟨htx, hbuf, hrx⟩
    exact {
      txbuf_wf := hbuf.wf, txbuf_range := hbuf.range, rxbuf_wf := hrx.rxbuf.wf, rxbuf_range := hrx.rxbuf.range
      k_le := htx.k_le, tx_busy := htx.busy, tx_result := htx.result
      timer_idle := htx.timer_idle, timer_high := htx.timer_high, timer_gap := htx.timer_gap
      dur_step := hrx.pwc.dur_step, dur_le := hrx.pwc.dur_le, dur_counting := hrx.dur_counting
      poll_le := hrx.pwc.poll_le, due_counting := hrx.due_counting, phase_call := hrx.phase_call
      zeroRun_le := hrx.zeroRun_le, seek_run := hrx.bit.seek, nbits_le := hrx.nbits_le, byte_bits := hrx.bit.byte
      md_busy := hrx.md_busy, md_idle := hrx.md.idle, md_left := hrx.md.left, idx_le := hrx.md.idx_le
      md_early := hrx.md.early, payload_idx := hrx.md.payload_idx, payload_cap := hrx.md.payload_cap
      md_result := hrx.md.result, md_some := hrx.md.some }

/-- The receive side's part speaks of the receiver's registers and its memory only. -/
theorem RxInv.congr {s t : State} (h : RxInv s) (hpwc : t.pwc = s.pwc) (hbfa : t.bfa = s.bfa) (hmd : t.md = s.md)
    (hcall : t.call = s.call) (hbuf : t.rxbuf = s.rxbuf) : RxInv t := by
  obtain ⟨⟨h1, h2, h3, h4, h5, h6⟩, h7, h8, h9, h10⟩ := h
  constructor
  · constructor <;> simpa only [hpwc, hbfa, hmd, hcall, hbuf]
  all_goals simpa only [hpwc, hbfa, hmd, hcall, hbuf]

/-- An operation that leaves the receiver alone keeps its part. -/
theorem RxInv.of_sameRx {s t : State} (h : RxInv s) (hs : SameRx s t) : RxInv t := by
  obtain ⟨hpwc, hbfa, hmd, hcall, hbuf, -⟩ := hs
  exact h.congr hpwc hbfa hmd hcall hbuf

/-- An operation that leaves the receiver alone keeps the invariant where it keeps the encoder's part. -/
theorem Inv.of_sameRx {s t : State} (h : Inv s) (hs : SameRx s t) (htx : TxInv t.tx) (hbuf : Memory.Ok 255 t.txbuf) :
    Inv t :=
  (inv_iff t).2 ⟨htx, hbuf, ((inv_iff s).1 h).2.2.of_sameRx hs⟩

/-- An operation that leaves the encoder alone keeps the invariant where it keeps the receiver's part. -/
theorem Inv.of_sameTx {s t : State} (h : Inv s) (hs : SameTx s t) (hrx : RxInv t) : Inv t := by
  obtain ⟨htx, -, hbuf, -⟩ := hs
  obtain ⟨hstx, hsbuf, -⟩ := (inv_iff s).1 h
  exact (inv_iff t).2 ⟨htx ▸ hstx, hbuf ▸ hsbuf, hrx⟩

/-! ### What the decoder's registers can do -/

/-- R42: the moves of the decoder's registers `m` at one hand-over, where `b` is the assembler afterwards. -/
inductive DecoderMove (m : Md) (b : Bfa) : Md → Prop where
  | stays : DecoderMove m b m
  | headerFound (hs : m.state = .seekingHeader) (hz : b.zeroRun.toNat = 24) :
      DecoderMove m b { m with state := .readingSync }
  | syncRead (hs : m.state = .readingSync) : DecoderMove m b { m with state := .readingLength }
  | lengthRead (n : BitVec 8) (hs : m.state = .readingLength) (hn : 0 < n.toNat) (hcap : n.toNat ≤ m.cap.toNat) :
      DecoderMove m b { m with len := n, idx := 0, state := .readingPayload }
  | lengthZero (hs : m.state = .readingLength) :
      DecoderMove m b { m with len := 0, idx := 0, busy := false, state := .rxIdle, result := .some 0 }
  | byteRead (hs : m.state = .readingPayload) (hlt : m.idx.toNat + 1 < m.len.toNat) :
      DecoderMove m b { m with idx := m.idx + 1 }
  | lastByteRead (hs : m.state = .readingPayload) (hlast : m.idx + 1 = m.len) :
      DecoderMove m b { m with idx := m.idx + 1, busy := false, state := .rxIdle, result := .some m.len }
  | failed (n : BitVec 8) (hs : m.state = .readingSync ∨ m.state = .readingLength ∨ m.state = .readingPayload)
      (hn : m.idx.toNat ≤ n.toNat) :
      DecoderMove m b { m with len := n, busy := false, state := .rxIdle, result := .noFrame }

/-- A payload index below the length goes up without overflow. -/
theorem toNat_add_one_of_lt {i n : BitVec 8} (h : i.toNat < n.toNat) : (i + 1).toNat = i.toNat + 1 := by
  bv_omega

/-- Outside `RX_IDLE` the decoder is busy. -/
theorem MdInv.busy_of_state {m : Md} (h : MdInv m) (hs : m.state ≠ .rxIdle) : m.busy = true := by
  rw [← Bool.not_eq_false, h.idle]
  exact hs

/-- Every move keeps the ranges of the decoder's registers. -/
theorem DecoderMove.mdInv {m m' : Md} {b : Bfa} (hmove : DecoderMove m b m') (h : MdInv m) : MdInv m' := by
  cases hmove with
  | stays => exact h
  | headerFound hs _ =>
    have hbusy := h.busy_of_state (by simp [hs])
    have hidx := h.early (.inl hs)
    exact ⟨by simp [hbusy], by simp, h.idx_le, fun _ => hidx, by simp, by simp, h.result, h.some⟩
  | syncRead hs =>
    have hbusy := h.busy_of_state (by simp [hs])
    have hidx := h.early (.inr (.inl hs))
    exact ⟨by simp [hbusy], by simp, h.idx_le, fun _ => hidx, by simp, by simp, h.result, h.some⟩
  | lengthRead n hs hn hcap =>
    have hbusy := h.busy_of_state (by simp [hs])
    exact ⟨by simp [hbusy], by simp, Nat.zero_le _, by simp, fun _ => hn, fun _ => hcap, h.result,
      by simp [h.result hbusy]⟩
  | lengthZero hs => exact ⟨by simp, by simp, le_rfl, by simp, by simp, by simp, by simp, by simp⟩
  | byteRead hs hlt =>
    have hidx := toNat_add_one_of_lt (Nat.lt_of_succ_lt hlt)
    refine ⟨h.idle, h.left, ?_, by simp [hs], fun _ => ?_, h.payload_cap, h.result, h.some⟩
    · simp only [hidx]; omega
    · simpa only [hidx] using hlt
  | lastByteRead hs hlast =>
    exact ⟨by simp, by simp, (congrArg BitVec.toNat hlast).le, by simp, by simp, by simp, by simp,
      by simpa using h.payload_cap hs⟩
  | failed n hs hn => exact ⟨by simp, by simp, hn, by simp, by simp, by simp, by simp, by simp⟩

/-- What the receive side of a step ends with, from the decoder's registers `m` and the pulse `d` before it: the ranges and
positions, one move of the decoder, and `rx_done` where that move ended a `RECEIVE` (R51). -/
structure ChainStep (m : Md) (d : Bool) (t : State) : Prop where
  inv  : RxInv t
  move : DecoderMove m t.bfa t.md
  done : t.out.rxDone = (d || (m.busy && !t.md.busy))

/-- The receive side when a measurement has returned and what called it goes on (R160, R227). -/
structure AtReturn (s : State) : Prop extends RxRanges s where
  phase : s.pwc.phase = .idle
  due   : s.pwc.due = false
  call  : s.call ≠ .none

/-- Nothing of the decoder has moved. -/
theorem ChainStep.stays {s : State} {m : Md} {d : Bool} (h : RxInv s) (hm : s.md = m) (hd : s.out.rxDone = d) :
    ChainStep m d s := by
  subst hm hd
  exact ⟨h, .stays, by simp⟩

/-! ### The ways a hand-over ends -/

/-- An operation started alone returns. -/
theorem endCall_step {s : State} (h : AtReturn s) (hc : s.call ≠ .receive) :
    ChainStep s.md s.out.rxDone (endCall s) := by
  have hbusy : s.md.busy = false := by simpa [← h.md_busy] using hc
  have hstate : s.md.state = .rxIdle := h.md.idle.1 hbusy
  have hranges : RxRanges (endCall s) :=
    ⟨h.pwc, h.zeroRun_le, h.nbits_le, by simp [hbusy], h.md, h.rxbuf⟩
  refine .stays ⟨hranges, ⟨by simp [hstate], by simp⟩, ?_, ?_, ?_⟩ rfl rfl
  · simp [h.phase]
  · simp [h.due]
  · simp [h.phase]

/-- The next measurement starts, where the bit to be read is in its place. -/
theorem beginMeasure_step {s : State} {m : Md} {d : Bool} (h : RxRanges s) (hc : s.call ≠ .none)
    (hbit : BitPosition s.call s.bfa s.md) (hmove : DecoderMove m s.bfa s.md)
    (hd : s.out.rxDone = (d || (m.busy && !s.md.busy))) : ChainStep m d (beginMeasure s) := by
  refine ⟨⟨⟨⟨h.pwc.dur_step, h.pwc.dur_le, h.pwc.poll_le⟩, h.zeroRun_le, h.nbits_le, h.md_busy, h.md, h.rxbuf⟩,
    hbit, ?_, ?_, ?_⟩, hmove, hd⟩
  · simp
  · simp
  · simp [hc]

/-- The next byte of a `RECEIVE` is begun: the decoder has moved on and is neither idle nor seeking. -/
theorem beginByte_step {s u : State} (h : AtReturn s) (hc : s.call = .receive)
    (hpwc : u.pwc = s.pwc) (hz : u.bfa.zeroRun = s.bfa.zeroRun) (hcall : u.call = s.call)
    (hbuf : Memory.Ok 511 u.rxbuf) (hout : u.out.rxDone = s.out.rxDone) (hbusy : u.md.busy = s.md.busy)
    (hseek : u.md.state ≠ .seekingHeader) (hmove : DecoderMove s.md (beginByte u).bfa u.md) :
    ChainStep s.md s.out.rxDone (beginByte u) := by
  refine beginMeasure_step ⟨?_, ?_, by simp, ?_, hmove.mdInv h.md, hbuf⟩ ?_ ⟨?_, by simp⟩ hmove ?_
  · simpa [hpwc] using h.pwc
  · simpa [hz] using h.zeroRun_le
  · simpa [hbusy, hcall] using h.md_busy
  · simp [hcall, hc]
  · simp [hcall, hc, hseek]
  · simp [hout, hbusy]

/-- A `RECEIVE` ends: the decoder has moved to `RX_IDLE` with a result (R219, R220). -/
theorem endReceive_step {s u : State} {r : RxResult} (h : AtReturn s) (hbusy : s.md.busy = true)
    (hpwc : u.pwc = s.pwc) (hbfa : u.bfa = s.bfa) (hbuf : Memory.Ok 511 u.rxbuf)
    (hmove : DecoderMove s.md s.bfa (endReceive r u).md) : ChainStep s.md s.out.rxDone (endReceive r u) := by
  refine ⟨⟨⟨?_, ?_, ?_, by simp, hmove.mdInv h.md, hbuf⟩, ⟨by simp, by simp⟩, ?_, ?_, ?_⟩, hbfa ▸ hmove, ?_⟩
  · simpa [hpwc] using h.pwc
  · simpa [hbfa] using h.zeroRun_le
  · simpa [hbfa] using h.nbits_le
  · simp [hpwc, h.phase]
  · simp [hpwc, h.due]
  · simp [hpwc, h.phase]
  · simp [hbusy]

/-! ### The hand-overs, from `RECEIVE` down to the measurement -/

/-- A `RECEIVE` that is not seeking the header waits for one of the three kinds of byte (R42). -/
theorem RxRanges.reading {s : State} (h : RxRanges s) (hc : s.call = .receive) (hs : s.md.state ≠ .seekingHeader) :
    s.md.state = .readingSync ∨ s.md.state = .readingLength ∨ s.md.state = .readingPayload := by
  have hidle : s.md.state ≠ .rxIdle := fun hidle => by simpa [h.md.idle.2 hidle] using h.md_busy.2 hc
  obtain ⟨hdone, hfailed⟩ := h.md.left
  cases hstate : s.md.state <;> simp_all only [ne_eq, not_true_eq_false, true_or, or_true]

/-- `RECEIVE` fails while it waits for a byte (R220). -/
theorem raiseNoFrame_step {s : State} (h : AtReturn s) (hc : s.call = .receive) (hs : s.md.state ≠ .seekingHeader) :
    ChainStep s.md s.out.rxDone (raiseNoFrame s) :=
  endReceive_step h (h.md_busy.2 hc) rfl rfl h.rxbuf (.failed s.md.len (h.reading hc hs) h.md.idx_le)

/-- The length byte, where it fits the capacity, as numbers (R216). -/
theorem le_of_not_lt_zext9 {cap : BitVec 9} {n : BitVec 8} (h : ¬cap < zext9 n) : n.toNat ≤ cap.toNat := by
  unfold zext9 at h
  bv_omega

/-- `RECEIVE` takes the result of a `READ_BYTE` (R214 to R220). -/
theorem recvByte_step {r : Option Byte} {s t : State} (h : AtReturn s) (hc : s.call = .receive)
    (hs : s.md.state ≠ .seekingHeader) (ht : recvByte r s = .next t) : ChainStep s.md s.out.rxDone t := by
  have hbusy : s.md.busy = true := h.md_busy.2 hc
  cases r with
  | none => cases ht; exact raiseNoFrame_step h hc hs
  | some b =>
    rcases h.reading hc hs with hsync | hlength | hpayload
    · simp only [recvByte, hsync] at ht
      split at ht <;> cases ht
      · exact beginByte_step h hc rfl rfl rfl h.rxbuf rfl rfl (by simp) (.syncRead hsync)
      · exact raiseNoFrame_step h hc hs
    · have hidx : s.md.idx = 0 := h.md.early (.inr (.inr hlength))
      simp only [recvByte, hlength] at ht
      split_ifs at ht with hcap hzero <;> cases ht
      · exact endReceive_step h hbusy rfl rfl h.rxbuf (.failed b (.inr (.inl hlength)) (by simp [hidx]))
      · subst hzero
        exact endReceive_step h hbusy rfl rfl h.rxbuf (.lengthZero hlength)
      · have hpos : 0 < b.toNat := Nat.pos_of_ne_zero fun h0 => hzero (BitVec.eq_of_toNat_eq h0)
        exact beginByte_step h hc rfl rfl rfl h.rxbuf rfl rfl (by simp)
          (.lengthRead b hlength hpos (le_of_not_lt_zext9 hcap))
    · simp only [recvByte, hpayload] at ht
      obtain ⟨u, hu, ht⟩ := andThen_eq_next.1 ht
      obtain ⟨hroom, rfl⟩ := storePayload_next hu
      have hlt := h.md.payload_idx hpayload
      have hidx := toNat_add_one_of_lt hlt
      have hbuf := h.rxbuf.write (a := s.md.idx.toNat) (by omega) b
      split at ht
      next hmore =>
        cases ht
        rw [logRx_md, BitVec.lt_def, hidx] at hmore
        exact beginByte_step h hc rfl rfl rfl hbuf rfl rfl hs (.byteRead hpayload hmore)
      next hmore =>
        cases ht
        rw [logRx_md, BitVec.lt_def] at hmore
        dsimp only at hmore
        exact endReceive_step h hbusy rfl rfl hbuf (.lastByteRead hpayload (BitVec.eq_of_toNat_eq (by omega)))

/-- `READ_BYTE` returns (R190). -/
theorem byteDone_step {r : Option Byte} {s t : State} (h : AtReturn s) (hs : s.md.state ≠ .seekingHeader)
    (ht : byteDone r s = .next t) : ChainStep s.md s.out.rxDone t := by
  have h' : AtReturn { s with handed := { s.handed with byte := some r } } := { h with }
  simp only [byteDone] at ht
  split at ht
  next hc => exact (recvByte_step h' hc hs ht :)
  next hc => cases ht; exact endCall_step h' hc

/-- One bit of a byte has been read (R190). -/
theorem byteBit_step {r : Option Bool} {s t : State} (h : AtReturn s) (hs : s.md.state ≠ .seekingHeader)
    (hcall : s.call ≠ .seekHeader) (hbits : s.bfa.nbits.toNat < 8) (ht : byteBit r s = .next t) :
    ChainStep s.md s.out.rxDone t := by
  cases r with
  | none => exact byteDone_step h hs ht
  | some v =>
    simp only [byteBit] at ht
    have hnext : (s.bfa.nbits + 1).toNat = s.bfa.nbits.toNat + 1 := by bv_omega
    have hranges : RxRanges { s with bfa := { s.bfa with
        shift := setBit s.bfa.shift s.bfa.nbits.toNat v, nbits := s.bfa.nbits + 1 } } :=
      { h with nbits_le := by simp only [hnext]; omega }
    split at ht
    next hmore =>
      cases ht
      exact beginMeasure_step hranges h.call ⟨by simp [hs, hcall], fun _ => hmore⟩ .stays (by simp)
    next => exact (byteDone_step ⟨hranges, h.phase, h.due, h.call⟩ hs ht :)

/-- A header search has seen its run: it returns, or the `RECEIVE` goes on to the sync byte (R199, R213). -/
theorem seekDone_step {s : State} (h : AtReturn s) (hrun : s.bfa.zeroRun.toNat = 24)
    (hcall : s.call = .seekHeader ∨ s.call = .receive ∧ s.md.state = .seekingHeader) :
    ChainStep s.md s.out.rxDone (seekDone s) := by
  rcases hcall with hc | ⟨hc, hseek⟩
  · simp only [seekDone, hc]
    exact endCall_step h (by simp [hc])
  · have hgoes : seekDone s = beginByte { s with md := { s.md with state := .readingSync } } := by simp [seekDone, hc]
    rw [hgoes]
    exact beginByte_step h hc rfl rfl rfl h.rxbuf rfl rfl (by simp) (.headerFound hseek hrun)

/-- One bit of a header search has been read (R196 to R199). -/
theorem seekBit_step {r : Option Bool} {s t : State} (h : AtReturn s) (hrun : s.bfa.zeroRun.toNat < 24)
    (hcall : s.call = .seekHeader ∨ s.call = .receive ∧ s.md.state = .seekingHeader) (ht : seekBit r s = .next t) :
    ChainStep s.md s.out.rxDone t := by
  simp only [seekBit] at ht
  generalize hz : (if r = some false then s.bfa.zeroRun + 1 else 0) = z at ht
  have hz24 : z.toNat ≤ 24 := by
    subst hz
    split <;> bv_omega
  have hranges : RxRanges { s with bfa := { s.bfa with zeroRun := z } } := { h with zeroRun_le := hz24 }
  split at ht <;> cases ht
  next hmore =>
    refine beginMeasure_step hranges h.call ⟨fun _ => hmore, fun hbyte => ?_⟩ .stays (by simp)
    rcases hcall with hseek | ⟨hrec, hseek⟩ <;> simp_all
  next hfull =>
    have hreturn : AtReturn { s with bfa := { s.bfa with zeroRun := z } } := ⟨hranges, h.phase, h.due, h.call⟩
    exact (seekDone_step hreturn (le_antisymm hz24 (not_lt.1 hfull)) hcall :)

/-- `READ_BIT` returns (R170). -/
theorem bitDone_step {r : Option Bool} {s t : State} (h : AtReturn s) (hbit : BitPosition s.call s.bfa s.md)
    (hcall : s.call ≠ .measurePulse) (ht : bitDone r s = .next t) : ChainStep s.md s.out.rxDone t := by
  have h' : AtReturn { s with handed := { s.handed with bit := some r } } := { h with }
  have hidle (hc : s.call ≠ .receive) : s.md.state ≠ .seekingHeader := by
    have hbusy : s.md.busy = false := by simpa [← h.md_busy] using hc
    simp [h.md.idle.1 hbusy]
  simp only [bitDone] at ht
  split at ht
  next hc => cases ht; exact endCall_step h' (by simp [hc])
  next hc => exact (seekBit_step h' (hbit.seek (.inl hc)) (.inl hc) ht :)
  next hc =>
    exact (byteBit_step h' (hidle (by simp [hc])) (by simp [hc]) (hbit.byte (.inl hc)) ht :)
  next hc =>
    split at ht
    next hs => exact (seekBit_step h' (hbit.seek (.inr hs)) (.inr ⟨hc, hs⟩) ht :)
    next hs => exact (byteBit_step h' hs (by simp [hc]) (hbit.byte (.inr ⟨hc, hs⟩)) ht :)
  next hc => exact absurd hc hcall
  next hc => exact absurd hc h.call

/-- `MEASURE_PULSE` returns, and what called it goes on (R160, R227). -/
theorem measDone_step {m : Meas} {s t : State} (h : RxRanges s) (hc : s.call ≠ .none)
    (hbit : BitPosition s.call s.bfa s.md) (ht : measDone m s = .next t) : ChainStep s.md s.out.rxDone t := by
  have h' : AtReturn { s with
      pwc := { s.pwc with phase := .idle, due := false }, handed := { s.handed with meas := some m } } :=
    ⟨{ h with pwc := ⟨h.pwc.dur_step, h.pwc.dur_le, h.pwc.poll_le⟩ }, rfl, rfl, hc⟩
  simp only [measDone] at ht
  split at ht
  next hnone => exact absurd hnone hc
  next halone => cases ht; exact endCall_step h' (by simp [halone])
  next hpulse =>
    cases m with
    | ok d =>
      have hcls : AtReturn (handCls (.ok d) { s with
          pwc := { s.pwc with phase := .idle, due := false }, handed := { s.handed with meas := some (.ok d) } }) :=
        { h' with }
      exact (bitDone_step hcls hbit hpulse ht :)
    | err e => exact (bitDone_step h' hbit hpulse ht :)

end Sys2Proof.Machine
end

section
/-! SUPPORT. The receive side at the trace level and in a tick: every read of the pin leads to one step of the chain, or to
two in the one tick where a measurement ends and the next one makes its first read (R172). -/

namespace Sys2Proof.Machine

/-- Where a call is in progress a measurement's return is a step of the chain. -/
theorem RxInv.measDone_step {m : Meas} {s t : State} (h : RxInv s) (hc : s.call ≠ .none) (ht : measDone m s = .next t) :
    ChainStep s.md s.out.rxDone t :=
  Machine.measDone_step h.toRxRanges hc h.bit ht

/-- A measurement counts only while a call is in progress. -/
theorem RxInv.call_of_phase {s : State} (h : RxInv s) (hp : s.pwc.phase ≠ .idle) : s.call ≠ .none :=
  fun hc => hp (h.phase_call.2 hc)

/-- A duration below the cap goes up by ten without overflow, and stays a multiple of ten (R162, R163). -/
theorem PwcRanges.dur_add {p : Pwc} (h : PwcRanges p) (hlt : p.dur.toNat < 2000) :
    (p.dur + BitVec.ofNat 11 pollStep).toNat = p.dur.toNat + 10 ∧ p.dur.toNat + 10 ≤ 2000 := by
  have hstep := h.dur_step
  constructor
  · simp only [BitVec.toNat_add, BitVec.toNat_ofNat, pollStep]
    omega
  · omega

/-- The classifier's registers change inside their ranges while a measurement goes on. -/
theorem RxInv.setPwc {s t : State} (h : RxInv s) (hc : s.call ≠ .none) (hranges : PwcRanges t.pwc)
    (hdur : t.pwc.phase = .countHigh → t.pwc.dur.toNat < 2000) (hdue : t.pwc.due = true → t.pwc.phase = .countHigh)
    (hphase : t.pwc.phase ≠ .idle) (hbfa : t.bfa = s.bfa) (hmd : t.md = s.md) (hcall : t.call = s.call)
    (hbuf : t.rxbuf = s.rxbuf) : RxInv t := by
  obtain ⟨⟨-, h2, h3, h4, h5, h6⟩, h7, -, -, -⟩ := h
  refine ⟨⟨hranges, ?_, ?_, ?_, ?_, ?_⟩, ?_, hdur, hdue, by simp [hphase, hcall, hc]⟩ <;>
    simpa only [hbfa, hmd, hcall, hbuf]

/-- One pin call keeps the receive side's part (R160). -/
theorem pinCall_rxInv {a : PinAnswer} {s t : State} (h : RxInv s) (ht : pinCall a s = .next t) : RxInv t := by
  cases hp : s.pwc.phase with
  | idle => simp only [pinCall, hp] at ht; cases ht; exact h
  | waitHigh =>
    have hc := h.call_of_phase (by simp [hp])
    simp only [pinCall, hp] at ht
    split at ht
    · exact (RxInv.measDone_step (s := logRx _ s) (h.congr rfl rfl rfl rfl rfl) hc ht).inv
    · cases ht; exact h.congr rfl rfl rfl rfl rfl
    · cases ht
      exact h.setPwc hc ⟨by simp, by simp, h.pwc.poll_le⟩ (by simp) (by simp) (by simp) rfl rfl rfl rfl
  | countHigh =>
    have hc := h.call_of_phase (by simp [hp])
    obtain ⟨hdur, hle⟩ := h.pwc.dur_add (h.dur_counting hp)
    have hranges : PwcRanges { s.pwc with dur := s.pwc.dur + BitVec.ofNat 11 pollStep, due := true } :=
      ⟨by simp only [hdur]; have := h.pwc.dur_step; omega, by simp only [hdur]; exact hle, h.pwc.poll_le⟩
    simp only [pinCall, hp] at ht
    split at ht
    · exact (RxInv.measDone_step (s := logRx _ s) (h.congr rfl rfl rfl rfl rfl) hc ht).inv
    · exact (RxInv.measDone_step (s := logRx _ s) (h.congr rfl rfl rfl rfl rfl) hc ht).inv
    · split at ht
      · exact (Machine.measDone_step (s := { s with pwc := _, rxLog := _ }) { h.toRxRanges with pwc := hranges } hc h.bit
          ht).inv
      · next hmore =>
        cases ht
        exact h.setPwc hc hranges (fun _ => not_le.1 hmore) (fun _ => hp) (by simp [hp]) rfl rfl rfl rfl

/-- A run on listed answers keeps the receive side's part, by induction on the answers (R161, R227). -/
theorem runCalls_rxInv (as : List PinAnswer) {s t : State} (h : RxInv s) (ht : runCalls as s = .next t) : RxInv t := by
  induction as generalizing s with
  | nil => cases ht; exact h.congr rfl rfl rfl rfl rfl
  | cons a as ih =>
    simp only [runCalls] at ht
    split at ht
    · cases ht; exact h.congr rfl rfl rfl rfl rfl
    · obtain ⟨u, hu, ht⟩ := andThen_eq_next.1 ht
      exact ih (pinCall_rxInv h hu) ht

/-- An accepted `RECEIVE` starts inside the ranges, in its first position (R211). -/
theorem acceptReceive_rxInv (cap : BitVec 9) {s : State} (h : RxInv s) : RxInv (acceptReceive cap s) := by
  have hmd : MdInv (acceptReceive cap s).md := by constructor <;> simp
  have hranges : RxRanges (acceptReceive cap s) :=
    ⟨⟨by simp, by simp, h.pwc.poll_le⟩, by simp, by simp, by simp, hmd, h.rxbuf⟩
  exact ⟨hranges, ⟨by simp, by simp⟩, by simp, by simp, by simp⟩

/-- A free receiver with an operation started alone is inside its ranges (log 15). -/
theorem RxRanges.startAlone {s : State} {c : RxCall} (h : RxRanges s) (hfree : rxFree s = true) (hc : c ≠ .receive) :
    RxRanges { s with call := c } :=
  { h with md_busy := by simp [((rxFree_iff s).1 hfree).1, hc] }

/-- A line that starts a receive operation alone keeps the receive side's part where the operation's first measurement
starts inside it. -/
theorem startAlone_rxInv {c : RxCall} {begin_ : State → State} {s t : State} (h : RxInv s)
    (hstart : rxFree s = true → RxInv (begin_ { s with call := c })) (ht : startAlone c begin_ s = .next t) : RxInv t := by
  cases hfree : rxFree s with
  | true =>
    rw [startAlone_free _ _ hfree] at ht
    exact runCalls_rxInv _ (hstart hfree) ht
  | false => rw [startAlone_busy _ _ hfree] at ht; cases ht; exact h

/-- A measurement or a bit read that is started alone (R160, R170): no header search and no byte is in progress. -/
theorem beginMeasure_alone_rxInv {c : RxCall} {s : State} (h : RxInv s) (hfree : rxFree s = true)
    (hc : c = .measurePulse ∨ c = .readBit) : RxInv (beginMeasure { s with call := c }) := by
  have hidle := h.md.idle.1 ((rxFree_iff s).1 hfree).1
  refine (beginMeasure_step (h.toRxRanges.startAlone hfree ?_) ?_ ⟨?_, ?_⟩ .stays (d := s.out.rxDone) (by simp)).inv <;>
    rcases hc with rfl | rfl <;> simp [hidle]

/-- A byte read that is started alone begins with its first bit (R190). -/
theorem beginByte_alone_rxInv {s : State} (h : RxInv s) (hfree : rxFree s = true) :
    RxInv (beginByte { s with call := .readByte }) := by
  have hidle := h.md.idle.1 ((rxFree_iff s).1 hfree).1
  have hranges := h.toRxRanges.startAlone (c := .readByte) hfree (by simp)
  exact (beginMeasure_step (s := { s with call := .readByte, bfa := { s.bfa with shift := 0, nbits := 0 } })
    { hranges with nbits_le := by simp } (by simp) ⟨by simp [hidle], by simp⟩ .stays (d := s.out.rxDone) (by simp)).inv

/-- A header search that is started alone begins with an empty run (R196). -/
theorem beginSeek_alone_rxInv {s : State} (h : RxInv s) (hfree : rxFree s = true) :
    RxInv (beginSeek { s with call := .seekHeader }) := by
  have hranges := h.toRxRanges.startAlone (c := .seekHeader) hfree (by simp)
  exact (beginMeasure_step (s := { s with call := .seekHeader, bfa := { s.bfa with zeroRun := 0 } })
    { hranges with zeroRun_le := by simp } (by simp) ⟨by simp, by simp⟩ .stays (d := s.out.rxDone) (by simp)).inv

/-- A `RECEIVE` run by its line keeps the receive side's part (R210). -/
theorem execReceive_rxInv {cap : BitVec 9} {s t : State} (h : RxInv s) (ht : execReceive cap s = .next t) : RxInv t := by
  unfold execReceive at ht
  split at ht
  · exact runCalls_rxInv _ (acceptReceive_rxInv cap h) ht
  · cases ht; exact h

/-- A duration that occurs keeps the receive side's part, measured or not (R97). -/
theorem duration_rxInv {d : Nat} {s t : State} (h : RxInv s) (ht : duration d s = .next t) : RxInv t := by
  have hband : RxInv (handBand d s) := h.congr rfl rfl rfl rfl rfl
  unfold duration at ht
  split at ht
  · obtain ⟨u, hu, ht⟩ := andThen_eq_next.1 ht
    cases ht
    exact (runCalls_rxInv _ hband hu).congr rfl rfl rfl rfl rfl
  · cases ht; exact hband

/-- A duration that occurs leaves the encoder alone. -/
theorem duration_sameTx {d : Nat} {s t : State} (ht : duration d s = .next t) : SameTx s t := by
  unfold duration at ht
  split at ht
  · obtain ⟨u, hu, ht⟩ := andThen_eq_next.1 ht
    cases ht
    exact (SameTx.trans (by simp [SameTx]) (runCalls_sameTx _ hu)).trans (by simp [SameTx])
  · cases ht; simp [SameTx]

/-- A line that starts a receive operation alone leaves the encoder alone where its start does. -/
theorem startAlone_sameTx {c : RxCall} {begin_ : State → State} {s t : State}
    (hstart : SameTx s (begin_ { s with call := c })) (ht : startAlone c begin_ s = .next t) : SameTx s t := by
  unfold startAlone at ht
  split at ht
  · exact hstart.trans (runCalls_sameTx _ ht)
  · cases ht; rfl

/-- A `RECEIVE` run by its line leaves the encoder alone. -/
theorem execReceive_sameTx {cap : BitVec 9} {s t : State} (ht : execReceive cap s = .next t) : SameTx s t := by
  unfold execReceive at ht
  split at ht
  · exact SameTx.trans (by simp [SameTx]) (runCalls_sameTx _ ht)
  · cases ht; rfl

/-! ### The reads of a tick -/

/-- After a bit that is none, seeking goes on as before and every other call is over. -/
theorem bitDone_none {s t : State} (hc : s.call ≠ .none) (hm : s.call ≠ .measurePulse) (ht : bitDone none s = .next t) :
    t.call = .none ∨ t.md = s.md := by
  simp only [bitDone, seekBit, byteBit, byteDone, recvByte] at ht
  cases hcall : s.call <;> simp only [hcall] at ht
  case none => exact absurd hcall hc
  case measurePulse => exact absurd hcall hm
  case readBit => cases ht; exact .inl rfl
  case readByte => cases ht; exact .inl rfl
  case seekHeader => cases ht; exact .inr rfl
  case receive =>
    split at ht <;> cases ht
    · exact .inr rfl
    · exact .inl rfl

/-- A measurement that gives no bit ends the call or leaves the decoder where it is, seeking. -/
theorem measDone_invalid {m : Meas} {s t : State} (hc : s.call ≠ .none) (hbit : bitOfMeas m = none)
    (ht : measDone m s = .next t) : t.call = .none ∨ t.md = s.md := by
  simp only [measDone, hbit] at ht
  split at ht
  next hnone => exact absurd hnone hc
  next => cases ht; exact .inl rfl
  next hpulse => simpa using bitDone_none (by simpa using hc) (by simpa using hpulse) ht

/-- A measurement that the cap ends gives no bit (R164, R166). -/
theorem bitOfMeas_cap {d : BitVec 11} (h : 2000 ≤ d.toNat) : bitOfMeas (.ok d) = none := by
  have h1 : ¬d.toNat < 100 := by omega
  have h2 : ¬d.toNat < 180 := by omega
  have h3 : ¬d.toNat ≤ 500 := by omega
  have h4 : ¬d.toNat ≤ 900 := by omega
  simp [bitOfMeas, classify, h1, h2, h3, h4, bitOfCls]

/-- A phase 1 read without an error moves the classifier only: it waits on, or counts (R172). -/
theorem phase1Read_sample {p : PinSample} {s t : State} (h : RxInv s) (hp : s.pwc.phase = .waitHigh)
    (herr : p.err = none) (ht : phase1Read p s = .next t) : RxInv t ∧ t.bfa = s.bfa ∧ t.md = s.md ∧ t.out = s.out := by
  have hc := h.call_of_phase (by simp [hp])
  simp only [phase1Read, herr] at ht
  split at ht <;> cases ht
  · exact ⟨h.congr rfl rfl rfl rfl rfl, rfl, rfl, rfl⟩
  · exact ⟨h.setPwc hc ⟨by simp, by simp, by simp⟩ (by simp) (by simp) (by simp) rfl rfl rfl rfl, rfl, rfl, rfl⟩

/-- A phase 1 read that errs is the measurement's end (R169). -/
theorem phase1Read_err {p : PinSample} {e : PinErr} (s : State) (herr : p.err = some e) :
    phase1Read p s = measDone (.err e) (logRx (.pinIsLow (.err e)) s) := by
  simp [phase1Read, herr]

/-- A phase 1 read is at most one step of the chain, and that without a bit. -/
theorem phase1Read_step {p : PinSample} {s t : State} (h : RxInv s) (hp : s.pwc.phase = .waitHigh)
    (ht : phase1Read p s = .next t) : ChainStep s.md s.out.rxDone t ∧ (t.call = .none ∨ t.md = s.md) := by
  have hc := h.call_of_phase (by simp [hp])
  cases herr : p.err with
  | none =>
    obtain ⟨hinv, -, hmd, hout⟩ := phase1Read_sample h hp herr ht
    exact ⟨.stays hinv hmd (by rw [hout]), .inr hmd⟩
  | some e =>
    rw [phase1Read_err s herr] at ht
    have hlog : RxInv (logRx (.pinIsLow (.err e)) s) := h.congr rfl rfl rfl rfl rfl
    exact ⟨hlog.measDone_step hc ht, (measDone_invalid (s := logRx _ s) hc rfl ht :)⟩

/-- The first read of the next measurement, made in the tick that ended one, is still the one step of that tick: where it
errs, the measurement before it gave no bit and left the decoder where it was (R172, R301). -/
theorem readAgain_step {p : PinSample} {m : Md} {d : Bool} {s t : State} (h : ChainStep m d s)
    (herr : p.err ≠ none → s.call = .none ∨ s.md = m) (ht : readAgain p s = .next t) : ChainStep m d t := by
  unfold readAgain at ht
  split at ht
  next hwait =>
    simp only [Bool.and_eq_true, bne_iff_ne, ne_eq, beq_iff_eq] at hwait
    obtain ⟨hc, hp⟩ := hwait
    by_cases hnone : p.err = none
    · obtain ⟨hinv, hbfa, hmd, hout⟩ := phase1Read_sample h.inv hp hnone ht
      exact ⟨hinv, by rw [hbfa, hmd]; exact h.move, by rw [hmd, hout]; exact h.done⟩
    · have hmd : s.md = m := (herr hnone).resolve_left hc
      have hout : s.out.rxDone = d := by simpa [hmd] using h.done
      have hstep := (phase1Read_step h.inv hp ht).1
      rwa [hmd, hout] at hstep
  next => cases ht; exact h

/-- A measurement that counts on makes no other read in its tick. -/
theorem readAgain_counting {p : PinSample} {s : State} (hp : s.pwc.phase = .countHigh) : readAgain p s = .next s := by
  simp [readAgain, hp]

/-- A measurement that ends in a tick, with the next one's first read. -/
theorem measDone_readAgain_step {p : PinSample} {m : Meas} {s t : State} (h : RxRanges s) (hc : s.call ≠ .none)
    (hbit : BitPosition s.call s.bfa s.md) (herr : p.err ≠ none → bitOfMeas m = none)
    (ht : andThen (measDone m s) (readAgain p) = .next t) : ChainStep s.md s.out.rxDone t := by
  obtain ⟨u, hu, ht⟩ := andThen_eq_next.1 ht
  exact readAgain_step (measDone_step h hc hbit hu) (fun hne => measDone_invalid hc (herr hne) hu) ht

/-- A phase 2 read of a tick, with the next measurement's first read where it ends one (R172). -/
theorem phase2Read_readAgain_step {p : PinSample} {s t : State} (h : RxInv s) (hp : s.pwc.phase = .countHigh)
    (ht : andThen (phase2Read p s) (readAgain p) = .next t) : ChainStep s.md s.out.rxDone t := by
  have hc := h.call_of_phase (by simp [hp])
  have hlog (ev : RxEvent) : RxInv (logRx ev s) := h.congr rfl rfl rfl rfl rfl
  cases herr : p.err with
  | some e =>
    simp only [phase2Read, herr] at ht
    exact (measDone_readAgain_step (hlog _).toRxRanges hc h.bit (fun _ => rfl) ht :)
  | none =>
    cases hlevel : p.level with
    | lo =>
      simp only [phase2Read, herr, hlevel] at ht
      exact (measDone_readAgain_step (hlog _).toRxRanges hc h.bit (by simp [herr]) ht :)
    | hi =>
      simp only [phase2Read, herr, hlevel, andThen_next] at ht
      rw [readAgain_counting (by simp [hp])] at ht
      cases ht
      exact .stays (h.setPwc hc ⟨h.pwc.dur_step, h.pwc.dur_le, by simp⟩ h.dur_counting (by simp) (by simp [hp]) rfl rfl
        rfl rfl) rfl rfl

/-- A tick of phase 2 is at most one step of the chain (R172). -/
theorem countTick_step {p : PinSample} {s t : State} (h : RxInv s) (hp : s.pwc.phase = .countHigh)
    (ht : countTick p s = .next t) : ChainStep s.md s.out.rxDone t := by
  have hc := h.call_of_phase (by simp [hp])
  unfold countTick at ht
  split_ifs at ht with hdue hpoll
  · exact phase2Read_readAgain_step h hp ht
  · cases ht
    have hpred : (s.pwc.poll - 1).toNat ≤ 9 := by have := h.pwc.poll_le; bv_omega
    exact .stays (h.setPwc hc ⟨h.pwc.dur_step, h.pwc.dur_le, hpred⟩ h.dur_counting (fun _ => hp) (by simp [hp]) rfl rfl
      rfl rfl) rfl rfl
  · obtain ⟨hdur, hle⟩ := h.pwc.dur_add (h.dur_counting hp)
    have hranges : PwcRanges { s.pwc with dur := s.pwc.dur + BitVec.ofNat 11 pollStep } :=
      ⟨by simp only [hdur]; have := h.pwc.dur_step; omega, by simp only [hdur]; exact hle, h.pwc.poll_le⟩
    dsimp only at ht
    split at ht
    next hcap =>
      exact (measDone_readAgain_step (s := { s with pwc := { s.pwc with dur := _ } }) { h.toRxRanges with pwc := hranges }
        hc h.bit (fun _ => bitOfMeas_cap hcap) ht :)
    next hmore =>
      have hnext : RxInv { s with pwc := { s.pwc with dur := s.pwc.dur + BitVec.ofNat 11 pollStep } } :=
        h.setPwc hc hranges (fun _ => not_le.1 hmore) h.due_counting (by simp [hp]) rfl rfl rfl rfl
      exact (phase2Read_readAgain_step hnext hp ht :)

/-- The receiver's half of a tick in which no `RECEIVE` is accepted is at most one step of the chain. -/
theorem rxTick_step {h : HostIn} {p : PinSample} {s t : State} (hi : RxInv s) (hno : (h.rxStart && rxFree s) = false)
    (ht : rxTick h p s = .next t) : ChainStep s.md s.out.rxDone t := by
  simp only [rxTick, hno, Bool.false_eq_true, if_false] at ht
  split at ht
  · cases ht; exact .stays hi rfl rfl
  · split at ht
    · cases ht; exact .stays hi rfl rfl
    next hp => exact (phase1Read_step hi hp ht).1
    next hp => exact countTick_step hi hp ht

/-- The tick that accepts a `RECEIVE` leaves it seeking the header, whatever its first read answers (R211, R213). -/
theorem rxTick_accept {h : HostIn} {p : PinSample} {s t : State} (hi : RxInv s) (hyes : (h.rxStart && rxFree s) = true)
    (ht : rxTick h p s = .next t) :
    RxInv t ∧ t.md = (acceptReceive h.rxCapIn s).md ∧ t.out.rxDone = s.out.rxDone := by
  simp only [rxTick, hyes, if_true] at ht
  obtain ⟨hstep, hmd⟩ := phase1Read_step (acceptReceive_rxInv h.rxCapIn hi) rfl ht
  have hseeks : t.md = (acceptReceive h.rxCapIn s).md := by
    refine hmd.resolve_left fun hc => ?_
    have hmove := hstep.move
    have hbusy := hstep.inv.md_busy
    generalize t.md = m at hmove hbusy
    cases hmove <;> simp_all
  exact ⟨hstep.inv, hseeks, by simpa [hseeks] using hstep.done⟩

/-- The receiver's half of a tick keeps its part. -/
theorem rxTick_rxInv {h : HostIn} {p : PinSample} {s t : State} (hi : RxInv s) (ht : rxTick h p s = .next t) :
    RxInv t := by
  cases hyes : h.rxStart && rxFree s with
  | true => exact (rxTick_accept hi hyes ht).1
  | false => exact (rxTick_step hi hyes ht).inv

end Sys2Proof.Machine
end

section
/-! SUPPORT. The encoder at the trace level and in a tick; then the statements about the invariant: O41, O54, O55. -/

namespace Sys2Proof.Machine

/-! ### The trace level -/

/-- A drive call leaves the encoder's registers and memory alone. -/
theorem drive_tx (l : Level) (s : State) : (drive l s).1.tx = s.tx ∧ (drive l s).1.txbuf = s.txbuf := by
  cases h : nthDrive s 0 with
  | none => rw [drive_ok l s h]; exact ⟨rfl, rfl⟩
  | some e => rw [drive_err l s e h]; exact ⟨rfl, rfl⟩

/-- `SEND_BIT` leaves the encoder's registers and memory alone. -/
theorem sendBit_tx (b : Bool) (s : State) : (sendBit b s).1.tx = s.tx ∧ (sendBit b s).1.txbuf = s.txbuf := by
  cases h0 : nthDrive s 0 with
  | some e => rw [sendBit_err_high b s e h0]; exact ⟨rfl, rfl⟩
  | none =>
    cases h1 : nthDrive s 1 with
    | some e => rw [sendBit_err_low b s e h0 h1]; exact ⟨rfl, rfl⟩
    | none => rw [sendBit_ok b s h0 h1]; exact ⟨rfl, rfl⟩

/-- What the bytes of a frame keep: only the position moves, `tx.k` stays inside the frame, the memory stands (R134). -/
structure FramePosition (s t : State) : Prop where
  tx    : t.tx = { s.tx with k := t.tx.k, i := t.tx.i, cur := t.tx.cur }
  k_le  : t.tx.k.toNat ≤ t.tx.len.toNat + 4
  txbuf : t.txbuf = s.txbuf

theorem FramePosition.refl {s : State} (hk : s.tx.k.toNat ≤ s.tx.len.toNat + 4) : FramePosition s s :=
  ⟨rfl, hk, rfl⟩

theorem FramePosition.trans {s t u : State} (h : FramePosition s t) (h' : FramePosition t u) : FramePosition s u :=
  ⟨by rw [h'.tx, h.tx], h'.k_le, h'.txbuf.trans h.txbuf⟩

theorem FramePosition.len {s t : State} (h : FramePosition s t) : t.tx.len = s.tx.len := by
  rw [h.tx]

/-- A bit of a byte is sent: `tx.i` moves. -/
theorem sendBit_setTxI_position (b : Bool) (i : BitVec 3) {s : State} (hk : s.tx.k.toNat ≤ s.tx.len.toNat + 4) :
    FramePosition s (sendBit b (setTxI i s)).1 := by
  obtain ⟨htx, hbuf⟩ := sendBit_tx b (setTxI i s)
  exact ⟨by simp [htx], by simpa [htx] using hk, by simpa using hbuf⟩

/-- The bits of a byte are sent one after the other until one fails. -/
theorem sendBits_position (b : Byte) (is : List (BitVec 3)) {s : State} (hk : s.tx.k.toNat ≤ s.tx.len.toNat + 4) :
    FramePosition s (sendBits b is s).1 := by
  induction is generalizing s with
  | nil => exact .refl hk
  | cons i is ih =>
    have hbit := sendBit_setTxI_position (b.getLsbD i.toNat) i hk
    unfold sendBits
    rcases h : sendBit (b.getLsbD i.toNat) (setTxI i s) with ⟨s₁, _ | e⟩ <;> rw [h] at hbit
    · exact hbit.trans (ih hbit.k_le)
    · exact hbit

/-- A byte of the frame begins: `tx.k`, `tx.i` and `tx.cur` are set. -/
theorem loadByte_position {k : BitVec 9} {s : State} (hk : k.toNat ≤ s.tx.len.toNat + 4) :
    FramePosition s (loadByte k s) :=
  ⟨by simp, by simpa using hk, by simp⟩

/-- The bytes of the frame are sent one after the other until one fails. -/
theorem sendBytes_position (ks : List (BitVec 9)) {s : State} (hks : ∀ k ∈ ks, k.toNat ≤ s.tx.len.toNat + 4)
    (hk : s.tx.k.toNat ≤ s.tx.len.toNat + 4) : FramePosition s (sendBytes ks s).1 := by
  induction ks generalizing s with
  | nil => exact .refl hk
  | cons k ks ih =>
    have hload := loadByte_position (hks k (List.mem_cons_self ..))
    have hbyte := hload.trans (sendBits_position (loadByte k s).tx.cur bitIndices hload.k_le)
    unfold sendBytes sendByte
    rcases h : sendBits (loadByte k s).tx.cur bitIndices (loadByte k s) with ⟨s₁, _ | e⟩ <;> rw [h] at hbyte
    · exact hbyte.trans (ih (fun j hj => by rw [hbyte.len]; exact hks j (List.mem_cons_of_mem _ hj)) hbyte.k_le)
    · exact hbyte

/-- The byte numbers of a frame stop at `tx.len + 4` (R134). -/
theorem frameIndices_le {n : Nat} {k : BitVec 9} (hk : k ∈ frameIndices n) : k.toNat ≤ n + 4 := by
  simp only [frameIndices, frameOverheadBytes, List.mem_map, List.mem_range] at hk
  obtain ⟨j, hj, rfl⟩ := hk
  have hle : j % 2 ^ 9 ≤ j := Nat.mod_le ..
  simp only [BitVec.toNat_ofNat]
  omega

/-- The end of a `SEND` keeps the ranges where its timer is out (R136, R137). -/
theorem endSend_txInv (r : Option DrvErr) {s : State} (hk : s.tx.k.toNat ≤ s.tx.len.toNat + 4) (ht : s.tx.timer = 0) :
    TxInv (endSend r s).tx :=
  ⟨hk, by simp, by simp, fun _ => ht, by simp, by simp⟩

/-- An idle encoder is in no interval. -/
theorem TxInv.phase_idle {x : Tx} (h : TxInv x) (hb : x.busy = false) : x.phase = .idle := by
  by_contra hne
  simp [h.busy.2 hne] at hb

/-- A `SEND` accepted and run by its line ends inside the ranges, with the memory it found (R135 to R137). -/
theorem runSend_acceptSend_keeps (n : BitVec 8) {s : State} (h : TxInv s.tx) (hidle : s.tx.busy = false) :
    TxInv (runSend (acceptSend n s)).tx ∧ (runSend (acceptSend n s)).txbuf = s.txbuf := by
  have hphase := h.phase_idle hidle
  have hframe := sendBytes_position (frameIndices n.toNat) (s := acceptSend n s) (fun _ => frameIndices_le) (by simp)
  exact ⟨endSend_txInv _ hframe.k_le ((congrArg Tx.timer hframe.tx).trans (h.timer_idle hphase)), hframe.txbuf⟩

/-- The body of a `SEND` leaves the receiver alone. -/
theorem runSend_sameRx (s : State) : SameRx s (runSend s) :=
  (sendBytes_sameRx (frameIndices s.tx.len.toNat) s).trans (by simp [runSend, SameRx])

/-! ### A tick of the encoder -/

/-- What a due drive call makes of the encoder's registers (R140): the interval `p` with its timer, or the end with the
error; `u` is the state it is made in. -/
structure Drives (u : State) (p : TxPhase) (n : BitVec 10) (t : State) : Prop where
  ok  : nthDrive u 0 = none → t.tx = { u.tx with phase := p, timer := n } ∧ t.out.txDone = u.out.txDone
  err : ∀ e, nthDrive u 0 = some e →
    t.tx = { u.tx with phase := .idle, busy := false, result := .err e } ∧ t.out.txDone = true

theorem startBit_drives (s : State) :
    Drives s .high (BitVec.ofNat 10 (highTime (s.tx.cur.getLsbD s.tx.i.toNat))) (startBit s) where
  ok h := by simp [startBit, drive_ok _ _ h]
  err e h := by simp [startBit, drive_err _ _ e h]

theorem startGap_drives (s : State) : Drives s .gap (BitVec.ofNat 10 tGap) (startGap s) where
  ok h := by simp [startGap, drive_ok _ _ h]
  err e h := by simp [startGap, drive_err _ _ e h]

/-- The timer of the running interval goes down by one (R140). -/
def countDown (s : State) : State := { s with tx := { s.tx with timer := s.tx.timer - 1 } }

/-- The timer is out after the tick exactly where one tick is left. -/
theorem countDown_timer_iff (s : State) : (countDown s).tx.timer = 0 ↔ s.tx.timer.toNat = 1 := by
  unfold countDown
  bv_omega

theorem txTick_rests {h : HostIn} {s : State} (hb : s.tx.busy = false) (hs : h.txStart = false) : txTick h s = s := by
  simp [txTick, hb, hs]

theorem txTick_accepts {h : HostIn} {s : State} (hb : s.tx.busy = false) (hs : h.txStart = true) :
    txTick h s = startBit (loadByte 0 (acceptSend h.txLenIn s)) := by
  simp [txTick, hb, hs]

theorem txTick_high {h : HostIn} {s : State} (hb : s.tx.busy = true) (hp : s.tx.phase = .high) :
    txTick h s = if s.tx.timer.toNat = 1 then startGap (countDown s) else countDown s := by
  simp only [← countDown_timer_iff, txTick, countDown, hb, hp, if_true]

theorem txTick_gap {h : HostIn} {s : State} (hb : s.tx.busy = true) (hp : s.tx.phase = .gap) :
    txTick h s = if s.tx.timer.toNat = 1 then bitComplete (countDown s) else countDown s := by
  simp only [← countDown_timer_iff, txTick, countDown, hb, hp, if_true]

theorem bitComplete_nextBit {s : State} (hi : s.tx.i.toNat < 7) :
    bitComplete s = startBit (setTxI (s.tx.i + 1) s) := by
  simp [bitComplete, hi]

theorem bitComplete_nextByte {s : State} (hi : s.tx.i.toNat = 7) (hk : s.tx.k.toNat < s.tx.len.toNat + 4) :
    bitComplete s = startBit (loadByte (s.tx.k + 1) s) := by
  simp [bitComplete, hi, hk]

theorem bitComplete_ends {s : State} (hi : s.tx.i.toNat = 7) (hk : s.tx.k.toNat = s.tx.len.toNat + 4) :
    bitComplete s = endSend none s := by
  simp [bitComplete, hi, hk]

/-- The encoder after a tick of a `SEND`, the accepting one included: inside its ranges, and `tx_done` where the `SEND` has
ended, then with a result (R47). -/
structure SendTicked (t : State) : Prop where
  inv    : TxInv t.tx
  done   : t.out.txDone = !t.tx.busy
  result : t.tx.busy = false → t.tx.result ≠ .none

theorem SendTicked.ended {t : State} (h : SendTicked t) (hd : t.out.txDone = true) :
    t.tx.busy = false ∧ t.tx.result ≠ .none := by
  have hb : t.tx.busy = false := by simpa [h.done] using hd
  exact ⟨hb, h.result hb⟩

/-- A `SEND` in progress at the end of an interval: its timer is out, no result, no pulse yet. -/
structure IntervalOver (u : State) : Prop where
  k_le   : u.tx.k.toNat ≤ u.tx.len.toNat + 4
  busy   : u.tx.busy = true
  result : u.tx.result = .none
  timer  : u.tx.timer = 0
  done   : u.out.txDone = false

theorem Drives.sendTicked {u t : State} {p : TxPhase} {n : BitVec 10} (h : Drives u p n t) (hu : IntervalOver u)
    (hn : p = .high ∧ 1 ≤ n.toNat ∧ n.toNat ≤ 800 ∨ p = .gap ∧ 1 ≤ n.toNat ∧ n.toNat ≤ 600) : SendTicked t := by
  cases hd : nthDrive u 0 with
  | none =>
    obtain ⟨htx, hout⟩ := h.ok hd
    have hinv : TxInv t.tx := by
      rw [htx]
      rcases hn with ⟨rfl, hn⟩ | ⟨rfl, hn⟩
      · exact ⟨hu.k_le, by simp [hu.busy], fun _ => hu.result, by simp, fun _ => hn, by simp⟩
      · exact ⟨hu.k_le, by simp [hu.busy], fun _ => hu.result, by simp, by simp, fun _ => hn⟩
    exact ⟨hinv, by simp [htx, hout, hu.busy, hu.done], by simp [htx, hu.busy]⟩
  | some e =>
    obtain ⟨htx, hout⟩ := h.err e hd
    have hinv : TxInv t.tx := by
      rw [htx]
      exact ⟨hu.k_le, by simp, by simp, fun _ => hu.timer, by simp, by simp⟩
    exact ⟨hinv, by simp [htx, hout], by simp [htx]⟩

/-- A due drive call ends the `SEND` exactly where it errs. -/
theorem Drives.ended_iff {u t : State} {p : TxPhase} {n : BitVec 10} (h : Drives u p n t) (hu : u.tx.busy = true) :
    t.tx.busy = false ↔ ∃ e, nthDrive u 0 = some e := by
  cases hd : nthDrive u 0 with
  | none => simp [(h.ok hd).1, hu]
  | some e => simp [(h.err e hd).1]

/-- The high time of a symbol fits the timer. -/
theorem highTime_timer (b : Bool) :
    1 ≤ (BitVec.ofNat 10 (highTime b)).toNat ∧ (BitVec.ofNat 10 (highTime b)).toNat ≤ 800 := by
  cases b <;> decide

theorem startBit_sendTicked {u : State} (hu : IntervalOver u) : SendTicked (startBit u) :=
  (startBit_drives u).sendTicked hu (.inl ⟨rfl, highTime_timer _⟩)

theorem startGap_sendTicked {u : State} (hu : IntervalOver u) : SendTicked (startGap u) :=
  (startGap_drives u).sendTicked hu (.inr ⟨rfl, by decide⟩)

/-- A frame byte begins inside the frame. -/
theorem IntervalOver.nextByte {u : State} (hu : IntervalOver u) {k : BitVec 9} (hk : k.toNat ≤ u.tx.len.toNat + 4) :
    IntervalOver (loadByte k u) := by
  have hout : (loadByte k u).out.txDone = u.out.txDone := by
    unfold loadByte
    dsimp only
    split <;> rfl
  refine ⟨?_, ?_, ?_, ?_, hout.trans hu.done⟩ <;> rw [loadByte_tx]
  · exact hk
  · exact hu.busy
  · exact hu.result
  · exact hu.timer

/-- The end of a gap: the next bit, the next byte or the end (R41). -/
theorem bitComplete_sendTicked {u : State} (hu : IntervalOver u) : SendTicked (bitComplete u) := by
  by_cases hi : u.tx.i.toNat < 7
  · rw [bitComplete_nextBit hi]
    exact startBit_sendTicked ⟨hu.k_le, hu.busy, hu.result, hu.timer, hu.done⟩
  · have hi : u.tx.i.toNat = 7 := by omega
    rcases Nat.lt_or_eq_of_le hu.k_le with hk | hk
    · rw [bitComplete_nextByte hi hk]
      exact startBit_sendTicked (hu.nextByte (by bv_omega))
    · rw [bitComplete_ends hi hk]
      exact ⟨endSend_txInv none hu.k_le hu.timer, by simp, by simp⟩

/-- A tick of a `SEND` in progress. -/
theorem txTick_sendTicked {h : HostIn} {s : State} (hi : TxInv s.tx) (hb : s.tx.busy = true)
    (hd : s.out.txDone = false) : SendTicked (txTick h s) := by
  have hover (ht : s.tx.timer.toNat = 1) : IntervalOver (countDown s) :=
    ⟨hi.k_le, hb, hi.result hb, (countDown_timer_iff s).2 ht, hd⟩
  have hdown (h1 : s.tx.timer.toNat ≠ 1) (h2 : 1 ≤ s.tx.timer.toNat) :
      1 ≤ (s.tx.timer - 1).toNat ∧ (s.tx.timer - 1).toNat ≤ s.tx.timer.toNat := by bv_omega
  cases hp : s.tx.phase with
  | idle => exact absurd hp (hi.busy.1 hb)
  | high =>
    rw [txTick_high hb hp]
    split
    next ht => exact startGap_sendTicked (hover ht)
    next ht =>
      obtain ⟨hlow, hhigh⟩ := hi.timer_high hp
      have hgoes := hdown ht hlow
      refine ⟨⟨hi.k_le, hi.busy, hi.result, ?_, fun _ => ⟨hgoes.1, hgoes.2.trans hhigh⟩, ?_⟩, ?_, ?_⟩ <;>
        simp [countDown, hp, hb, hd]
  | gap =>
    rw [txTick_gap hb hp]
    split
    next ht => exact bitComplete_sendTicked (hover ht)
    next ht =>
      obtain ⟨hlow, hhigh⟩ := hi.timer_gap hp
      have hgoes := hdown ht hlow
      refine ⟨⟨hi.k_le, hi.busy, hi.result, ?_, ?_, fun _ => ⟨hgoes.1, hgoes.2.trans hhigh⟩⟩, ?_, ?_⟩ <;>
        simp [countDown, hp, hb, hd]

/-- The state in which the first drive call of an accepted `SEND` is due. -/
theorem accepted_intervalOver {s : State} (n : BitVec 8) (hi : TxInv s.tx) (hb : s.tx.busy = false)
    (hd : s.out.txDone = false) : IntervalOver (loadByte 0 (acceptSend n s)) :=
  IntervalOver.nextByte (u := acceptSend n s) ⟨by simp, by simp, by simp, hi.timer_idle (hi.phase_idle hb), hd⟩ (by simp)

/-- The tick that accepts a `SEND`, which ends it at once where its first drive call errs (R142 e). -/
theorem txTick_accept_sendTicked {h : HostIn} {s : State} (hi : TxInv s.tx) (hb : s.tx.busy = false)
    (hs : h.txStart = true) (hd : s.out.txDone = false) :
    SendTicked (txTick h s) ∧ ((txTick h s).tx.busy = false ↔ ∃ e, nthDrive s 0 = some e) := by
  have hu := accepted_intervalOver h.txLenIn hi hb hd
  rw [txTick_accepts hb hs, (startBit_drives _).ended_iff hu.busy, nthDrive_congr (s := s) (by simp)]
  exact ⟨startBit_sendTicked hu, Iff.rfl⟩

/-- The encoder's half of a tick keeps its registers' ranges. -/
theorem txTick_txInv {h : HostIn} {s : State} (hi : TxInv s.tx) (hd : s.out.txDone = false) : TxInv (txTick h s).tx := by
  cases hb : s.tx.busy with
  | true => exact (txTick_sendTicked hi hb hd).inv
  | false =>
    cases hs : h.txStart with
    | true => exact (txTick_accept_sendTicked hi hb hs hd).1.inv
    | false => rw [txTick_rests hb hs]; exact hi

/-! ### The whole step -/

/-- The host's stores of a tick keep the invariant (R76, R285). -/
theorem hostStore_inv (h : HostIn) {s : State} (hi : Inv s) : Inv (hostStore h s) := by
  obtain ⟨htx, hbuf, hrx⟩ := (inv_iff s).1 hi
  refine (inv_iff _).2 ⟨by simpa using htx, ?_, hrx.congr (by simp) (by simp) (by simp) (by simp) (by simp)⟩
  unfold hostStore
  split
  · exact hbuf
  · exact hbuf.storeAll h.txStore

/-- The one-tick outputs are no part of the invariant. -/
theorem clearOut_inv {s : State} (hi : Inv s) : Inv (clearOut s) := { hi with }

@[simp] theorem startBit_txbuf (s : State) : (startBit s).txbuf = s.txbuf := by
  have h := (drive_tx .hi s).2
  unfold startBit
  rcases hd : drive .hi s with ⟨s₁, _ | e⟩ <;> rw [hd] at h <;> exact h

@[simp] theorem startGap_txbuf (s : State) : (startGap s).txbuf = s.txbuf := by
  have h := (drive_tx .lo s).2
  unfold startGap
  rcases hd : drive .lo s with ⟨s₁, _ | e⟩ <;> rw [hd] at h <;> exact h

@[simp] theorem bitComplete_txbuf (s : State) : (bitComplete s).txbuf = s.txbuf := by
  unfold bitComplete
  split_ifs <;> simp

/-- The encoder's half of a tick leaves its memory alone. -/
@[simp] theorem txTick_txbuf (h : HostIn) (s : State) : (txTick h s).txbuf = s.txbuf := by
  unfold txTick
  dsimp only
  split
  · split
    · rfl
    · split <;> simp
    · split <;> simp
  · split <;> simp

/-- The encoder's half of a tick, with the host's stores before it, keeps the invariant. -/
theorem txTick_hostStore_inv (h : HostIn) {s : State} (hi : Inv s) : Inv (txTick h (hostStore h (clearOut s))) := by
  have hstore := hostStore_inv h (clearOut_inv hi)
  obtain ⟨htx, hbuf, -⟩ := (inv_iff _).1 hstore
  exact hstore.of_sameRx (txTick_sameRx _ _) (txTick_txInv htx (by simp)) (by simpa using hbuf)

/-- The machine right after reset is inside the invariant (R59). -/
theorem reset_inv : Inv State.reset := by
  constructor <;> simp [State.reset, Memory.wf]

/-- A reset takes the registers to those values and lets the memories stand (R280). -/
theorem resetRegs_inv {s : State} (hi : Inv s) : Inv (resetRegs s) := by
  obtain ⟨-, hbuf, hrx⟩ := (inv_iff s).1 hi
  obtain ⟨htx₀, -, hrx₀⟩ := (inv_iff _).1 reset_inv
  exact (inv_iff _).2 ⟨htx₀, hbuf, { hrx₀ with rxbuf := hrx.rxbuf }⟩

/-- A tick keeps the invariant, whatever the host's signals and the pin are. -/
theorem tickWith_inv {h : HostIn} {pin : State → PinSample} {s t : State} (hi : Inv s) (ht : tickWith h pin s = .next t) :
    Inv t := by
  cases hr : h.rst with
  | true =>
    rw [tickWith_reset h pin s hr] at ht
    cases ht
    exact { resetRegs_inv (hostStore_inv h hi) with }
  | false =>
    obtain ⟨u, hu, rfl⟩ := (tickWith_eq_next hr).1 ht
    have htx := txTick_hostStore_inv h hi
    exact { htx.of_sameTx (rxTick_sameTx hu) (rxTick_rxInv ((inv_iff _).1 htx).2.2 hu) with }

/-- A waveform put on the input line keeps the invariant, which speaks of no input. -/
theorem putWave_inv (w : List (Level × Nat)) {s : State} (hi : Inv s) : Inv (putWave w s) := { hi with }

/-- A bit or a byte sent alone keeps the invariant: of the encoder's registers only `tx.i` moves. -/
theorem Inv.sentAlone {s : State} {r : State × Option DrvErr} (hi : Inv s) (hrx : SameRx s r.1)
    (hpos : FramePosition s r.1) : Inv (handSend r) := by
  obtain ⟨htx, hbuf, -⟩ := (inv_iff s).1 hi
  have hend : TxInv r.1.tx := by
    have hk := hpos.k_le
    rw [hpos.tx] at hk ⊢
    exact { htx with k_le := hk }
  exact { hi.of_sameRx hrx hend (hpos.txbuf ▸ hbuf) with }

/-- A `SEND` run by its line keeps the invariant (R135, R285). -/
theorem execSend_inv {p : List Byte} {s t : State} (hi : Inv s) (ht : execSend p s = .next t) : Inv t := by
  obtain ⟨htx, hbuf, -⟩ := (inv_iff s).1 hi
  unfold execSend at ht
  split_ifs at ht with hlong hbusy <;> cases ht
  · exact hi
  · have hstored := hbuf.writeList (a := 0) (vs := p) (by simpa using hlong)
    obtain ⟨htx', hbuf'⟩ := runSend_acceptSend_keeps (BitVec.ofNat 8 p.length)
      (s := { s with txbuf := Memory.writeList s.txbuf 0 p }) htx (by simpa using hbusy)
    exact hi.of_sameRx (SameRx.trans (by simp [SameRx]) (runSend_sameRx _)) htx' (by rw [hbuf']; exact hstored)

/-- Every instruction keeps the invariant. -/
theorem exec_inv {i : Instr} {s t : State} (hi : Inv s) (ht : exec i s = .next t) : Inv t := by
  have hrx := ((inv_iff s).1 hi).2.2
  cases i with
  | sym1 | sym0 | byte | header | sync | length | payloadByte => cases ht; exact putWave_inv _ hi
  | frame p =>
    simp only [exec, execFrame] at ht
    split at ht <;> cases ht
    exact putWave_inv _ hi
  | bandNoise d | bandDead d | bandOne d | bandZero d | bandOver d =>
    exact hi.of_sameTx (duration_sameTx (d := d) ht) (duration_rxInv (d := d) hrx ht)
  | sendBit b =>
    simp only [exec, execSendBit] at ht
    split at ht <;> cases ht
    · exact hi
    · obtain ⟨htx, hbuf⟩ := sendBit_tx b s
      exact hi.sentAlone (sendBit_sameRx b s) ⟨by rw [htx], by rw [htx]; exact hi.k_le, hbuf⟩
  | sendByte b =>
    simp only [exec, execSendByte] at ht
    split at ht <;> cases ht
    · exact hi
    · exact hi.sentAlone (sendBits_sameRx b bitIndices s) (sendBits_position b bitIndices hi.k_le)
  | send p => exact execSend_inv hi ht
  | measurePulse =>
    exact hi.of_sameTx (startAlone_sameTx (by simp [SameTx]) ht)
      (startAlone_rxInv hrx (beginMeasure_alone_rxInv hrx · (.inl rfl)) ht)
  | classify d => cases ht; exact { hi with }
  | readBit =>
    exact hi.of_sameTx (startAlone_sameTx (by simp [SameTx]) ht)
      (startAlone_rxInv hrx (beginMeasure_alone_rxInv hrx · (.inr rfl)) ht)
  | readByte =>
    exact hi.of_sameTx (startAlone_sameTx (by simp [SameTx]) ht) (startAlone_rxInv hrx (beginByte_alone_rxInv hrx) ht)
  | seekHeader =>
    exact hi.of_sameTx (startAlone_sameTx (by simp [SameTx]) ht) (startAlone_rxInv hrx (beginSeek_alone_rxInv hrx) ht)
  | receive cap => exact hi.of_sameTx (execReceive_sameTx ht) (execReceive_rxInv hrx ht)

/-- Settles O55: a line is run from the state with its one-tick outputs down and keeps the invariant, and so does a tick. -/
theorem stepKeepsTheInvariant : Obligations.StepKeepsTheInvariant := by
  intro s t hi ht
  unfold step at ht
  split at ht
  · exact tickWith_inv hi ht
  · split at ht
    · exact exec_inv (s := s.fetched) { hi with } ht
    · cases ht

/-- Settles O41. -/
theorem resetValues : Obligations.ResetValues :=
  ⟨rfl, rfl, rfl, rfl, rfl, rfl, rfl⟩

/-- Settles O54: the invariant holds of the reset values, and the line of the empty trace is `L`. -/
theorem invariantAtReset : Obligations.InvariantAtReset :=
  ⟨reset_inv, by simp [State.reset], rfl, rfl⟩

end Sys2Proof.Machine
end

section
/-! SUPPORT. The statements about the two sides from one tick to the next: O44, O45, O49, O50, and the status signals O58. -/

namespace Sys2Proof.Machine

/-- The encoder's half of a tick, with the host's stores before it, leaves the receiver alone (R248). -/
theorem txTick_hostStore_sameRx (h : HostIn) (s : State) :
    SameRx (clearOut s) (txTick h (hostStore h (clearOut s))) := by
  refine SameRx.trans ?_ (txTick_sameRx h _)
  simp [SameRx]

/-- A tick without reset is, for the receiver, either the acceptance of a `RECEIVE`, which then seeks the header, or at most
one step of the chain (R227). -/
theorem tickWith_receiver {h : HostIn} {pin : State → PinSample} {s t : State} (hi : Inv s) (hr : h.rst = false)
    (ht : tickWith h pin s = .next t) :
    ((h.rxStart && rxFree s) = true ∧ t.md = (acceptReceive h.rxCapIn s).md ∧ t.out.rxDone = false ∧ RxInv t) ∨
      ((h.rxStart && rxFree s) = false ∧ ChainStep s.md false t) := by
  obtain ⟨u, hu, rfl⟩ := (tickWith_eq_next hr).1 ht
  obtain ⟨-, -, hmd, hcall, -, -, -, -, hdone, -⟩ := txTick_hostStore_sameRx h s
  have hrx := ((inv_iff _).1 (txTick_hostStore_inv h hi)).2.2
  have hfree : rxFree (txTick h (hostStore h (clearOut s))) = rxFree s := by simp [rxFree, hmd, hcall]
  cases hyes : h.rxStart && rxFree s with
  | true =>
    obtain ⟨hinv, hseeks, hout⟩ := rxTick_accept hrx (by rw [hfree]; exact hyes) hu
    exact .inl ⟨rfl, hseeks, hout.trans hdone, hinv.congr rfl rfl rfl rfl rfl⟩
  | false =>
    have hstep := rxTick_step hrx (by rw [hfree]; exact hyes) hu
    rw [hmd, hdone] at hstep
    exact .inr ⟨rfl, hstep.inv.congr rfl rfl rfl rfl rfl, hstep.move, hstep.done⟩

/-- A tick without reset is, for the encoder, its half of the tick (R248). -/
theorem tickWith_encoder {h : HostIn} {pin : State → PinSample} {s t : State} (hr : h.rst = false)
    (ht : tickWith h pin s = .next t) :
    t.tx = (txTick h (hostStore h (clearOut s))).tx ∧
      t.out.txDone = (txTick h (hostStore h (clearOut s))).out.txDone := by
  obtain ⟨u, hu, rfl⟩ := (tickWith_eq_next hr).1 ht
  obtain ⟨htx, -, -, -, -, -, hdone, -⟩ := rxTick_sameTx hu
  exact ⟨htx, hdone⟩

/-! ### The status and start signals -/

/-- Settles O58, by the value of each result register. -/
theorem statusSignals : Obligations.StatusSignals := by
  intro s
  refine ⟨⟨rfl, rfl⟩, by simp [txOk], ?_, ?_, ?_, ?_, by simp [rxNone]⟩
  · intro e he
    simp [txErr, txErrCode, he]
  · cases hres : s.tx.result <;> simp [txErr, hres]
  · intro n hn
    simp [rxSome, rxLenOut, hn]
  · cases hres : s.md.result <;> simp [rxSome, hres]

/-- A receiver in a call takes no start signal (R50). -/
theorem rxTick_busy_congr {h h' : HostIn} {p : PinSample} {s : State} (hfree : rxFree s = false) :
    rxTick h p s = rxTick h' p s := by
  simp [rxTick, hfree]

/-- Settles O44: a busy encoder does not look at the host's signals, and neither does a receiver in a call. -/
theorem startSignalsAreIgnoredWhileBusy : Obligations.StartSignalsAreIgnoredWhileBusy := by
  intro s h pin a n c
  constructor
  · intro hbusy
    have htx (u : State) (hu : u.tx.busy = true) : txTick { h with txStart := a, txLenIn := n } u = txTick h u := by
      simp [txTick, hu]
    have hstore : hostStore { h with txStart := a, txLenIn := n } (clearOut s) = hostStore h (clearOut s) := rfl
    simp only [tickWith, hstore, htx _ (show (hostStore h (clearOut s)).tx.busy = true by simpa using hbusy)]
    rfl
  · intro hcall
    obtain ⟨-, -, hmd, hsame, -⟩ := txTick_hostStore_sameRx h s
    have hfree : rxFree (txTick h (hostStore h (clearOut s))) = false := by
      simp only [rxFree, hmd, hsame, clearOut_md, clearOut_call]
      rcases hcall with hbusy | hcall
      · simp [hbusy]
      · simp [hcall]
    simp only [tickWith]
    rw [← rxTick_busy_congr (h := { h with rxStart := a, rxCapIn := c }) hfree]
    rfl

/-! ### The decoder (R42) -/

section
variable {m m' : Md} {b : Bfa} (h : DecoderMove m b m')
include h

/-- An idle decoder does not move. -/
theorem DecoderMove.of_idle (hs : m.state = .rxIdle) : m' = m := by
  cases h <;> simp_all

/-- A seeking decoder seeks on or has found the header. -/
theorem DecoderMove.of_seeking (hs : m.state = .seekingHeader) :
    m' = m ∨ (m'.state = .readingSync ∧ b.zeroRun.toNat = 24) := by
  cases h <;> simp_all

/-- From the sync byte the decoder goes on to the length or fails. -/
theorem DecoderMove.of_sync (hs : m.state = .readingSync) :
    m'.state = .readingSync ∨ m'.state = .readingLength ∨ (m'.state = .rxIdle ∧ m'.result = .noFrame) := by
  cases h <;> simp_all

/-- From the length the decoder goes on to the payload, is done where there is none, or fails. -/
theorem DecoderMove.of_length (hs : m.state = .readingLength) :
    m'.state = .readingLength ∨ m'.state = .readingPayload ∨
      ((m'.state = .rxIdle ∧ m'.result = .some m'.len ∧ m'.idx = m'.len) ∧ m'.len = 0) ∨
      (m'.state = .rxIdle ∧ m'.result = .noFrame) := by
  cases h <;> simp_all

/-- In the payload the decoder reads on, is done with the last byte, or fails. -/
theorem DecoderMove.of_payload (hs : m.state = .readingPayload) (hlen : m.len ≠ 0) :
    m'.state = .readingPayload ∨
      ((m'.state = .rxIdle ∧ m'.result = .some m'.len ∧ m'.idx = m'.len) ∧ m'.len ≠ 0) ∨
      (m'.state = .rxIdle ∧ m'.result = .noFrame) := by
  cases h <;> simp_all

/-- A `RECEIVE` that a move has ended has a result. -/
theorem DecoderMove.result_of_ended (hb : m.busy = true) (hb' : m'.busy = false) : m'.result ≠ .none := by
  cases h <;> simp_all

end

/-- A payload that is being read is not empty. -/
theorem MdInv.len_ne_zero {m : Md} (h : MdInv m) (hs : m.state = .readingPayload) : m.len ≠ 0 := by
  have hlt := h.payload_idx hs
  bv_omega

/-- A seeking decoder's run is short of the header. -/
theorem RxInv.seeking {s : State} (h : RxInv s) (hs : s.md.state = .seekingHeader) :
    s.md.state = .seekingHeader ∧ s.bfa.zeroRun.toNat < 24 :=
  ⟨hs, h.bit.seek (.inr hs)⟩

/-- Settles O49: an accepted `RECEIVE` seeks whatever its first read answers, and any other tick makes at most one of the
decoder's moves, each of which leaves one state only. -/
theorem decoderTransitions : Obligations.DecoderTransitions := by
  intro s t h pin hi hr ht
  have hmd := ((inv_iff s).1 hi).2.2.md
  rcases tickWith_receiver hi hr ht with ⟨hyes, haccepted, -, hrx⟩ | ⟨hno, hstep⟩
  · obtain ⟨hstart, hfree⟩ := Bool.and_eq_true_iff.1 hyes
    have hidle := hmd.idle.1 ((rxFree_iff s).1 hfree).1
    have hseeks := hrx.seeking (by simp [haccepted])
    simp [hidle, hstart, hseeks]
  · have hmove := hstep.move
    refine ⟨fun hs _ => hmove.of_idle hs, fun hs hstart hc => ?_, fun hs => ?_, hmove.of_sync, fun hs => ?_, fun hs => ?_⟩
    · have hfree : rxFree s = true := (rxFree_iff s).2 ⟨hmd.idle.2 hs, hc⟩
      simp [hstart, hfree] at hno
    · exact (hmove.of_seeking hs).imp_left fun hm => hstep.inv.seeking (by rw [hm, hs])
    · exact (hmove.of_length hs).imp_right (Or.imp_left fun hp => ⟨hp, hstep.inv.md.payload_idx hp⟩)
    · exact (hmove.of_payload hs (hmd.len_ne_zero hs)).imp_left fun hp => ⟨hp, hstep.inv.md.payload_idx hp⟩

/-! ### The pulses (R47, R51) -/

/-- The state in which the encoder's half of a tick begins has the registers and the drive answers of the state before. -/
theorem nthDrive_hostStore (h : HostIn) (s : State) : nthDrive (hostStore h (clearOut s)) 0 = nthDrive s 0 :=
  nthDrive_congr (by simp) 0

/-- `tx_done` after a tick without reset: a `SEND` in progress ended, or one was accepted whose first drive call errs. -/
theorem tickWith_txDone {h : HostIn} {pin : State → PinSample} {s t : State} (hi : Inv s) (hr : h.rst = false)
    (ht : tickWith h pin s = .next t) :
    (t.out.txDone = true ↔ (s.tx.busy = true ∧ t.tx.busy = false) ∨
      (s.tx.busy = false ∧ h.txStart = true ∧ ∃ e, nthDrive s 0 = some e)) ∧
    (t.out.txDone = true → t.tx.busy = false ∧ t.tx.result ≠ .none) := by
  obtain ⟨htx, hout⟩ := tickWith_encoder hr ht
  have hinv : TxInv (hostStore h (clearOut s)).tx := by simpa using ((inv_iff s).1 hi).1
  have hclear : (hostStore h (clearOut s)).out.txDone = false := by simp
  rw [htx, hout]
  cases hb : s.tx.busy with
  | true =>
    have hsend := txTick_sendTicked (h := h) hinv (by simpa using hb) hclear
    exact ⟨by simp [hsend.done], hsend.ended⟩
  | false =>
    cases hs : h.txStart with
    | true =>
      obtain ⟨hsend, herr⟩ := txTick_accept_sendTicked hinv (by simpa using hb) hs hclear
      rw [nthDrive_hostStore] at herr
      exact ⟨by simp [hsend.done, herr], hsend.ended⟩
    | false =>
      rw [txTick_rests (by simpa using hb) hs, hclear]
      simp

/-- `rx_done` after a tick without reset: a `RECEIVE` in progress ended. -/
theorem tickWith_rxDone {h : HostIn} {pin : State → PinSample} {s t : State} (hi : Inv s) (hr : h.rst = false)
    (ht : tickWith h pin s = .next t) :
    (t.out.rxDone = true ↔ s.md.busy = true ∧ t.md.busy = false) ∧
    (t.out.rxDone = true → t.md.busy = false ∧ t.md.result ≠ .none) := by
  rcases tickWith_receiver hi hr ht with ⟨hyes, haccepted, hdone, -⟩ | ⟨-, hstep⟩
  · simp [haccepted, hdone]
  · have hiff : t.out.rxDone = true ↔ s.md.busy = true ∧ t.md.busy = false := by simp [hstep.done]
    exact ⟨hiff, fun hd => ⟨(hiff.1 hd).2, hstep.move.result_of_ended (hiff.1 hd).1 (hiff.1 hd).2⟩⟩

/-- What a tick makes of the encoder's registers where a drive call is due (R140): the interval `p` of bit `i` of byte `k`,
or `TX_IDLE` with the error. -/
structure DriveDue (s t : State) (p : TxPhase) (k : BitVec 9) (i : BitVec 3) : Prop where
  ok  : nthDrive s 0 = none → t.tx.phase = p ∧ t.tx.k = k ∧ t.tx.i = i
  err : ∀ e, nthDrive s 0 = some e → t.tx.phase = .idle ∧ t.tx.busy = false ∧ t.tx.result = .err e

/-- A tick whose encoder's half ends in a due drive call, made in `u`. -/
theorem Drives.due {s t u v : State} {p : TxPhase} {n : BitVec 10} (h : Drives u p n v) (ht : t.tx = v.tx)
    (henv : u.env = s.env) : DriveDue s t p u.tx.k u.tx.i where
  ok hok := by
    rw [ht, (h.ok ((nthDrive_congr henv 0).trans hok)).1]
    exact ⟨rfl, rfl, rfl⟩
  err e he := by
    rw [ht, (h.err e ((nthDrive_congr henv 0).trans he)).1]
    exact ⟨rfl, rfl, rfl⟩


/-- The acceptance tick of a `SEND` (R140, R142 e). -/
theorem tickWith_accepts {h : HostIn} {pin : State → PinSample} {s t : State} (hr : h.rst = false)
    (hb : s.tx.busy = false) (hs : h.txStart = true) (ht : tickWith h pin s = .next t) : DriveDue s t .high 0 0 := by
  have htx := (tickWith_encoder hr ht).1
  rw [txTick_accepts (by simpa using hb) hs] at htx
  simpa using (startBit_drives _).due htx (s := s) (by simp)

/-- Settles O45: a reset takes both pulses down; otherwise each side's half of the tick raises its own. -/
theorem donePulsesMarkTheEnds : Obligations.DonePulsesMarkTheEnds := by
  intro s t h pin hi ht
  cases hr : h.rst with
  | true =>
    rw [tickWith_reset h pin s hr] at ht
    cases ht
    simp [State.reset]
  | false =>
    obtain ⟨htxIff, htxEnd⟩ := tickWith_txDone hi hr ht
    obtain ⟨hrxIff, hrxEnd⟩ := tickWith_rxDone hi hr ht
    exact ⟨by simpa using htxIff, fun e _ hb hs he => ((tickWith_accepts hr hb hs ht).err e he).2.2, htxEnd,
      by simpa using hrxIff, hrxEnd⟩

/-! ### The encoder (R41) -/

/-- The tick in which the high interval of a bit ends (R140). -/
theorem tickWith_highEnds {h : HostIn} {pin : State → PinSample} {s t : State} (hr : h.rst = false)
    (hb : s.tx.busy = true) (hp : s.tx.phase = .high) (htimer : s.tx.timer.toNat = 1) (ht : tickWith h pin s = .next t) :
    DriveDue s t .gap s.tx.k s.tx.i := by
  have htx := (tickWith_encoder hr ht).1
  rw [txTick_high (by simpa using hb) (by simpa using hp), if_pos (by simpa using htimer)] at htx
  simpa [countDown] using (startGap_drives _).due htx (s := s) (by simp [countDown])

/-- The tick in which the gap of a bit ends, for the encoder (R41). -/
theorem tickWith_gapEnds {h : HostIn} {pin : State → PinSample} {s t : State} (hr : h.rst = false)
    (hb : s.tx.busy = true) (hp : s.tx.phase = .gap) (htimer : s.tx.timer.toNat = 1) (ht : tickWith h pin s = .next t) :
    t.tx = (bitComplete (countDown (hostStore h (clearOut s)))).tx := by
  have htx := (tickWith_encoder hr ht).1
  rwa [txTick_gap (by simpa using hb) (by simpa using hp), if_pos (by simpa using htimer)] at htx

/-- A tick inside an interval: only the timer moves. -/
theorem tickWith_runs {h : HostIn} {pin : State → PinSample} {s t : State} (hr : h.rst = false)
    (hb : s.tx.busy = true) (hp : s.tx.phase ≠ .idle) (htimer : s.tx.timer.toNat ≠ 1) (ht : tickWith h pin s = .next t) :
    t.tx = { s.tx with timer := s.tx.timer - 1 } := by
  have htx := (tickWith_encoder hr ht).1
  cases hphase : s.tx.phase with
  | idle => exact absurd hphase hp
  | high =>
    rw [txTick_high (by simpa using hb) (by simpa using hphase), if_neg (by simpa using htimer)] at htx
    simpa [countDown, hphase] using htx
  | gap =>
    rw [txTick_gap (by simpa using hb) (by simpa using hphase), if_neg (by simpa using htimer)] at htx
    simpa [countDown, hphase] using htx

/-- Settles O50: the position after a tick by the position before it, one lemma each for the acceptance, a tick inside an
interval, the end of a high interval and the end of a gap. -/
theorem encoderPositions : Obligations.EncoderPositions := by
  intro s t h pin hi hr ht
  have hbusy {p : TxPhase} (hp : s.tx.phase = p) (hne : p ≠ .idle) : s.tx.busy = true := hi.tx_busy.2 (hp ▸ hne)
  have hidle (hp : s.tx.phase = .idle) : s.tx.busy = false := by
    rw [← Bool.not_eq_true, hi.tx_busy]
    simpa using hp
  refine ⟨fun hp hs => ?_, fun hp hs => ?_, fun hp htimer => ?_, fun hp htimer => ?_, fun hp htimer hbit => ?_,
    fun hp htimer hbit hbyte => ?_, fun hp htimer hbit hbyte => ?_, (tickWith_inv hi ht).k_le⟩
  · rw [(tickWith_encoder hr ht).1, txTick_rests (by simpa using hidle hp) hs]
    simp
  · have hdue := tickWith_accepts hr (hidle hp) hs ht
    exact ⟨hdue.ok, hdue.err⟩
  · rw [tickWith_runs hr (hi.tx_busy.2 hp) hp htimer ht]
    exact ⟨rfl, rfl, rfl⟩
  · have hdue := tickWith_highEnds hr (hbusy hp (by simp)) hp htimer ht
    exact ⟨hdue.ok, hdue.err⟩
  · have htx := tickWith_gapEnds hr (hbusy hp (by simp)) hp htimer ht
    rw [bitComplete_nextBit (by simpa [countDown] using hbit)] at htx
    have hdue := (startBit_drives _).due htx (s := s) (by simp [countDown])
    simp only [countDown, setTxI_tx, hostStore_tx, clearOut_tx] at hdue
    exact ⟨hdue.ok, hdue.err⟩
  · have htx := tickWith_gapEnds hr (hbusy hp (by simp)) hp htimer ht
    rw [bitComplete_nextByte (by simpa [countDown] using hbit) (by simpa [countDown] using hbyte)] at htx
    have hdue := (startBit_drives _).due htx (s := s) (by simp [countDown])
    simp only [countDown, loadByte_tx, hostStore_tx, clearOut_tx] at hdue
    exact ⟨hdue.ok, hdue.err⟩
  · rw [tickWith_gapEnds hr (hbusy hp (by simp)) hp htimer ht,
      bitComplete_ends (by simpa [countDown] using hbit) (by simpa [countDown] using hbyte)]
    simp

end Sys2Proof.Machine
end

section
/-! SUPPORT. Where a step can stop (R63): the write of a payload byte is the one place of the receive chain, a payload the
length byte cannot express the one of the encoder's lines. The invariant excludes the first, the decoder the second: O57. -/

namespace Sys2Proof.Machine

/-- An outcome that is a next state: neither a fault nor a refusal. -/
def AnswersNext (o : Result) : Prop := ∃ t, o = .next t

@[simp] theorem answersNext_next (s : State) : AnswersNext (.next s) := ⟨s, rfl⟩

theorem AnswersNext.andThen {o : Result} {f : State → Result} (ho : AnswersNext o)
    (hf : ∀ u, o = .next u → AnswersNext (f u)) : AnswersNext (andThen o f) := by
  obtain ⟨u, rfl⟩ := ho
  exact hf u rfl

/-- The payload byte a `RECEIVE` waits for has a place in the buffer (R61, R63). -/
def Md.HasRoom (m : Md) : Prop := m.state = .readingPayload → m.idx.toNat < m.cap.toNat

/-- The index is below the length, and the length within the capacity (R216, R218). -/
theorem MdInv.hasRoom {m : Md} (h : MdInv m) : m.HasRoom :=
  fun hs => (h.payload_idx hs).trans_le (h.payload_cap hs)

/-! ### The receive chain: only the byte that is stored needs its place -/

theorem recvByte_answersNext {r : Option Byte} {s : State} (h : r ≠ none → s.md.HasRoom) : AnswersNext (recvByte r s) := by
  cases r with
  | none => exact answersNext_next _
  | some b =>
    cases hs : s.md.state with
    | readingPayload =>
      simp only [recvByte, hs, storePayload_inside b s (h (by simp) hs), andThen_next]
      split <;> exact answersNext_next _
    | readingSync => simp only [recvByte, hs]; split <;> exact answersNext_next _
    | readingLength => simp only [recvByte, hs]; split_ifs <;> exact answersNext_next _
    | rxIdle | seekingHeader | done | failed => simp only [recvByte, hs]; exact answersNext_next _

theorem byteDone_answersNext {r : Option Byte} {s : State} (h : r ≠ none → s.md.HasRoom) : AnswersNext (byteDone r s) := by
  unfold byteDone
  split
  · exact recvByte_answersNext h
  · exact answersNext_next _

theorem byteBit_answersNext {r : Option Bool} {s : State} (h : r ≠ none → s.md.HasRoom) : AnswersNext (byteBit r s) := by
  cases r with
  | none => exact byteDone_answersNext (by simp)
  | some v =>
    simp only [byteBit]
    split
    · exact answersNext_next _
    · exact byteDone_answersNext fun _ => h (by simp)

theorem seekBit_answersNext (r : Option Bool) (s : State) : AnswersNext (seekBit r s) := by
  simp only [seekBit]
  generalize (if r = some false then s.bfa.zeroRun + 1 else 0) = z
  split <;> exact answersNext_next _

theorem bitDone_answersNext {r : Option Bool} {s : State} (h : r ≠ none → s.md.HasRoom) : AnswersNext (bitDone r s) := by
  unfold bitDone
  split
  · exact answersNext_next _
  · exact seekBit_answersNext _ _
  · exact byteBit_answersNext h
  · split
    · exact seekBit_answersNext _ _
    · exact byteBit_answersNext h
  all_goals exact answersNext_next _

theorem measDone_answersNext {m : Meas} {s : State} (h : bitOfMeas m ≠ none → s.md.HasRoom) :
    AnswersNext (measDone m s) := by
  unfold measDone
  split
  · exact answersNext_next _
  · exact answersNext_next _
  · refine bitDone_answersNext ?_
    cases m <;> exact h

/-! ### The reads of the pin -/

theorem pinCall_answersNext {a : PinAnswer} {s : State} (h : s.md.HasRoom) : AnswersNext (pinCall a s) := by
  unfold pinCall
  split
  · exact answersNext_next _
  · split
    · exact measDone_answersNext fun _ => h
    · exact answersNext_next _
    · exact answersNext_next _
  · split
    · exact measDone_answersNext fun _ => h
    · exact measDone_answersNext fun _ => h
    · dsimp only
      split
      · exact measDone_answersNext fun _ => h
      · exact answersNext_next _

/-- A run on listed answers, by induction on them: each pin call keeps the receive side's part. -/
theorem runCalls_answersNext (as : List PinAnswer) {s : State} (h : RxInv s) : AnswersNext (runCalls as s) := by
  induction as generalizing s with
  | nil => exact answersNext_next _
  | cons a as ih =>
    unfold runCalls
    split
    · exact answersNext_next _
    · exact (pinCall_answersNext h.md.hasRoom).andThen fun u hu => ih (pinCall_rxInv h hu)

/-- A phase 1 read never stops, in any state: it ends a measurement only by an error, which gives no bit to store (R171). -/
theorem phase1Read_answersNext (p : PinSample) (s : State) : AnswersNext (phase1Read p s) := by
  unfold phase1Read
  split
  · exact measDone_answersNext fun hbit => absurd rfl hbit
  · split <;> exact answersNext_next _

theorem phase2Read_answersNext {p : PinSample} {s : State} (h : s.md.HasRoom) : AnswersNext (phase2Read p s) := by
  unfold phase2Read
  split
  · exact measDone_answersNext fun _ => h
  · split
    · exact measDone_answersNext fun _ => h
    · exact answersNext_next _

theorem readAgain_answersNext (p : PinSample) (s : State) : AnswersNext (readAgain p s) := by
  unfold readAgain
  split
  · exact phase1Read_answersNext p s
  · exact answersNext_next _

theorem countTick_answersNext {p : PinSample} {s : State} (h : s.md.HasRoom) : AnswersNext (countTick p s) := by
  have hagain {o : Result} (ho : AnswersNext o) : AnswersNext (andThen o (readAgain p)) :=
    ho.andThen fun u _ => readAgain_answersNext p u
  unfold countTick
  dsimp only
  split_ifs
  · exact hagain (phase2Read_answersNext h)
  · exact answersNext_next _
  · exact hagain (measDone_answersNext fun _ => h)
  · exact hagain (phase2Read_answersNext h)

theorem rxTick_answersNext {h : HostIn} {p : PinSample} {s : State} (hroom : s.md.HasRoom) :
    AnswersNext (rxTick h p s) := by
  unfold rxTick
  split_ifs
  · exact phase1Read_answersNext _ _
  · exact answersNext_next _
  · split
    · exact answersNext_next _
    · exact phase1Read_answersNext _ _
    · exact countTick_answersNext hroom

/-! ### The whole step -/

/-- A tick never stops, whatever the host's signals and the pin are: the encoder's half leaves the decoder's registers. -/
theorem tickWith_answersNext {h : HostIn} {pin : State → PinSample} {s : State} (hi : Inv s) :
    AnswersNext (tickWith h pin s) := by
  unfold tickWith
  split
  · exact answersNext_next _
  · have hrx := ((inv_iff _).1 (txTick_hostStore_inv h hi)).2.2
    exact (rxTick_answersNext hrx.md.hasRoom).andThen fun _ _ => answersNext_next _

theorem startAlone_answersNext {c : RxCall} {begin_ : State → State} {s : State}
    (hstart : rxFree s = true → RxInv (begin_ { s with call := c })) : AnswersNext (startAlone c begin_ s) := by
  unfold startAlone
  split
  next hfree => exact runCalls_answersNext _ (hstart hfree)
  next => exact answersNext_next _

theorem execReceive_answersNext (cap : BitVec 9) {s : State} (h : RxInv s) : AnswersNext (execReceive cap s) := by
  unfold execReceive
  split
  · exact runCalls_answersNext _ (acceptReceive_rxInv cap h)
  · exact answersNext_next _

theorem duration_answersNext (d : Nat) {s : State} (h : RxInv s) : AnswersNext (duration d s) := by
  have hband : RxInv (handBand d s) := h.congr rfl rfl rfl rfl rfl
  unfold duration
  split
  · exact (runCalls_answersNext _ hband).andThen fun _ _ => answersNext_next _
  · exact answersNext_next _

/-- A well-formed instruction never stops: only a payload above `MAX_PAYLOAD` is refused (R94, U3). -/
theorem exec_answersNext {i : Instr} {s : State} (hwf : i.wellFormed = true) (h : RxInv s) : AnswersNext (exec i s) := by
  cases i with
  | sym1 | sym0 | byte | header | sync | length | payloadByte | classify => exact answersNext_next _
  | frame p =>
    have hlen : ¬maxPayload < p.length := not_lt.2 (of_decide_eq_true hwf)
    simp only [exec, execFrame, if_neg hlen, answersNext_next]
  | send p =>
    have hlen : ¬maxPayload < p.length := not_lt.2 (of_decide_eq_true hwf)
    simp only [exec, execSend, if_neg hlen]
    split <;> exact answersNext_next _
  | bandNoise d | bandDead d | bandOne d | bandZero d | bandOver d => exact duration_answersNext d h
  | sendBit | sendByte =>
    simp only [exec, execSendBit, execSendByte]
    split <;> exact answersNext_next _
  | measurePulse => exact startAlone_answersNext (beginMeasure_alone_rxInv h · (.inl rfl))
  | readBit => exact startAlone_answersNext (beginMeasure_alone_rxInv h · (.inr rfl))
  | readByte => exact startAlone_answersNext (beginByte_alone_rxInv h)
  | seekHeader => exact startAlone_answersNext (beginSeek_alone_rxInv h)
  | receive cap => exact execReceive_answersNext cap h

/-- Settles O57: without a line the step is a tick; with one it is the decoded instruction, which is well formed, or the
decoder's refusal. -/
theorem stepStopsOnlyAtBadLines : Obligations.StepStopsOnlyAtBadLines := by
  intro s hi
  have hrx : RxInv s.fetched := ((inv_iff s).1 hi).2.2.congr rfl rfl rfl rfl rfl
  cases hprog : s.program with
  | nil =>
    have hstep : step s = tick s := by simp [step, hprog]
    exact .inl (hstep ▸ tickWith_answersNext hi)
  | cons l rest =>
    cases hline : decodeLine l with
    | ok i =>
      have hstep : step s = exec i s.fetched := by simp [step, hprog, hline]
      exact .inl (hstep ▸ exec_answersNext (decodeLine_wellFormed hline) hrx)
    | error e => exact .inr ⟨l, rest, e, rfl, hline⟩

end Sys2Proof.Machine
end

section
/-! SUPPORT. Bits and bytes in wire order, the positions in a frame, and the readings of the decoder on the encoder's
patterns; then O6, O5, O1 and O3. -/

namespace Sys2Proof.Machine

/-! ### Bit lists and their numbers -/

/-- Bit `q` of a bit list is bit `q` of the number. -/
theorem getElem?_bitsOf {w q : Nat} (v : Nat) (h : q < w) : (bitsOf w v)[q]? = some (v.testBit q) := by
  induction w generalizing v q with
  | zero => omega
  | succ w ih =>
    cases q with
    | zero => simp [bitsOf, Nat.testBit_zero, beq_eq_decide]
    | succ q => simpa [bitsOf, Nat.testBit_succ] using ih (v / 2) (by omega)

/-- The number read back from a bit list. -/
theorem natOfBits_bitsOf (w v : Nat) : natOfBits (bitsOf w v) = v % 2 ^ w := by
  induction w generalizing v with
  | zero => simp [bitsOf, natOfBits, Nat.mod_one]
  | succ w ih =>
    have hbit : (v % 2 == 1).toNat = v % 2 := by rcases Nat.mod_two_eq_zero_or_one v with h | h <;> simp [h]
    rw [bitsOf, natOfBits, ih, hbit, Nat.pow_succ', Nat.mod_mul]

/-- The number of `n` bits is below `2 ^ n`. -/
theorem natOfBits_lt (bs : List Bool) : natOfBits bs < 2 ^ bs.length := by
  induction bs with
  | nil => simp [natOfBits]
  | cons b bs ih =>
    have hb := b.toNat_le
    rw [natOfBits, List.length_cons, Nat.pow_succ']
    omega

/-- A vector of bits is read back from its bit list. -/
theorem ofNat_natOfBits_bitsOf {w : Nat} (v : BitVec w) : BitVec.ofNat w (natOfBits (bitsOf w v.toNat)) = v := by
  rw [natOfBits_bitsOf, Nat.mod_eq_of_lt v.isLt, BitVec.ofNat_toNat, BitVec.setWidth_eq]

/-! ### Bytes -/

@[simp] theorem length_byteBits (b : Byte) : (byteBits b).length = 8 := rfl

@[simp] theorem length_headerPattern : headerPattern.length = 24 := rfl

@[simp] theorem length_syncPattern : syncPattern.length = 8 := rfl

theorem getElem?_byteBits (b : Byte) {q : Nat} (h : q < 8) : (byteBits b)[q]? = some (b.getLsbD q) := by
  interval_cases q <;> rfl

/-- The eight bits of a byte are the bit list of its number. -/
theorem byteBits_eq_bitsOf (b : Byte) : byteBits b = bitsOf 8 b.toNat := by
  refine List.ext_getElem?' fun q hq => ?_
  have hq8 : q < 8 := by simpa [Laws.EncodedLength.bitsOf_length] using hq
  rw [getElem?_byteBits b hq8, getElem?_bitsOf _ hq8, BitVec.testBit_toNat]

/-- A byte is assembled from its own bits (R93). -/
@[simp] theorem byteOfBits_byteBits (b : Byte) : byteOfBits (byteBits b) = b := by
  rw [byteOfBits, byteBits_eq_bitsOf, ofNat_natOfBits_bitsOf]

/-- At most eight bits assemble to a byte of their number. -/
theorem toNat_byteOfBits {bs : List Bool} (h : bs.length ≤ 8) : (byteOfBits bs).toNat = natOfBits bs :=
  (BitVec.toNat_ofNat ..).trans
    (Nat.mod_eq_of_lt ((natOfBits_lt bs).trans_le (Nat.pow_le_pow_right (by decide) h)))

/-- Settles O6: the symbols of a byte are written out from its bits, and eight bits have a number below 256. -/
theorem byteSerialisation : Obligations.ByteSerialisation := by
  refine ⟨fun b _ => getElem?_byteBits b, fun b => ⟨rfl, byteOfBits_byteBits b, rfl⟩, ⟨rfl, rfl⟩, ?_⟩
  intro v0 v1 v2 v3 v4 v5 v6 v7
  refine (toNat_byteOfBits (by simp)).trans ?_
  simp only [natOfBits]
  omega

/-! ### The positions of a frame's fields (R92) -/

/-- Bit `q` of payload byte `j` comes `8 * j + q` bits after the start of the payload. -/
theorem getElem?_flatMap_byteBits (p : List Byte) {j q : Nat} (hj : j < p.length) (hq : q < 8) :
    (p.flatMap byteBits)[8 * j + q]? = some (p[j].getLsbD q) := by
  induction p generalizing j with
  | nil => simp at hj
  | cons b p ih =>
    rw [List.flatMap_cons]
    cases j with
    | zero => rw [List.getElem?_append_left (by simp; omega)]; simpa using getElem?_byteBits b hq
    | succ j =>
      rw [List.getElem?_append_right (by simp; omega), length_byteBits, show 8 * (j + 1) + q - 8 = 8 * j + q by omega]
      exact ih (Nat.lt_of_succ_lt_succ hj)

/-- Settles O5: each field is reached by dropping the fields in front of it. -/
theorem frameSymbolPositions : Obligations.FrameSymbolPositions := by
  intro p _
  refine ⟨Laws.EncodedLength.encodeBits_length p, ?_, ?_, ?_, ?_⟩ <;>
    simp only [encodeBits, List.append_assoc]
  · intro q hq
    rw [List.getElem?_append_left (by simpa using hq)]
    simp [headerPattern, hq]
  · intro q hq
    rw [List.getElem?_append_right (by simp), length_headerPattern, Nat.add_sub_cancel_left,
      List.getElem?_append_left (by simpa using hq)]
    rfl
  · intro q hq
    rw [List.getElem?_append_right (by simp; omega), List.getElem?_append_right (by simp; omega), length_headerPattern,
      length_syncPattern, show 32 + q - 24 - 8 = q by omega, List.getElem?_append_left (by simpa using hq),
      getElem?_byteBits _ hq]
    rw [BitVec.getLsbD_ofNat, decide_eq_true hq, Bool.true_and]
  · intro j q hj hq
    rw [List.getElem?_append_right (by simp; omega), List.getElem?_append_right (by simp; omega),
      List.getElem?_append_right (by simp; omega), length_headerPattern, length_syncPattern, length_byteBits,
      show 40 + 8 * j + q - 24 - 8 - 8 = 8 * j + q by omega]
    exact getElem?_flatMap_byteBits p hj hq

/-! ### The readings of the decoder on the encoder's patterns -/

theorem decodeByte_byteBits (b : Byte) : decodeByte (byteBits b) = .ok b :=
  congrArg Except.ok (byteOfBits_byteBits b)

theorem decodeBytes_flatMap_byteBits (p : List Byte) : decodeBytes (p.flatMap byteBits) = some p := by
  induction p with
  | nil => rfl
  | cons b p ih =>
    calc decodeBytes (byteBits b ++ p.flatMap byteBits)
      _ = (decodeBytes (p.flatMap byteBits)).map (byteOfBits (byteBits b) :: ·) := rfl
      _ = some (b :: p) := by rw [ih, byteOfBits_byteBits, Option.map_some]

/-- A frame is read back where its length byte can count its payload (R94). -/
theorem decodeFrame_encodeBits {p : List Byte} (h : p.length ≤ maxPayload) : decodeFrame (encodeBits p) = .ok p := by
  have hlength : ((encodeBits p).drop 32).take 8 = byteBits (BitVec.ofNat 8 p.length) := rfl
  have hpayload : (encodeBits p).drop 40 = p.flatMap byteBits := rfl
  refine decodeFrame_eq_ok_iff.2 ⟨rfl, rfl, BitVec.ofNat 8 p.length, ?_, ?_, ?_⟩
  · rw [hlength, decodeByte_byteBits]
  · rw [hpayload, decodeBytes_flatMap_byteBits]
  · exact (BitVec.toNat_ofNat ..).trans (Nat.mod_eq_of_lt (Nat.lt_succ_of_le h))

/-- A duration's pattern is wide enough for its number (R167; log 1). -/
theorem natOfBits_durBits (d : Nat) : natOfBits (durBits d) = d := by
  rw [durBits, natOfBits_bitsOf, Nat.mod_eq_of_lt]
  exact Nat.lt_log2_self.trans_le (Nat.pow_le_pow_right (by decide) (Nat.le_max_right ..))

theorem decodeDur_durBits (d : Nat) : decodeDur (durBits d) = .ok d := by
  simp [decodeDur, natOfBits_durBits]

/-- A duration of a row's band is read back by that row (R97). -/
theorem decodeBand_durBits {row : Nat → Instr} {d : Nat} (h : (row d).wellFormed = true) :
    decodeBand row (durBits d) = .ok (row d) := by
  simp [decodeBand, decodeDur_durBits, h]

/-- A row without operands is read back from its own pattern. -/
theorem decodeFixed_self (want : List Bool) (e : DecodeError) (i : Instr) : decodeFixed want e i want = .ok i :=
  decodeFixed_eq_ok_iff.2 ⟨rfl, rfl⟩

/-- Every row's line is read back: the row's own reading of its own pattern, for each strobe. -/
theorem decodeLine_encode {i : Instr} (h : i.wellFormed = true) : decodeLine (encode i) = .ok i := by
  cases i with
  | sym1 | sym0 | header | sync | measurePulse | readBit | readByte | seekHeader => exact decodeFixed_self ..
  | byte b => exact congrArg (Except.map Instr.byte) (decodeByte_byteBits b)
  | length n => exact congrArg (Except.map Instr.length) (decodeByte_byteBits n)
  | payloadByte b => exact congrArg (Except.map Instr.payloadByte) (decodeByte_byteBits b)
  | sendByte b => exact congrArg (Except.map Instr.sendByte) (decodeByte_byteBits b)
  | frame p => exact congrArg (Except.map Instr.frame) (decodeFrame_encodeBits (of_decide_eq_true h))
  | send p => exact congrArg (Except.map Instr.send) (decodeFrame_encodeBits (of_decide_eq_true h))
  | bandNoise d | bandDead d | bandOne d | bandZero d | bandOver d => exact decodeBand_durBits h
  | classify d => exact congrArg (Except.map Instr.classify) (decodeDur_durBits d)
  | sendBit b => rfl
  | receive cap => exact congrArg (fun c => Except.ok (Instr.receive c)) (ofNat_natOfBits_bitsOf cap)

/-- Settles O1: the readings of the decoder are inverse to the patterns of the rows, row by row. -/
theorem decodeEncodeAgree : Obligations.DecodeEncodeAgree := fun _ => decodeLine_encode

/-- Settles O3: the decoder is run on each written pattern. -/
theorem writtenPatternsDecode : Obligations.WrittenPatternsDecode := by
  unfold Obligations.WrittenPatternsDecode
  decide

end Sys2Proof.Machine
end

section
/-! SUPPORT. What a step makes of a line, and the rows that act outside a measurement: the wire format, the refused payloads
and the duration bands; then O4, O8, O19 and O11. -/

namespace Sys2Proof.Machine

/-! ### The step -/

theorem step_of_line {s : State} {l : Line} {rest : List Line} {i : Instr} (hprog : s.program = l :: rest)
    (hline : decodeLine l = .ok i) : step s = exec i (clearOut { s with program := rest }) := by
  simp [step, State.fetched, hprog, hline]

theorem step_of_badLine {s : State} {l : Line} {rest : List Line} {e : DecodeError} (hprog : s.program = l :: rest)
    (hline : decodeLine l = .error e) : step s = .refused (.undecodable e) := by
  simp [step, hprog, hline]

theorem step_of_noLine {s : State} (hprog : s.program = []) : step s = tick s := by
  simp [step, hprog]

/-- Settles O4: a step has one case for each of the three. -/
theorem stepRunsTheDecodedLine : Obligations.StepRunsTheDecodedLine :=
  ⟨fun _ _ _ _ => step_of_line, fun _ _ _ _ => step_of_badLine, fun _ => step_of_noLine⟩

/-! ### The wire format and its longest payload -/

theorem execFrame_fits {p : List Byte} (s : State) (h : p.length ≤ maxPayload) :
    execFrame p s = .next (putWave (encodeWave p) s) :=
  if_neg (not_lt.2 h)

theorem execFrame_tooLong {p : List Byte} (s : State) (h : maxPayload < p.length) :
    execFrame p s = .refused .payloadTooLong :=
  if_pos h

theorem execSend_tooLong {p : List Byte} (s : State) (h : maxPayload < p.length) :
    execSend p s = .refused .payloadTooLong :=
  if_pos h

/-- The waveform of a header: 24 symbols SYM0 (R92). -/
theorem bitsWave_headerPattern : bitsWave headerPattern = (List.replicate 24 (symWave false)).flatten := by
  rw [bitsWave, List.flatMap_def, headerPattern, List.map_replicate]

/-- Settles O8: each row puts the waveform of its pattern. -/
theorem formatRowsPutTheirWaveform : Obligations.FormatRowsPutTheirWaveform := by
  intro s put
  have hheader : exec .header s = put (List.replicate 24 (symWave false)).flatten :=
    congrArg put bitsWave_headerPattern
  exact ⟨rfl, rfl, fun _ => rfl, hheader, rfl, fun _ => rfl, fun _ => rfl, fun _ => execFrame_fits s⟩

/-- Settles O19: both rows check the payload's length first. -/
theorem longPayloadsAreRefused : Obligations.LongPayloadsAreRefused :=
  fun s _ h => ⟨execSend_tooLong s h, execFrame_tooLong s h⟩

/-! ### The duration bands -/

theorem classify_below {d : Nat} (h : d < 180) : classify d = .invalid := by
  unfold classify
  split_ifs
  · rfl
  · rfl

theorem classify_one {d : Nat} (h₁ : 180 ≤ d) (h₂ : d ≤ 500) : classify d = .one := by
  rw [classify, if_neg (show ¬d < 100 by omega), if_neg (not_lt.2 h₁), if_pos h₂]

theorem classify_zero {d : Nat} (h₁ : 501 ≤ d) (h₂ : d ≤ 900) : classify d = .zero := by
  rw [classify, if_neg (show ¬d < 100 by omega), if_neg (show ¬d < 180 by omega), if_neg (show ¬d ≤ 500 by omega),
    if_pos h₂]

theorem classify_above {d : Nat} (h : 901 ≤ d) : classify d = .invalid := by
  rw [classify, if_neg (show ¬d < 100 by omega), if_neg (show ¬d < 180 by omega), if_neg (show ¬d ≤ 500 by omega),
    if_neg (show ¬d ≤ 900 by omega)]

/-- A duration that no measurement takes is only classified (R97; log 14). -/
theorem duration_untaken {s : State} {d : Nat} (h : awaitsPulse s = false ∨ measurable d = false) :
    duration d s = .next (handBand d s) := by
  unfold duration
  rw [if_neg]
  rcases h with h | h <;> simp [h]

/-- Settles O11: a band row hands over the class of its duration, which the band decides. -/
theorem bandRowsClassify : Obligations.BandRowsClassify := by
  intro s d huntaken answer
  have hands {c : Cls} (hc : classify d = c) : duration d s = answer c (bitOfCls c) := by
    rw [duration_untaken huntaken, handBand, hc]
  exact ⟨fun h => hands (classify_below (by omega)), fun _ h => hands (classify_below (by omega)),
    fun h₁ h₂ => hands (classify_one h₁ h₂), fun h₁ h₂ => hands (classify_zero h₁ h₂),
    fun h => hands (classify_above h)⟩

end Sys2Proof.Machine
end

section
/-! SUPPORT. One bit of a header search, and the duration that gives it; then O12. -/

namespace Sys2Proof.Machine

/-- A bit that is no zero empties the run (R198). -/
theorem seekBit_notZero {r : Option Bool} (s : State) (h : r ≠ some false) :
    seekBit r s = .next (beginMeasure { s with bfa := { s.bfa with zeroRun := 0 } }) := by
  simp [seekBit, h]

/-- A zero with fewer than 23 before it is counted (R197). -/
theorem seekBit_zero {s : State} (h : s.bfa.zeroRun.toNat < 23) :
    seekBit (some false) s = .next (beginMeasure { s with bfa := { s.bfa with zeroRun := s.bfa.zeroRun + 1 } }) := by
  have hlt : (s.bfa.zeroRun + 1).toNat < headerBits := show _ < 24 by bv_omega
  simp only [seekBit, if_true, if_pos hlt]

/-- The 24th zero ends the search of a `RECEIVE`, which reads the sync byte next (R199, R213). -/
theorem seekBit_lastZero {s : State} (hc : s.call = .receive) (h : s.bfa.zeroRun.toNat = 23) :
    seekBit (some false) s = .next (beginByte { s with
      bfa := { s.bfa with zeroRun := 24 }
      md := { s.md with state := .readingSync } }) := by
  have hrun : s.bfa.zeroRun + 1 = 24 := by bv_omega
  simp only [seekBit, seekDone, if_true, hrun, hc]
  rfl

/-- A search gives every bit a next state and reads none of the inputs. -/
theorem seekBit_next (r : Option Bool) (s : State) : ∃ t, seekBit r s = .next t ∧ t.env = s.env := by
  unfold seekBit
  generalize (if r = some false then s.bfa.zeroRun + 1 else 0) = z
  dsimp only
  split
  · exact ⟨_, rfl, rfl⟩
  · exact ⟨_, rfl, seekDone_env _⟩

/-- A measurement that returns to a seeking `RECEIVE` gives the search one bit: beside the classifier and the values handed
over nothing changes before (R170, R196). -/
theorem measDone_seeking (m : Meas) {s : State} (hc : s.call = .receive) (hs : s.md.state = .seekingHeader) :
    ∃ p h, p.dur = s.pwc.dur ∧ measDone m s = seekBit (bitOfMeas m) { s with pwc := p, handed := h } := by
  cases m <;> simp only [measDone, bitDone, handCls, hc, hs] <;> exact ⟨_, _, rfl, rfl⟩

/-- With no answer left a search gives its bit and keeps the answers that were listed before the pulse. -/
theorem seekBit_keepsCalls (r : Option Bool) (s : State) :
    (andThen (andThen (seekBit r s) (runCalls [])) fun t =>
      .next { t with env := { t.env with calls := s.env.calls } }) = seekBit r s := by
  obtain ⟨t, ht, henv⟩ := seekBit_next r s
  rw [ht]
  show Host.Outcome.next { t with env := { t.env with calls := s.env.calls } } = .next t
  rw [← henv]

/-- A duration that a measurement can return is the pulse a seeking `RECEIVE` waits for: the search gets its bit
(R97, R163; log 14). -/
theorem duration_seeking {s : State} {d : Nat} (hc : s.call = .receive) (hs : s.md.state = .seekingHeader)
    (hp : s.pwc.phase = .waitHigh) (hd : measurable d = true) :
    ∃ p h l, p.dur.toNat = d ∧ duration d s = seekBit (bitOfDur d) { s with pwc := p, handed := h, rxLog := l } := by
  obtain ⟨p, l, hrun, -, -, hdur⟩ :=
    runCalls_read (.pulse 0 d) [] (handBand d s) (by simp [hc]) hp hd
  obtain ⟨p', h, hp', hmeas⟩ := measDone_seeking (BitRead.meas (.pulse 0 d))
    (s := { handBand d s with pwc := p, rxLog := l }) hc hs
  have hle : d ≤ 2000 := of_decide_eq_true (Bool.and_eq_true_iff.1 hd).2
  have hnat : (BitVec.ofNat 11 d).toNat = d := (BitVec.toNat_ofNat ..).trans (Nat.mod_eq_of_lt (by omega))
  have htaken : (measurable d && awaitsPulse s) = true := by simp [hd, awaitsPulse, hc, hp]
  have hbit : bitOfMeas (BitRead.meas (.pulse 0 d)) = bitOfDur d := congrArg (fun n => bitOfCls (classify n)) hnat
  refine ⟨p', h, l, ?_, ?_⟩
  · rw [hp', ← hnat, ← hdur 0 d rfl]
  · have hcalls : callsFor d = BitRead.answers (.pulse 0 d) ++ [] := (List.append_nil _).symm
    rw [hbit] at hmeas
    rw [duration, if_pos htaken, hcalls, hrun, hmeas]
    exact seekBit_keepsCalls ..

/-- Settles O12: the duration gives the search one bit, and the three ways a search takes a bit are the three clauses. -/
theorem bandsMoveTheZeroRun : Obligations.BandsMoveTheZeroRun := by
  intro s d hc hs hp _ hd waits seeks
  obtain ⟨p, h, l, hdur, htaken⟩ := duration_seeking hc hs hp hd
  have waits_of {t : State} (ht : duration d s = .next t) (hcall : t.call = s.call) (hphase : t.pwc.phase = .waitHigh)
      (hpulse : t.pwc.dur = p.dur) (hbuf : t.rxbuf = s.rxbuf) (henv : t.env = s.env) (hout : t.out = s.out) : waits t :=
    ⟨hcall.trans hc, hphase, hpulse ▸ hdur, hbuf, henv, hout, duration_sameTx ht⟩
  have empties {c : Cls} (hcls : classify d = c) (hbit : bitOfCls c ≠ some false) : seeks (duration d s) 0 := by
    have ht := htaken.trans (seekBit_notZero _ (by rwa [bitOfDur, hcls]))
    exact ⟨_, ht, waits_of ht rfl rfl rfl rfl rfl rfl, rfl, rfl, rfl, rfl⟩
  have zero (h₁ : 501 ≤ d) (h₂ : d ≤ 900) : bitOfDur d = some false := congrArg bitOfCls (classify_zero h₁ h₂)
  refine ⟨fun h => empties (classify_below (by omega)) (by decide),
    fun _ h => empties (classify_below (by omega)) (by decide),
    fun h₁ h₂ => empties (classify_one h₁ h₂) (by decide), fun h₁ h₂ hrun => ?_, fun h₁ h₂ hrun => ?_,
    fun h => empties (classify_above h) (by decide)⟩
  · rw [zero h₁ h₂] at htaken
    have ht := htaken.trans (seekBit_zero hrun)
    have hsucc : (s.bfa.zeroRun + 1).toNat = s.bfa.zeroRun.toNat + 1 := by bv_omega
    exact ⟨_, ht, waits_of ht rfl rfl rfl rfl rfl rfl, rfl, hsucc, rfl, rfl⟩
  · rw [zero h₁ h₂] at htaken
    have ht := htaken.trans (seekBit_lastZero hc hrun)
    exact ⟨_, ht, waits_of ht rfl rfl rfl rfl rfl rfl, rfl, rfl⟩

end Sys2Proof.Machine
end

section
/-! SUPPORT. The encoder at the trace level with the answers its drive calls get: what a stretch of calls leaves behind
where all answer and where one errs, for a bit and a byte; then O18, O59, O13 and O14. -/

namespace Sys2Proof.Machine

/-! ### Starts that meet a busy side, and the bytes of a frame -/

/-- Settles O18: a transmit line asks `tx.busy` first, a receive line whether the receiver is free. -/
theorem busySidesIgnoreStarts : Obligations.BusySidesIgnoreStarts := by
  refine fun s => ⟨fun hbusy => ⟨fun b => if_pos hbusy, fun b => if_pos hbusy, fun p hp => ?_⟩, fun hcall => ?_⟩
  · exact (if_neg (not_lt.2 hp)).trans (if_pos hbusy)
  · have hfree : rxFree s = false := by
      rcases hcall with hbusy | hcall
      · simp [rxFree, hbusy]
      · exact rxFree_of_call hcall
    exact ⟨startAlone_busy _ _ hfree, startAlone_busy _ _ hfree, startAlone_busy _ _ hfree, startAlone_busy _ _ hfree,
      fun cap => if_neg (by simp [hfree])⟩

theorem frameByte_header {k : BitVec 9} (s : State) (h : k.toNat ≤ 2) : frameByte s k = 0x00#8 :=
  if_pos (Nat.lt_succ_of_le h)

theorem frameByte_sync {k : BitVec 9} (s : State) (h : k.toNat = 3) : frameByte s k = syncByte := by
  simp [frameByte, h]

theorem frameByte_length {k : BitVec 9} (s : State) (h : k.toNat = 4) : frameByte s k = s.tx.len := by
  rw [frameByte, if_neg (by rw [h]; decide), if_neg (by omega), if_pos h]

theorem frameByte_payload {k : BitVec 9} (s : State) (h : 5 ≤ k.toNat) : frameByte s k = txbufByte s (k.toNat - 5) := by
  rw [frameByte, if_neg (by show ¬k.toNat < 3; omega), if_neg (by omega), if_neg (by omega)]

/-- The bytes of a frame come from `tx.len` and the memory alone (R134). -/
theorem frameByte_congr {s t : State} (hlen : t.tx.len = s.tx.len) (hbuf : t.txbuf = s.txbuf) (k : BitVec 9) :
    frameByte t k = frameByte s k := by
  simp only [frameByte, txbufByte, hlen, hbuf]

/-- Settles O59: the four kinds of bytes by their number. -/
theorem frameByteByNumber : Obligations.FrameByteByNumber := by
  refine fun s k => ⟨frameByte_header s, frameByte_sync s, frameByte_length s, fun v hk hv => ?_⟩
  rw [frameByte_payload s hk, txbufByte, hv, Option.getD_some]

/-! ### The answers of the drive calls -/

/-- Of any number of drive calls all answer `Ok`, or there is a first that errs. -/
theorem drivesOk_or_first_err (s : State) (n : Nat) :
    DrivesOk s n ∨ ∃ m e, m < n ∧ DrivesOk s m ∧ nthDrive s m = some e := by
  induction n with
  | zero => exact .inl fun j hj => absurd hj (Nat.not_lt_zero j)
  | succ n ih =>
    rcases ih with hok | ⟨m, e, hm, hok, he⟩
    · cases hn : nthDrive s n with
      | none => exact .inl fun j hj => (Nat.lt_succ_iff_lt_or_eq.1 hj).elim (hok j) (· ▸ hn)
      | some e => exact .inr ⟨n, e, n.lt_succ_self, hok, hn⟩
    · exact .inr ⟨m, e, Nat.lt_succ_of_lt hm, hok, he⟩

theorem DrivesOk.mono {s : State} {m n : Nat} (h : DrivesOk s n) (hm : m ≤ n) : DrivesOk s m :=
  fun j hj => h j (hj.trans_le hm)

theorem DrivesOk.congr {s t : State} {n : Nat} (h : DrivesOk s n) (ht : t.env = s.env) : DrivesOk t n :=
  fun j hj => (nthDrive_congr ht j).trans (h j hj)

/-- After `n` drive calls the answers that follow them are due. -/
theorem DrivesOk.after {s t : State} {m n : Nat} (h : DrivesOk s (n + m)) (ht : t.env = envAfterDrives n s.env) :
    DrivesOk t m :=
  fun j hj => (nthDrive_envAfterDrives n ht j).trans (h (n + j) (by omega))

/-! ### What a stretch of calls leaves behind -/

/-- The state after a stretch of calls whose `n` drive calls answered, the last a `SetLow`: `d` microseconds later, with
the events `evs` in the trace. -/
def sent (n d : Nat) (evs : List (Nat × TxEvent)) (s : State) : State :=
  { s with line := .lo
           env := envAfterDrives n s.env
           txLog := { now := s.txLog.now + d, trace := s.txLog.trace ++ evs } }

/-- The state after the drive call number `m` of a stretch with events `evs` answered `Err(e)`, at local time `t`
(R137). -/
def stopped (m : Nat) (e : DrvErr) (t : Nat) (evs : List (Nat × TxEvent)) (s : State) : State :=
  { s with line := Config.lineAfterErr (s.env.drvCalls + m)
           env := envAfterDrives (m + 1) s.env
           txLog := { now := t, trace := s.txLog.trace ++ cutAtDrive e m evs } }

theorem sent_sent (n₁ n₂ d₁ d₂ : Nat) (evs₁ evs₂ : List (Nat × TxEvent)) (s : State) :
    sent n₂ d₂ evs₂ (sent n₁ d₁ evs₁ s) = sent (n₁ + n₂) (d₁ + d₂) (evs₁ ++ evs₂) s := by
  simp [sent, envAfterDrives_add, Nat.add_assoc]

/-- A cut behind the drive calls of the first events leaves those whole. -/
theorem cutAtDrive_append (e : DrvErr) (evs₁ evs₂ : List (Nat × TxEvent)) (m : Nat) :
    cutAtDrive e (evs₁.countP (·.2.isDrive) + m) (evs₁ ++ evs₂) = evs₁ ++ cutAtDrive e m evs₂ := by
  induction evs₁ with
  | nil => simp
  | cons p evs₁ ih =>
    obtain ⟨t, ev⟩ := p
    cases ev <;> simp [cutAtDrive, TxEvent.isDrive, ← ih, Nat.add_right_comm _ 1 m]

/-- A cut inside the first events drops the others. -/
theorem cutAtDrive_append_of_lt (e : DrvErr) {evs₁ : List (Nat × TxEvent)} (evs₂ : List (Nat × TxEvent)) {m : Nat}
    (h : m < evs₁.countP (·.2.isDrive)) : cutAtDrive e m (evs₁ ++ evs₂) = cutAtDrive e m evs₁ := by
  induction evs₁ generalizing m with
  | nil => simp at h
  | cons p evs₁ ih =>
    obtain ⟨t, ev⟩ := p
    cases ev <;> cases m <;> simp_all [cutAtDrive, TxEvent.isDrive]

theorem stopped_sent {n : Nat} (m d t : Nat) (e : DrvErr) {evs₁ : List (Nat × TxEvent)} (evs₂ : List (Nat × TxEvent))
    (s : State) (h : evs₁.countP (·.2.isDrive) = n) :
    stopped m e t evs₂ (sent n d evs₁ s) = stopped (n + m) e t (evs₁ ++ evs₂) s := by
  subst h
  simp only [stopped, sent, cutAtDrive_append, envAfterDrives_add, List.append_assoc]
  simp [envAfterDrives, Nat.add_assoc]

theorem stopped_append {m : Nat} (t : Nat) (e : DrvErr) {evs₁ : List (Nat × TxEvent)} (evs₂ : List (Nat × TxEvent))
    (s : State) (h : m < evs₁.countP (·.2.isDrive)) : stopped m e t (evs₁ ++ evs₂) s = stopped m e t evs₁ s := by
  rw [stopped, stopped, cutAtDrive_append_of_lt e evs₂ h]

/-! ### A bit and a byte -/

theorem countP_symEvents (t : Nat) (b : Bool) : (symEvents t b).countP (·.2.isDrive) = 2 := rfl

theorem countP_bitsEvents (t : Nat) (bs : List Bool) : (bitsEvents t bs).countP (·.2.isDrive) = 2 * bs.length := by
  induction bs generalizing t with
  | nil => rfl
  | cons b bs ih => rw [bitsEvents, List.countP_append, ih, countP_symEvents, List.length_cons]; omega

theorem bitsEvents_append (t : Nat) (bs cs : List Bool) :
    bitsEvents t (bs ++ cs) = bitsEvents t bs ++ bitsEvents (t + (bs.map symPeriod).sum) cs := by
  induction bs generalizing t with
  | nil => rfl
  | cons b bs ih => simp [bitsEvents, ih, Nat.add_assoc]

/-- `SEND_BIT` whose drive calls answer (R131). -/
theorem sendBit_sent {s : State} (b : Bool) (h : DrivesOk s 2) :
    sendBit b s = (sent 2 (symPeriod b) (symEvents s.txLog.now b) s, none) :=
  sendBit_ok b s (h 0 (by omega)) (h 1 (by omega))

/-- `SEND_BIT` whose drive call number `m` errs (R132). -/
theorem sendBit_stopped {s : State} (b : Bool) {m : Nat} {e : DrvErr} (hm : m < 2) (h : DrivesOk s m)
    (he : nthDrive s m = some e) :
    ∃ t, sendBit b s = (stopped m e t (symEvents s.txLog.now b) s, some e) := by
  match m, hm with
  | 0, _ => exact ⟨_, sendBit_err_high b s e he⟩
  | 1, _ => exact ⟨_, sendBit_err_low b s e (h 0 (by omega)) he⟩

/-- The bits a byte sends under the listed numbers. -/
def bitsAt (b : Byte) (is : List (BitVec 3)) : List Bool := is.map fun i => b.getLsbD i.toNat

/-- Only the number of the last bit stays in `tx.i` (R24). -/
theorem setTxI_sent (i j : BitVec 3) (n d : Nat) (evs : List (Nat × TxEvent)) (s : State) :
    setTxI j (sent n d evs (setTxI i s)) = sent n d evs (setTxI j s) := rfl

/-- The bits of a byte whose drive calls answer, the last under number `j` (R133). -/
theorem sendBits_sent (b : Byte) (is : List (BitVec 3)) (j : BitVec 3) {s : State}
    (h : DrivesOk s (2 * (is ++ [j]).length)) :
    sendBits b (is ++ [j]) s = (sent (2 * (is ++ [j]).length) ((bitsAt b (is ++ [j])).map symPeriod).sum
      (bitsEvents s.txLog.now (bitsAt b (is ++ [j]))) (setTxI j s), none) := by
  induction is generalizing s with
  | nil =>
    have hbit := sendBit_sent (s := setTxI j s) (b.getLsbD j.toNat) h
    simp [sendBits, bitsAt, bitsEvents, hbit]
  | cons i is ih =>
    rw [List.cons_append, List.length_cons, Nat.mul_succ, Nat.add_comm] at h ⊢
    have hbit := sendBit_sent (s := setTxI i s) (b.getLsbD i.toNat) (h.mono (by omega))
    rw [sendBits, hbit]
    dsimp only
    rw [ih (DrivesOk.after h rfl), setTxI_sent, sent_sent]
    rfl

/-- The bits of a byte whose drive call number `m` errs (R133). -/
theorem sendBits_stopped (b : Byte) {is : List (BitVec 3)} {s : State} {m : Nat} {e : DrvErr} {i : BitVec 3}
    (hi : is[m / 2]? = some i) (h : DrivesOk s m) (he : nthDrive s m = some e) :
    ∃ t, sendBits b is s = (stopped m e t (bitsEvents s.txLog.now (bitsAt b is)) (setTxI i s), some e) := by
  induction is generalizing s m with
  | nil => simp at hi
  | cons i₀ is ih =>
    rw [sendBits]
    by_cases hm : m < 2
    · obtain ⟨t, hbit⟩ := sendBit_stopped (s := setTxI i₀ s) (b.getLsbD i₀.toNat) hm h he
      obtain rfl : i₀ = i := by simpa [Nat.div_eq_of_lt hm] using hi
      exact ⟨t, by rw [hbit]; exact congrArg (·, some e) (stopped_append _ _ _ _ hm).symm⟩
    · obtain ⟨m, rfl⟩ := Nat.exists_eq_add_of_le (not_lt.1 hm)
      rw [Nat.add_div_left m (by omega), List.getElem?_cons_succ] at hi
      have hbit := sendBit_sent (s := setTxI i₀ s) (b.getLsbD i₀.toNat) (h.mono (by omega))
      obtain ⟨t, hrest⟩ := ih (s := sent 2 _ _ (setTxI i₀ s)) hi (h.after rfl)
        ((nthDrive_envAfterDrives 2 rfl m).trans he)
      rw [hbit]
      dsimp only
      rw [hrest, setTxI_sent, stopped_sent _ _ _ _ _ _ (countP_symEvents ..)]
      exact ⟨t, rfl⟩

theorem symPeriod_add (b : Bool) : symPeriod b + 400 * [b].count true = 1400 := by cases b <;> rfl

/-- The symbols of a list of bits take 1400 each, less 400 for a 1 bit (R91). -/
theorem sum_symPeriod (bs : List Bool) : (bs.map symPeriod).sum + 400 * bs.count true = 1400 * bs.length := by
  induction bs with
  | nil => rfl
  | cons b bs ih =>
    have hb := symPeriod_add b
    rw [List.map_cons, List.sum_cons, List.length_cons, ← List.singleton_append, List.count_append]
    omega

theorem byteTime_add (b : Byte) : byteTime b + 400 * popcount b = 11200 := by
  have hle : popcount b ≤ 8 := List.count_le_length
  show 11200 - 400 * popcount b + 400 * popcount b = 11200
  omega

/-- The symbols of a byte take `11200 - 400 * popcount(b)` (R133). -/
theorem sum_symPeriod_byteBits (b : Byte) : ((byteBits b).map symPeriod).sum = byteTime b := by
  have hsum := sum_symPeriod (byteBits b)
  have htime := byteTime_add b
  rw [length_byteBits] at hsum
  unfold popcount at htime
  omega

/-- `SEND_BYTE` whose drive calls answer (R133). -/
theorem sendByte_sent {s : State} (b : Byte) (h : DrivesOk s 16) :
    sendByte b s = (sent 16 (byteTime b) (bitsEvents s.txLog.now (byteBits b)) (setTxI 7 s), none) := by
  rw [← sum_symPeriod_byteBits]
  exact sendBits_sent b [0, 1, 2, 3, 4, 5, 6] 7 h

theorem getElem?_bitIndices {q : Nat} (h : q < 8) : bitIndices[q]? = some (BitVec.ofNat 3 q) := by
  revert q
  decide

/-- `SEND_BYTE` whose drive call number `m` errs (R133). -/
theorem sendByte_stopped {s : State} (b : Byte) {m : Nat} {e : DrvErr} (hm : m < 16) (h : DrivesOk s m)
    (he : nthDrive s m = some e) :
    ∃ t, sendByte b s =
      (stopped m e t (bitsEvents s.txLog.now (byteBits b)) (setTxI (BitVec.ofNat 3 (m / 2)) s), some e) :=
  sendBits_stopped b (getElem?_bitIndices (by omega)) h he

/-! ### A bit or a byte started alone -/

theorem exec_sendBit {s : State} (b : Bool) (hb : s.tx.busy = false) :
    exec (.sendBit b) s = .next (handSend (sendBit b s)) :=
  if_neg (by simp [hb])

theorem exec_sendByte {s : State} (b : Byte) (hb : s.tx.busy = false) :
    exec (.sendByte b) s = .next (handSend (sendByte b s)) :=
  if_neg (by simp [hb])

/-- Settles O13: the three ways the two drive calls of a bit can answer. -/
theorem sendBitTrace : Obligations.SendBitTrace := by
  refine fun s b e hb => ⟨fun h₀ h₁ => ?_, fun h₀ => ?_, fun h₀ h₁ => ?_⟩ <;> rw [exec_sendBit b hb]
  · rw [sendBit_ok b s h₀ h₁, symPeriod, ← Nat.add_assoc]
    rfl
  · rw [sendBit_err_high b s e h₀]
    rfl
  · rw [sendBit_err_low b s e h₀ h₁]
    rfl

/-- Settles O14: the eight bits are sent, or those before the first error. -/
theorem sendByteIsEightBits : Obligations.SendByteIsEightBits := by
  refine fun s b hb => ⟨fun hok => ?_, fun m e hm hok he => ?_⟩ <;> rw [exec_sendByte b hb]
  · rw [sendByte_sent b hok]
    rfl
  · obtain ⟨t, hbyte⟩ := sendByte_stopped b hm hok he
    rw [hbyte]
    exact ⟨_, rfl, rfl, rfl, rfl, rfl, rfl, rfl, rfl, by simp [SameRx, handSend, stopped, envAfterDrives]⟩

end Sys2Proof.Machine
end

section
/-! SUPPORT. The frame at the trace level: its bytes one after the other, with their events and their time, where all
drive calls answer and where one errs; then O15, O16, O7 and O20. -/

namespace Sys2Proof.Machine

/-! ### The bytes of a frame -/

/-- The encoder stands at bit `i` of the frame byte with number `k`, whose read is done (R134, R64). -/
def atBit (k : BitVec 9) (i : BitVec 3) (s : State) : State :=
  { s with
    tx := { s.tx with k := k, i := i, cur := frameByte s k }
    out := { s.out with txAddr := if 5 ≤ k.toNat then some (BitVec.ofNat 8 (k.toNat - 5)) else s.out.txAddr } }

/-- The read of the frame byte `b` with number `k`, made from byte 5 on (R64). -/
def readEvents (t : Nat) (k : BitVec 9) (b : Byte) : List (Nat × TxEvent) :=
  if 5 ≤ k.toNat then [(t, .memRead (k.toNat - 5) b)] else []

/-- The events of the frame byte `b` with number `k`: its read, then its symbols (R64, R136). -/
def byteEvents (t : Nat) (k : BitVec 9) (b : Byte) : List (Nat × TxEvent) :=
  readEvents t k b ++ bitsEvents t (byteBits b)

/-- The events of frame bytes sent one after the other from local time `t`, each listed with its number. -/
def bytesEvents : Nat → List (BitVec 9 × Byte) → List (Nat × TxEvent)
  | _, [] => []
  | t, c :: cs => byteEvents t c.1 c.2 ++ bytesEvents (t + byteTime c.2) cs

/-- The frame bytes with the listed numbers (R134). -/
def bytesAt (s : State) (ks : List (BitVec 9)) : List (BitVec 9 × Byte) := ks.map fun k => (k, frameByte s k)

theorem countP_readEvents (t : Nat) (k : BitVec 9) (b : Byte) : (readEvents t k b).countP (·.2.isDrive) = 0 := by
  unfold readEvents
  split <;> rfl

theorem countP_byteEvents (t : Nat) (k : BitVec 9) (b : Byte) : (byteEvents t k b).countP (·.2.isDrive) = 16 := by
  rw [byteEvents, List.countP_append, countP_readEvents, countP_bitsEvents, length_byteBits]

/-- A frame byte starts: the position, and its read in the trace (R136). -/
theorem loadByte_eq (k : BitVec 9) (s : State) :
    loadByte k s = { atBit k 0 s with
      txLog := { s.txLog with trace := s.txLog.trace ++ readEvents s.txLog.now k (frameByte s k) } } := by
  by_cases hk : 5 ≤ k.toNat <;> simp [loadByte, atBit, readEvents, logTx, hk]

/-- A frame byte whose drive calls answer. -/
theorem sendByte_loadByte_sent {s : State} (k : BitVec 9) (h : DrivesOk s 16) :
    sendByte (loadByte k s).tx.cur (loadByte k s) =
      (sent 16 (byteTime (frameByte s k)) (byteEvents s.txLog.now k (frameByte s k)) (atBit k 7 s), none) := by
  rw [sendByte_sent _ (h.congr (by simp)), loadByte_eq]
  simp [sent, byteEvents, atBit]

/-- A frame byte whose drive call number `m` errs. -/
theorem sendByte_loadByte_stopped {s : State} (k : BitVec 9) {m : Nat} {e : DrvErr} (hm : m < 16) (h : DrivesOk s m)
    (he : nthDrive s m = some e) :
    ∃ t, sendByte (loadByte k s).tx.cur (loadByte k s) =
      (stopped m e t (byteEvents s.txLog.now k (frameByte s k)) (atBit k (BitVec.ofNat 3 (m / 2)) s), some e) := by
  obtain ⟨t, hbyte⟩ := sendByte_stopped (s := loadByte k s) (loadByte k s).tx.cur hm (h.congr (by simp))
    ((nthDrive_congr (by simp) m).trans he)
  refine ⟨t, hbyte.trans ?_⟩
  have hcut := cutAtDrive_append e (readEvents s.txLog.now k (frameByte s k))
    (bitsEvents s.txLog.now (byteBits (frameByte s k))) m
  rw [countP_readEvents, Nat.zero_add] at hcut
  rw [loadByte_eq]
  simp [stopped, byteEvents, atBit, hcut]

/-- A frame byte with a higher number takes the position over. -/
theorem atBit_sent {k k' : BitVec 9} (hk : k.toNat ≤ k'.toNat) (i i' : BitVec 3) (n d : Nat)
    (evs : List (Nat × TxEvent)) (s : State) :
    atBit k' i' (sent n d evs (atBit k i s)) = sent n d evs (atBit k' i' s) := by
  by_cases hk' : 5 ≤ k'.toNat
  · simp [atBit, sent, hk']
    rfl
  · have hk : ¬5 ≤ k.toNat := by omega
    simp [atBit, sent, hk, hk']
    rfl

/-- The bytes of a frame with rising numbers whose drive calls answer, the last with number `k` (R136). -/
theorem sendBytes_sent (ks : List (BitVec 9)) (k : BitVec 9) {s : State}
    (hks : (ks ++ [k]).Pairwise (·.toNat ≤ ·.toNat)) (h : DrivesOk s (16 * (ks ++ [k]).length)) :
    sendBytes (ks ++ [k]) s = (sent (16 * (ks ++ [k]).length) ((bytesAt s (ks ++ [k])).map (byteTime ·.2)).sum
      (bytesEvents s.txLog.now (bytesAt s (ks ++ [k]))) (atBit k 7 s), none) := by
  induction ks generalizing s with
  | nil =>
    rw [List.nil_append, sendBytes, sendByte_loadByte_sent k h]
    simp [sendBytes, bytesAt, bytesEvents]
  | cons k₀ ks ih =>
    rw [List.cons_append, List.length_cons, Nat.mul_succ, Nat.add_comm] at h ⊢
    rw [List.cons_append, List.pairwise_cons] at hks
    rw [sendBytes, sendByte_loadByte_sent k₀ (h.mono (by omega))]
    dsimp only
    rw [ih hks.2 (h.after rfl), atBit_sent (hks.1 k (by simp)), sent_sent]
    rfl

/-- The bytes of a frame with rising numbers whose drive call number `m` errs, in the byte with number `k` (R137). -/
theorem sendBytes_stopped {ks : List (BitVec 9)} {k : BitVec 9} {s : State} {m : Nat} {e : DrvErr}
    (hks : ks.Pairwise (·.toNat ≤ ·.toNat)) (hk : ks[m / 16]? = some k) (h : DrivesOk s m)
    (he : nthDrive s m = some e) :
    ∃ t, sendBytes ks s = (stopped m e t (bytesEvents s.txLog.now (bytesAt s ks))
      (atBit k (BitVec.ofNat 3 (m % 16 / 2)) s), some e) := by
  induction ks generalizing s m with
  | nil => simp at hk
  | cons k₀ ks ih =>
    rw [sendBytes]
    by_cases hm : m < 16
    · obtain ⟨t, hbyte⟩ := sendByte_loadByte_stopped k₀ hm h he
      obtain rfl : k₀ = k := by simpa [Nat.div_eq_of_lt hm] using hk
      refine ⟨t, ?_⟩
      rw [hbyte, Nat.mod_eq_of_lt hm]
      exact congrArg (·, some e) (stopped_append _ _ _ _ (by rwa [countP_byteEvents])).symm
    · obtain ⟨m, rfl⟩ := Nat.exists_eq_add_of_le (not_lt.1 hm)
      rw [Nat.add_div_left m (by omega), List.getElem?_cons_succ] at hk
      obtain ⟨hfirst, hrest⟩ := List.pairwise_cons.1 hks
      rw [sendByte_loadByte_sent k₀ (h.mono (by omega))]
      dsimp only
      obtain ⟨t, hbytes⟩ := ih (s := sent 16 _ _ (atBit k₀ 7 s)) hrest hk (h.after rfl)
        ((nthDrive_envAfterDrives 16 rfl m).trans he)
      rw [hbytes, atBit_sent (hfirst k (List.mem_of_getElem? hk)), stopped_sent _ _ _ _ _ _ (countP_byteEvents ..),
        Nat.add_mod_left]
      exact ⟨t, rfl⟩

/-! ### The frame of a payload -/

/-- The state in which the first frame byte of an accepted `SEND` of `p` is due, the payload stored (R135, R285). -/
def accepted (p : List Byte) (s : State) : State :=
  acceptSend (BitVec.ofNat 8 p.length) { s with txbuf := Memory.writeList s.txbuf 0 p }

/-- Bytes with their numbers, the first with number `j`. -/
def numbered (j : Nat) (p : List Byte) : List (BitVec 9 × Byte) := (p.zipIdx j).map fun c => (BitVec.ofNat 9 c.2, c.1)

theorem exec_send {s : State} {p : List Byte} (hp : p.length ≤ 255) (hb : s.tx.busy = false) :
    exec (.send p) s = .next (endSend (sendBytes (frameIndices p.length) (accepted p s)).2
      (sendBytes (frameIndices p.length) (accepted p s)).1) := by
  have hlen : (BitVec.ofNat 8 p.length).toNat = p.length := (BitVec.toNat_ofNat ..).trans (Nat.mod_eq_of_lt (by omega))
  calc exec (.send p) s
    _ = .next (runSend (accepted p s)) := (if_neg (not_lt.2 hp)).trans (if_neg (by simp [hb]))
    _ = _ := by simp only [runSend, accepted, acceptSend_tx, hlen]

theorem frameIndices_eq_append (n : Nat) :
    frameIndices n = (List.range (n + 4)).map (BitVec.ofNat 9) ++ [BitVec.ofNat 9 (n + 4)] := by
  simp [frameIndices, frameOverheadBytes, List.range_succ]

theorem length_frameIndices (n : Nat) : (frameIndices n).length = 5 + n := by
  simp [frameIndices, frameOverheadBytes, Nat.add_comm]

theorem getElem?_frameIndices {n q : Nat} (h : q < 5 + n) : (frameIndices n)[q]? = some (BitVec.ofNat 9 q) := by
  simp [frameIndices, frameOverheadBytes, show q < n + 5 by omega]

theorem toNat_ofNat9 {k : Nat} (h : k < 512) : (BitVec.ofNat 9 k).toNat = k :=
  (BitVec.toNat_ofNat ..).trans (Nat.mod_eq_of_lt h)

/-- The numbers of a frame's bytes rise. -/
theorem frameIndices_pairwise {n : Nat} (h : n ≤ 255) : (frameIndices n).Pairwise (·.toNat ≤ ·.toNat) := by
  rw [frameIndices, List.pairwise_map]
  refine List.pairwise_lt_range.imp_of_mem fun {a b} ha hb hab => ?_
  rw [List.mem_range, frameOverheadBytes] at ha hb
  rw [toNat_ofNat9 (by omega), toNat_ofNat9 (by omega)]
  exact hab.le

/-- Byte `k` of the frame of an accepted `SEND` (R134, R285). -/
theorem frameByte_accepted {p : List Byte} (hp : p.length ≤ 255) (s : State) {k : Nat} (h : k < (frameBytes p).length) :
    frameByte (accepted p s) (BitVec.ofNat 9 k) = (frameBytes p)[k] := by
  match k, h with
  | 0, _ | 1, _ | 2, _ | 3, _ | 4, _ => rfl
  | k + 5, h =>
    have hk : k < p.length := by simpa [frameBytes] using h
    have hnum : (BitVec.ofNat 9 (k + 5)).toNat = k + 5 := toNat_ofNat9 (by omega)
    have hread := Memory.read_writeList s.txbuf 0 k p hk
    rw [Nat.zero_add] at hread
    rw [frameByte_payload _ (by omega), hnum, Nat.add_sub_cancel, txbufByte, accepted, acceptSend_txbuf, hread]
    rfl

/-- The bytes an accepted `SEND` sends are those of its frame. -/
theorem bytesAt_accepted {p : List Byte} (hp : p.length ≤ 255) (s : State) :
    bytesAt (accepted p s) (frameIndices p.length) = numbered 0 (frameBytes p) := by
  refine List.ext_getElem (by simp [bytesAt, numbered, length_frameIndices, frameBytes]; omega) fun k _ hk => ?_
  have hk : k < (frameBytes p).length := by simpa [numbered] using hk
  simpa [bytesAt, numbered, frameIndices] using frameByte_accepted hp s hk

/-- The events of numbered payload bytes. -/
theorem bytesEvents_numbered {j : Nat} {p : List Byte} (h : j + p.length ≤ 255) (t : Nat) :
    bytesEvents t (numbered (5 + j) p) = payloadEvents t j p := by
  induction p generalizing j t with
  | nil => rfl
  | cons b p ih =>
    rw [List.length_cons] at h
    have hread : byteEvents t (BitVec.ofNat 9 (5 + j)) b = (t, .memRead j b) :: bitsEvents t (byteBits b) := by
      simp [byteEvents, readEvents, Nat.mod_eq_of_lt (show 5 + j < 512 by omega)]
    calc bytesEvents t (numbered (5 + j) (b :: p))
      _ = byteEvents t (BitVec.ofNat 9 (5 + j)) b ++ bytesEvents (t + byteTime b) (numbered (5 + (j + 1)) p) := rfl
      _ = payloadEvents t j (b :: p) := by rw [hread, ih (by omega)]; rfl

/-- The events of the bytes in front of the payload, which are read from nowhere (R134). -/
theorem bytesEvents_numbered_fields {j : Nat} {bs : List Byte} (h : j + bs.length ≤ 5) (t : Nat) :
    bytesEvents t (numbered j bs) = bitsEvents t (bs.flatMap byteBits) := by
  induction bs generalizing j t with
  | nil => rfl
  | cons b bs ih =>
    rw [List.length_cons] at h
    have hfield : byteEvents t (BitVec.ofNat 9 j) b = bitsEvents t (byteBits b) := by
      simp [byteEvents, readEvents, Nat.mod_eq_of_lt (show j < 512 by omega), show ¬5 ≤ j by omega]
    calc bytesEvents t (numbered j (b :: bs))
      _ = byteEvents t (BitVec.ofNat 9 j) b ++ bytesEvents (t + byteTime b) (numbered (j + 1) bs) := rfl
      _ = bitsEvents t ((b :: bs).flatMap byteBits) := by
        rw [hfield, ih (by omega), List.flatMap_cons, bitsEvents_append, sum_symPeriod_byteBits]

theorem bytesEvents_append (t : Nat) (cs ds : List (BitVec 9 × Byte)) :
    bytesEvents t (cs ++ ds) = bytesEvents t cs ++ bytesEvents (t + (cs.map (byteTime ·.2)).sum) ds := by
  induction cs generalizing t with
  | nil => rfl
  | cons c cs ih => simp [bytesEvents, ih, Nat.add_assoc]

/-- The fields in front of the payload have the numbers 0 to 4 (R134). -/
theorem numbered_frameBytes (p : List Byte) : numbered 0 (frameBytes p) =
    numbered 0 [0x00#8, 0x00#8, 0x00#8, syncByte, BitVec.ofNat 8 p.length] ++ numbered (5 + 0) p := rfl

/-- The events of the frame's bytes are those of the frame (R136). -/
theorem bytesEvents_frameBytes {p : List Byte} (h : p.length ≤ 255) (t : Nat) :
    bytesEvents t (numbered 0 (frameBytes p)) = frameEvents t p := by
  have htime : ((numbered 0 [0x00#8, 0x00#8, 0x00#8, syncByte, BitVec.ofNat 8 p.length]).map (byteTime ·.2)).sum =
      3 * byteTime 0#8 + byteTime syncByte + byteTime (BitVec.ofNat 8 p.length) := by
    simp [numbered]
    omega
  rw [numbered_frameBytes, bytesEvents_append, bytesEvents_numbered (by omega),
    bytesEvents_numbered_fields (by simp), htime, frameEvents, ← Nat.add_assoc, ← Nat.add_assoc]
  rfl

theorem map_snd_numbered (j : Nat) (p : List Byte) : (numbered j p).map Prod.snd = p := by
  rw [numbered, List.map_map]
  exact List.zipIdx_map_fst ..

/-- The bytes of the frame take `D(p)` together (R138). -/
theorem sum_byteTime_frameBytes (p : List Byte) : ((frameBytes p).map byteTime).sum = frameTime p := by
  simp only [frameBytes, frameTime, List.map_append, List.map_cons, List.map_nil, List.sum_append, List.sum_cons,
    List.sum_nil]
  omega

/-- The bytes of a frame whose drive calls answer (R136, R138). -/
theorem sendFrame_sent {s : State} {p : List Byte} (hp : p.length ≤ 255) (h : DrivesOk s (16 * (5 + p.length))) :
    sendBytes (frameIndices p.length) (accepted p s) = (sent (16 * (5 + p.length)) (frameTime p)
      (frameEvents s.txLog.now p) (atBit (BitVec.ofNat 9 (p.length + 4)) 7 (accepted p s)), none) := by
  have hsum : ((numbered 0 (frameBytes p)).map (byteTime ·.2)).sum = frameTime p := by
    rw [← sum_byteTime_frameBytes, ← map_snd_numbered 0 (frameBytes p), List.map_map, map_snd_numbered]
    rfl
  have hsent := sendBytes_sent ((List.range (p.length + 4)).map (BitVec.ofNat 9)) (BitVec.ofNat 9 (p.length + 4))
    (s := accepted p s) (frameIndices_eq_append _ ▸ frameIndices_pairwise hp)
    (frameIndices_eq_append _ ▸ length_frameIndices _ ▸ h)
  rw [← frameIndices_eq_append, bytesAt_accepted hp, hsum, bytesEvents_frameBytes hp, length_frameIndices] at hsent
  exact hsent

/-- The bytes of a frame whose drive call number `m` errs (R137). -/
theorem sendFrame_stopped {s : State} {p : List Byte} {m : Nat} {e : DrvErr} (hp : p.length ≤ 255)
    (hm : m < 16 * (5 + p.length)) (h : DrivesOk s m) (he : nthDrive s m = some e) :
    ∃ t, sendBytes (frameIndices p.length) (accepted p s) = (stopped m e t (frameEvents s.txLog.now p)
      (atBit (BitVec.ofNat 9 (m / 16)) (BitVec.ofNat 3 (m % 16 / 2)) (accepted p s)), some e) := by
  obtain ⟨t, hstopped⟩ := sendBytes_stopped (s := accepted p s) (frameIndices_pairwise hp)
    (getElem?_frameIndices (q := m / 16) (by omega)) h he
  rw [bytesAt_accepted hp, bytesEvents_frameBytes hp] at hstopped
  exact ⟨t, hstopped⟩

theorem getLast_frameBytes {p : List Byte} (hp : p.length ≤ 255) (s : State) :
    frameByte (accepted p s) (BitVec.ofNat 9 (p.length + 4)) = (frameBytes p).getLast (by simp [frameBytes]) := by
  have hlast : p.length + 4 < (frameBytes p).length := by simp [frameBytes]
  rw [frameByte_accepted hp s hlast]
  exact (List.getLast_eq_getElem _).symm

/-- Settles O15: the frame is sent, byte by byte, and the last byte is the last of the payload where there is one. -/
theorem sendSendsTheFrame : Obligations.SendSendsTheFrame := by
  intro s p hp hb hok
  rw [exec_send hp hb, sendFrame_sent hp hok, ← getLast_frameBytes hp s]
  have haddr : (if 5 ≤ (BitVec.ofNat 9 (p.length + 4)).toNat
      then some (BitVec.ofNat 8 ((BitVec.ofNat 9 (p.length + 4)).toNat - 5)) else s.out.txAddr) =
      if p = [] then s.out.txAddr else some (BitVec.ofNat 8 (p.length - 1)) := by
    rw [toNat_ofNat9 (by omega)]
    cases p <;> simp
  rw [← haddr]
  rfl

/-- Settles O16: drive call `m` is that of bit `m % 16 / 2` of byte `m / 16`. -/
theorem sendFailsAtTheFirstError : Obligations.SendFailsAtTheFirstError := by
  intro s p m e hp hb hm hok he
  obtain ⟨t, hstopped⟩ := sendFrame_stopped hp hm hok he
  rw [exec_send hp hb, hstopped]
  have hlen : (BitVec.ofNat 8 p.length).toNat = p.length := (BitVec.toNat_ofNat ..).trans (Nat.mod_eq_of_lt (by omega))
  have hbit : (BitVec.ofNat 3 (m % 16 / 2)).toNat = m % 16 / 2 :=
    (BitVec.toNat_ofNat ..).trans (Nat.mod_eq_of_lt (by omega))
  exact ⟨_, rfl, rfl, rfl, rfl, rfl, hlen, toNat_ofNat9 (by omega), hbit, rfl, rfl, rfl, rfl, rfl,
    by simp [SameRx, endSend, stopped, atBit, accepted, acceptSend, envAfterDrives]⟩

/-! ### The duration of a frame (R138) -/

theorem sum_byteTime_add (bs : List Byte) :
    (bs.map byteTime).sum + 400 * (bs.map popcount).sum = 11200 * bs.length := by
  induction bs with
  | nil => rfl
  | cons b bs ih =>
    have hb := byteTime_add b
    rw [List.map_cons, List.map_cons, List.sum_cons, List.sum_cons, List.length_cons]
    omega

theorem sum_bitsWave (bs : List Bool) : ((bitsWave bs).map (·.2)).sum = (bs.map symPeriod).sum := by
  induction bs with
  | nil => rfl
  | cons b bs ih =>
    calc ((bitsWave (b :: bs)).map (·.2)).sum
      _ = ((symWave b).map (·.2)).sum + ((bitsWave bs).map (·.2)).sum := by
        rw [bitsWave, List.flatMap_cons, List.map_append, List.sum_append, bitsWave]
      _ = ((b :: bs).map symPeriod).sum := by rw [ih]; rfl

theorem sum_symPeriod_flatMap (bs : List Byte) :
    ((bs.flatMap byteBits).map symPeriod).sum = (bs.map byteTime).sum := by
  induction bs with
  | nil => rfl
  | cons b bs ih => simp [sum_symPeriod_byteBits, ih]

theorem encodeBits_eq_flatMap (p : List Byte) : encodeBits p = (frameBytes p).flatMap byteBits := rfl

theorem byteTime_zero : byteTime 0x00#8 = 11200 := rfl
theorem byteTime_ones : byteTime 0xFF#8 = 8000 := rfl
theorem byteTime_sync : byteTime syncByte = 9600 := rfl

/-- `D(p)` of a payload of one byte value, `n` times. -/
theorem frameTime_replicate (n : Nat) (b : Byte) :
    frameTime (List.replicate n b) = 43200 + byteTime (BitVec.ofNat 8 n) + n * byteTime b := by
  rw [frameTime, byteTime_zero, byteTime_sync, List.length_replicate, List.map_replicate, List.sum_replicate,
    smul_eq_mul]

/-- Settles O7: the time of each byte is counted in its 1 bits, the waveform is that of the frame's bytes, and the run
of a `SEND` is O15's. -/
theorem frameDuration : Obligations.FrameDuration := by
  intro p hp
  have hbytes := sum_byteTime_frameBytes p
  refine ⟨?_, ?_, ?_, fun s hb hok => ⟨_, sendSendsTheFrame s p hp hb hok, rfl, rfl⟩, ?_, ?_, ?_⟩
  · have hsum := sum_byteTime_add (frameBytes p)
    have hones : ((frameBytes p).map popcount).sum =
        4 + popcount (BitVec.ofNat 8 p.length) + (p.map popcount).sum := by
      simp only [frameBytes, List.map_append, List.map_cons, List.map_nil, List.sum_append, List.sum_cons, List.sum_nil,
        show popcount 0x00#8 = 0 from rfl, show popcount syncByte = 4 from rfl]
      omega
    have hlen : (frameBytes p).length = 5 + p.length := by simp [frameBytes]; omega
    rw [hbytes, hones, hlen] at hsum
    omega
  · have hlen := byteTime_add (BitVec.ofNat 8 p.length)
    show frameTime p + _ = 33600 + 9600 + 11200 + (p.map byteTime).sum
    rw [frameTime, byteTime_zero, byteTime_sync]
    omega
  · rw [encodeWave, sum_bitsWave, encodeBits_eq_flatMap, sum_symPeriod_flatMap, hbytes]
  · rintro rfl
    exact frameTime_replicate 0 0
  · rintro rfl
    rw [frameTime_replicate, byteTime_zero]
    rfl
  · rintro rfl
    rw [frameTime_replicate, byteTime_ones]

/-! ### What the transmit operations leave alone -/

section
variable {s t : State} (hb : s.tx.busy = false)
include hb

/-- A `SEND_BIT` that is run, whatever its drive calls answer. -/
theorem execSendBit_leaves {b : Bool} (ht : exec (.sendBit b) s = .next t) :
    SameRx s t ∧ t.txbuf = s.txbuf ∧ t.out = s.out := by
  rw [exec_sendBit b hb] at ht
  rcases drivesOk_or_first_err s 2 with hok | ⟨m, e, hm, hok, he⟩
  · rw [sendBit_sent b hok] at ht
    cases ht
    exact ⟨by simp [SameRx, sent, envAfterDrives], rfl, rfl⟩
  · obtain ⟨_, hbit⟩ := sendBit_stopped b hm hok he
    rw [hbit] at ht
    cases ht
    exact ⟨by simp [SameRx, stopped, envAfterDrives], rfl, rfl⟩

/-- A `SEND_BYTE` that is run, whatever its drive calls answer. -/
theorem execSendByte_leaves {b : Byte} (ht : exec (.sendByte b) s = .next t) :
    SameRx s t ∧ t.txbuf = s.txbuf ∧ t.out = s.out := by
  rw [exec_sendByte b hb] at ht
  rcases drivesOk_or_first_err s 16 with hok | ⟨m, e, hm, hok, he⟩
  · rw [sendByte_sent b hok] at ht
    cases ht
    exact ⟨by simp [SameRx, sent, envAfterDrives], rfl, rfl⟩
  · obtain ⟨_, hbyte⟩ := sendByte_stopped b hm hok he
    rw [hbyte] at ht
    cases ht
    exact ⟨by simp [SameRx, stopped, envAfterDrives], rfl, rfl⟩

/-- A `SEND` that is run, whatever its drive calls answer: its payload is stored. -/
theorem execSend_leaves {p : List Byte} (hp : p.length ≤ 255) (ht : exec (.send p) s = .next t) :
    SameRx s t ∧ t.txbuf = Memory.writeList s.txbuf 0 p := by
  rcases drivesOk_or_first_err s (16 * (5 + p.length)) with hok | ⟨m, e, hm, hok, he⟩
  · cases ht.symm.trans (sendSendsTheFrame s p hp hb hok)
    exact ⟨by simp [SameRx, envAfterDrives], rfl⟩
  · obtain ⟨u, hu, -, -, -, -, -, -, -, -, -, hbuf, -, -, hrx⟩ := sendFailsAtTheFirstError s p m e hp hb hm hok he
    cases ht.symm.trans hu
    exact ⟨hrx, hbuf⟩

end

/-- Settles O20: an operation is run, ignored by a busy encoder, or refused for a payload that is too long. -/
theorem transmitLeavesTheReceiver : Obligations.TransmitLeavesTheReceiver := by
  intro s t b c p
  have hself : SameRx s s ∧ s.txbuf = s.txbuf ∧ s.out = s.out := ⟨SameRx.refl s, rfl, rfl⟩
  have hlong (hp : maxPayload < p.length) : exec (.send p) s ≠ .next t := by
    rw [show exec (.send p) s = _ from execSend_tooLong s hp]
    simp
  cases hb : s.tx.busy with
  | true =>
    obtain ⟨hbit, hbyte, hsend⟩ := (busySidesIgnoreStarts s).1 hb
    refine ⟨fun ht => ?_, fun ht => ?_, fun ht => ?_⟩
    · cases ht.symm.trans (hbit b)
      exact hself
    · cases ht.symm.trans (hbyte c)
      exact hself
    · cases ht.symm.trans (hsend p (not_lt.1 fun hp => hlong hp ht))
      exact ⟨SameRx.refl s, fun _ _ => rfl⟩
  | false =>
    refine ⟨execSendBit_leaves hb, execSendByte_leaves hb, fun ht => ?_⟩
    obtain ⟨hrx, hbuf⟩ := execSend_leaves hb (not_lt.1 fun hp => hlong hp ht) ht
    exact ⟨hrx, fun a ha => by rw [hbuf, Memory.read_writeList_other _ _ _ _ (.inr (by omega))]⟩

end Sys2Proof.Machine
end

section
/-! SUPPORT. A tick of the encoder: the acceptance tick, and the encoder's half of a tick with any receiver put beside it;
then O42 and O51. -/

namespace Sys2Proof.Machine

/-! ### The host's stores and the acceptance tick -/

theorem hostStore_idle (h : HostIn) {s : State} (hb : s.tx.busy = false) :
    hostStore h s = { s with txbuf := Memory.storeAll s.txbuf h.txStore } := by
  simp [hostStore, hb]

/-- A host without stores leaves the state as it is. -/
theorem hostStore_empty {h : HostIn} (hstore : h.txStore = []) (s : State) : hostStore h s = s := by
  cases hb : s.tx.busy with
  | true => simp [hostStore, hb]
  | false => rw [hostStore_idle h hb, hstore]; rfl

/-- Settles O42: byte 0 of the frame starts with the high interval of its 0 bit. -/
theorem acceptanceTickOfSend : Obligations.AcceptanceTickOfSend := by
  intro s h pin hr hs hrx hb hc hok
  have hdrive : nthDrive (loadByte 0 (acceptSend h.txLenIn (hostStore h (clearOut s)))) 0 = none :=
    (nthDrive_congr (by simp) 0).trans hok
  rw [tickWith_rxIdle h pin s hr hrx hc, txTick_accepts (by simpa using hb) hs, startBit, drive_ok _ _ hdrive,
    hostStore_idle h (s := clearOut s) hb]
  simp [loadByte, frameByte, passTick, acceptSend, clearOut, logTx, envAfterDrives, highTime, driveEvent]

/-! ### The encoder beside any receiver (R248) -/

/-- The machine `r` with the encoder of `s`: its registers, line, memory, trace, outputs and drive answers. -/
def withEncoderOf (s r : State) : State :=
  { r with
    tx := s.tx
    line := s.line
    txbuf := s.txbuf
    txLog := s.txLog
    out := { r.out with txDone := s.out.txDone, txAddr := s.out.txAddr }
    env := { r.env with drvTied := s.env.drvTied, drv := s.env.drv, drvCalls := s.env.drvCalls } }

theorem drive_withEncoderOf (l : Level) (s r : State) :
    drive l (withEncoderOf s r) = (withEncoderOf (drive l s).1 r, (drive l s).2) := by
  cases h : nthDrive s 0 with
  | none => rw [drive_ok l s h, drive_ok l (withEncoderOf s r) h]; rfl
  | some e => rw [drive_err l s e h, drive_err l (withEncoderOf s r) e h]; rfl

theorem startBit_withEncoderOf (s r : State) : startBit (withEncoderOf s r) = withEncoderOf (startBit s) r := by
  rw [startBit, startBit, drive_withEncoderOf]
  rcases drive .hi s with ⟨u, _ | e⟩ <;> rfl

theorem startGap_withEncoderOf (s r : State) : startGap (withEncoderOf s r) = withEncoderOf (startGap s) r := by
  rw [startGap, startGap, drive_withEncoderOf]
  rcases drive .lo s with ⟨u, _ | e⟩ <;> rfl

theorem loadByte_withEncoderOf (k : BitVec 9) (s r : State) :
    loadByte k (withEncoderOf s r) = withEncoderOf (loadByte k s) r := by
  rw [loadByte_eq, loadByte_eq]
  rfl

theorem bitComplete_withEncoderOf (s r : State) :
    bitComplete (withEncoderOf s r) = withEncoderOf (bitComplete s) r := by
  have hsplit : bitComplete (withEncoderOf s r) =
      if s.tx.i.toNat < 7 then startBit (withEncoderOf (setTxI (s.tx.i + 1) s) r)
      else if s.tx.k.toNat < s.tx.len.toNat + 4 then startBit (loadByte (s.tx.k + 1) (withEncoderOf s r))
      else withEncoderOf (endSend none s) r := rfl
  rw [hsplit, loadByte_withEncoderOf, startBit_withEncoderOf, startBit_withEncoderOf, bitComplete]
  split_ifs <;> rfl

/-- The encoder's half of a tick is the same beside any receiver. -/
theorem txTick_withEncoderOf (h : HostIn) (s r : State) :
    txTick h (withEncoderOf s r) = withEncoderOf (txTick h s) r := by
  cases hb : s.tx.busy with
  | false =>
    cases hs : h.txStart with
    | false => rw [txTick_rests hb hs, txTick_rests (s := withEncoderOf s r) hb hs]
    | true =>
      rw [txTick_accepts hb hs, txTick_accepts (s := withEncoderOf s r) hb hs, ← startBit_withEncoderOf,
        ← loadByte_withEncoderOf]
      rfl
  | true =>
    cases hp : s.tx.phase with
    | idle => simp [txTick, hb, hp, withEncoderOf]
    | high =>
      rw [txTick_high hb hp, txTick_high (s := withEncoderOf s r) hb hp, apply_ite (withEncoderOf · r),
        ← startGap_withEncoderOf]
      rfl
    | gap =>
      rw [txTick_gap hb hp, txTick_gap (s := withEncoderOf s r) hb hp, apply_ite (withEncoderOf · r),
        ← bitComplete_withEncoderOf]
      rfl

theorem hostStore_withEncoderOf (h : HostIn) (s r : State) :
    hostStore h (withEncoderOf s r) = withEncoderOf (hostStore h s) r := by
  cases hb : s.tx.busy with
  | false => rw [hostStore_idle h hb, hostStore_idle h (s := withEncoderOf s r) hb]; rfl
  | true => simp [hostStore, hb, withEncoderOf]

/-- A machine that has the encoder of `s`, field by field. -/
theorem withEncoderOf_eq_self_iff {s r : State} : withEncoderOf s r = r ↔
    r.tx = s.tx ∧ r.line = s.line ∧ r.txbuf = s.txbuf ∧ r.txLog = s.txLog ∧ r.out.txDone = s.out.txDone ∧
      r.out.txAddr = s.out.txAddr ∧ r.env.drvTied = s.env.drvTied ∧ r.env.drv = s.env.drv ∧
      r.env.drvCalls = s.env.drvCalls := by
  constructor
  · intro h
    rw [← h]
    exact ⟨rfl, rfl, rfl, rfl, rfl, rfl, rfl, rfl, rfl⟩
  · rintro ⟨htx, hline, hbuf, hlog, hdone, haddr, htied, hdrv, hcalls⟩
    simp [withEncoderOf, ← htx, ← hline, ← hbuf, ← hlog, ← hdone, ← haddr, ← htied, ← hdrv, ← hcalls]

/-- An operation that leaves the encoder alone ends with the encoder it found. -/
theorem SameTx.withEncoderOf_eq {s t : State} (h : SameTx s t) : withEncoderOf s t = t := by
  obtain ⟨htx, hline, hbuf, hlog, -, -, hdone, haddr, henv⟩ := h
  refine withEncoderOf_eq_self_iff.2 ⟨htx, hline, hbuf, hlog, hdone, haddr, ?_⟩
  rw [← henv]
  exact ⟨rfl, rfl, rfl⟩

/-- The state in which the encoder's half of a tick is done, a reset included (R140, R280). -/
def encoderHalf (h : HostIn) (s : State) : State :=
  if h.rst then resetRegs (hostStore h (clearOut s)) else txTick h (hostStore h (clearOut s))

/-- The encoder after a tick is that of its half: the receiver's half leaves it alone. -/
theorem tickWith_encoderHalf {h : HostIn} {pin : State → PinSample} {s t : State} (ht : tickWith h pin s = .next t) :
    withEncoderOf (passTick (encoderHalf h s)) t = t := by
  cases hr : h.rst with
  | true =>
    rw [tickWith_reset h pin s hr] at ht
    cases ht
    have hclear : hostStore h (clearOut s) = clearOut (hostStore h s) := by
      cases hb : s.tx.busy <;> simp [hostStore, hb, clearOut]
    rw [encoderHalf, if_pos hr, hclear]
    rfl
  | false =>
    obtain ⟨u, hu, rfl⟩ := (tickWith_eq_next hr).1 ht
    rw [encoderHalf, if_neg (by simp [hr])]
    exact congrArg passTick (rxTick_sameTx hu).withEncoderOf_eq

/-- The encoder's half of a tick is the same beside any receiver, a reset included. -/
theorem encoderHalf_withEncoderOf (h : HostIn) (s r : State) :
    withEncoderOf (encoderHalf h s) (encoderHalf h (withEncoderOf s r)) = encoderHalf h (withEncoderOf s r) := by
  have hstore : hostStore h (clearOut (withEncoderOf s r)) = withEncoderOf (hostStore h (clearOut s)) (clearOut r) :=
    hostStore_withEncoderOf h (clearOut s) (clearOut r)
  unfold encoderHalf
  rw [hstore, txTick_withEncoderOf]
  split <;> rfl

/-- Settles O51: the first machine is the second one's encoder beside another receiver. -/
theorem encoderIgnoresTheReceiver : Obligations.EncoderIgnoresTheReceiver := by
  intro s₁ s₂ t₁ t₂ h pin₁ pin₂ htx hline hbuf hlog htied hdrv hcalls ht₁ ht₂
  have hsame : withEncoderOf (clearOut s₂) (clearOut s₁) = clearOut s₁ :=
    withEncoderOf_eq_self_iff.2 ⟨htx, hline, hbuf, hlog, rfl, rfl, htied, hdrv, hcalls⟩
  have hhalf := encoderHalf_withEncoderOf h (clearOut s₂) (clearOut s₁)
  rw [hsame] at hhalf
  have hend : withEncoderOf t₂ t₁ = t₁ := by
    calc withEncoderOf t₂ t₁
      _ = withEncoderOf (passTick (encoderHalf h s₂)) t₁ := by rw [← tickWith_encoderHalf ht₂]; rfl
      _ = withEncoderOf (passTick (withEncoderOf (encoderHalf h s₂) (encoderHalf h s₁))) t₁ := rfl
      _ = withEncoderOf (passTick (encoderHalf h s₁)) t₁ :=
        congrArg (fun u => withEncoderOf (passTick u) t₁) hhalf
      _ = t₁ := tickWith_encoderHalf ht₁
  obtain ⟨htx', hline', hbuf', hlog', hdone, haddr, htied', hdrv', hcalls'⟩ := withEncoderOf_eq_self_iff.1 hend
  exact ⟨htx', hline', hbuf', hlog', hdone, haddr, htied', hdrv', hcalls'⟩

end Sys2Proof.Machine
end

section
/-! SUPPORT. The ticks of a `SEND` against its blocking calls: from where the trace level is, the ticks come to where its
next call ends, for half a symbol, a bit, a byte and the frame; then O46. -/

namespace Sys2Proof.Machine

/-! ### The trace level as calls one after the other -/

/-- One call after the other: the first error ends both (R132, R133, R137). -/
def thenCall (r : State × Option DrvErr) (f : State → State × Option DrvErr) : State × Option DrvErr :=
  match r with
  | (s, some e) => (s, some e)
  | (s, none) => f s

/-- Half a symbol: a drive call, and the interval it begins (R131). -/
def halfSymbol (l : Level) (n : Nat) (s : State) : State × Option DrvErr :=
  thenCall (drive l s) fun s₁ => (delayTx n s₁, none)

theorem sendBit_eq (b : Bool) (s : State) :
    sendBit b s = thenCall (halfSymbol .hi (highTime b) s) (halfSymbol .lo tGap) := by
  rw [sendBit, halfSymbol]
  rcases drive .hi s with ⟨s₁, _ | e⟩ <;> rfl

theorem sendBits_cons (b : Byte) (i : BitVec 3) (is : List (BitVec 3)) (s : State) :
    sendBits b (i :: is) s = thenCall (sendBit (b.getLsbD i.toNat) (setTxI i s)) (sendBits b is) := rfl

theorem sendBytes_cons (k : BitVec 9) (ks : List (BitVec 9)) (s : State) :
    sendBytes (k :: ks) s = thenCall (sendByte (loadByte k s).tx.cur (loadByte k s)) (sendBytes ks) := rfl

/-! ### A `SEND` tick by tick -/

/-- The next tick of a `SEND`, from inside one tick to inside the next: time passes, and the encoder has its turn. -/
def nextTick (v : State) : State := txTick quiet (clearOut (passTick v))

/-- A drive call in a tick and the interval it begins (R140). -/
def startInterval (l : Level) (p : TxPhase) (n : Nat) (v : State) : State :=
  match drive l v with
  | (v₁, some e) => endSend (some e) v₁
  | (v₁, none) => logTx (.delay n) { v₁ with tx := { v₁.tx with phase := p, timer := BitVec.ofNat 10 n } }

theorem startBit_eq (v : State) :
    startBit v = startInterval .hi .high (highTime (v.tx.cur.getLsbD v.tx.i.toNat)) v := rfl

theorem startGap_eq (v : State) : startGap v = startInterval .lo .gap tGap v := rfl

/-- `v`, inside a tick of a `SEND`, is where the trace level is in `s`, but for `n` ticks that the interval in progress
still takes; the trace level has no phase of its own (log 28). -/
structure Behind (n : Nat) (s v : State) : Prop where
  busy  : s.tx.busy = true
  timer : s.tx.timer = 0
  tx    : v.tx = { s.tx with phase := v.tx.phase, timer := BitVec.ofNat 10 n }
  line  : v.line = s.line
  txbuf : v.txbuf = s.txbuf
  now   : v.txLog.now + n = s.txLog.now
  trace : v.txLog.trace = s.txLog.trace
  tied  : v.env.drvTied = s.env.drvTied
  drv   : v.env.drv = s.env.drv
  calls : v.env.drvCalls = s.env.drvCalls

theorem Behind.nthDrive_eq {n : Nat} {s v : State} (h : Behind n s v) (j : Nat) : nthDrive v j = nthDrive s j := by
  simp only [nthDrive, h.tied, h.drv, h.calls]

theorem Behind.busy_eq {n : Nat} {s v : State} (h : Behind n s v) : v.tx.busy = true := by
  rw [h.tx]
  exact h.busy

theorem Behind.timer_toNat {n : Nat} {s v : State} (h : Behind n s v) (hn : n < 1024) : v.tx.timer.toNat = n := by
  rw [h.tx]
  exact (BitVec.toNat_ofNat ..).trans (Nat.mod_eq_of_lt hn)

/-- A tick inside an interval brings the encoder one tick nearer. -/
theorem Behind.countDown {n : Nat} {s v : State} (h : Behind (n + 1) s v) :
    Behind n s (countDown (clearOut (passTick v))) := by
  have htimer : BitVec.ofNat 10 (n + 1) - 1 = BitVec.ofNat 10 n := by
    rw [BitVec.ofNat_add]
    exact BitVec.add_sub_cancel ..
  have htx : { v.tx with timer := v.tx.timer - 1 } = { s.tx with phase := v.tx.phase, timer := BitVec.ofNat 10 n } := by
    rw [h.tx, htimer]
  exact { h with tx := htx, now := (Nat.succ_add_eq_add_succ ..).trans h.now }

/-- What follows an interval: in its last tick `P`, in the others nothing (R140). -/
def IntervalEnds (p : TxPhase) (P : State → State) : Prop :=
  ∀ u : State, u.tx.busy = true → u.tx.phase = p →
    txTick quiet u = if u.tx.timer.toNat = 1 then P (countDown u) else countDown u

theorem IntervalEnds.nextTick {p : TxPhase} {P : State → State} (hp : IntervalEnds p P) {v : State}
    (hb : v.tx.busy = true) (hv : v.tx.phase = p) : nextTick v =
      if v.tx.timer.toNat = 1 then P (countDown (clearOut (passTick v))) else countDown (clearOut (passTick v)) :=
  hp (clearOut (passTick v)) hb hv

theorem intervalEnds_high : IntervalEnds .high startGap := fun _ => txTick_high
theorem intervalEnds_gap : IntervalEnds .gap bitComplete := fun _ => txTick_gap

/-- An interval goes down tick by tick, to what follows it. -/
theorem Behind.interval {n : Nat} {s v : State} {p : TxPhase} {P : State → State} (hp : IntervalEnds p P)
    (h : Behind (n + 1) s v) (hn : n < 800) (hv : v.tx.phase = p) :
    ∃ w, nextTick^[n + 1] v = P w ∧ Behind 0 s w := by
  induction n generalizing v with
  | zero =>
    have htimer : v.tx.timer.toNat = 1 := h.timer_toNat (by omega)
    exact ⟨_, (hp.nextTick h.busy_eq hv).trans (if_pos htimer), h.countDown⟩
  | succ n ih =>
    have htimer : v.tx.timer.toNat = n + 2 := h.timer_toNat (by omega)
    have hgoes : nextTick v = Machine.countDown (clearOut (passTick v)) :=
      (hp.nextTick h.busy_eq hv).trans (if_neg (by omega))
    rw [Function.iterate_succ_apply, hgoes]
    exact ih h.countDown (by omega) hv

/-- The ticks from `v` come to where the call with outcome `r` ends, as many as it takes: at `P` where it ended with
`Ok`, at the end of the `SEND` where it failed. -/
def Arrives (P : State → State) (t : Nat) (v : State) (r : State × Option DrvErr) : Prop :=
  ∃ n w, r.1.txLog.now = t + n ∧ Behind 0 r.1 w ∧
    nextTick^[n] v = match r.2 with | none => P w | some e => endSend (some e) w

/-- One call after the other, tick by tick. -/
theorem Arrives.thenCall {P Q : State → State} {t : Nat} {v : State} {r : State × Option DrvErr}
    {f : State → State × Option DrvErr} (h : Arrives P t v r)
    (hf : ∀ s w, r = (s, none) → Behind 0 s w → Arrives Q s.txLog.now (P w) (f s)) : Arrives Q t v (thenCall r f) := by
  obtain ⟨n, w, hnow, hw, hn⟩ := h
  obtain ⟨s, _ | e⟩ := r
  · obtain ⟨m, x, hnow', hx, hm⟩ := hf s w rfl hw
    refine ⟨m + n, x, hnow'.trans (by simp only at hnow; omega), hx, ?_⟩
    rw [Function.iterate_add_apply, hn]
    exact hm
  · exact ⟨n, w, hnow, hw, hn⟩

/-- A drive call gets the same answer in both, and leaves both at the same place. -/
theorem Behind.drive {s v : State} (h : Behind 0 s v) (l : Level) :
    Behind 0 (drive l s).1 (drive l v).1 ∧ (drive l v).2 = (drive l s).2 := by
  have hnow : v.txLog.now = s.txLog.now := h.now
  cases hd : nthDrive s 0 with
  | none =>
    rw [drive_ok l s hd, drive_ok l v ((h.nthDrive_eq 0).trans hd)]
    exact ⟨{ h with
      line := rfl
      trace := by simp [hnow, h.trace]
      drv := by simp [envAfterDrives, h.tied, h.drv]
      calls := by simp [envAfterDrives, h.calls] }, rfl⟩
  | some e =>
    rw [drive_err l s e hd, drive_err l v e ((h.nthDrive_eq 0).trans hd)]
    exact ⟨{ h with
      line := congrArg Config.lineAfterErr h.calls
      trace := by simp [hnow, h.trace]
      drv := by simp [envAfterDrives, h.tied, h.drv]
      calls := by simp [envAfterDrives, h.calls] }, rfl⟩

/-- An interval begins where the trace level has its delay behind it. -/
theorem Behind.delay {s v : State} (h : Behind 0 s v) (p : TxPhase) (n : Nat) :
    Behind n (delayTx n s) (logTx (.delay n) { v with tx := { v.tx with phase := p, timer := BitVec.ofNat 10 n } }) :=
  have hnow : v.txLog.now = s.txLog.now := h.now
  { h with
    tx := by simp only [logTx_tx, delayTx_tx]; rw [h.tx]
    now := by simp [hnow]
    trace := by simp [hnow, h.trace] }

/-- Half a symbol, tick by tick. -/
theorem halfSymbol_arrives {s v : State} {p : TxPhase} {P : State → State} {n : Nat} (hp : IntervalEnds p P)
    (h : Behind 0 s v) (l : Level) (hn : 1 ≤ n ∧ n ≤ 800) :
    Arrives P s.txLog.now (startInterval l p n v) (halfSymbol l n s) := by
  obtain ⟨hbehind, hanswer⟩ := h.drive l
  have htime : (drive l s).1.txLog.now = s.txLog.now := by rw [drive]; split <;> rfl
  rw [halfSymbol, startInterval]
  rcases hs : drive l s with ⟨s₁, _ | e⟩ <;> rcases hv : drive l v with ⟨v₁, _ | e'⟩ <;>
    simp only [hs, hv] at hbehind hanswer htime
  · obtain ⟨m, rfl⟩ := Nat.exists_eq_add_of_le' hn.1
    obtain ⟨w, hw, hend⟩ := (hbehind.delay p (m + 1)).interval hp (by omega) rfl
    exact ⟨m + 1, w, congrArg (· + (m + 1)) htime, hend, hw⟩
  · cases hanswer
  · cases hanswer
  · cases hanswer
    exact ⟨0, v₁, htime, hbehind, rfl⟩

theorem highTime_le (b : Bool) : 1 ≤ highTime b ∧ highTime b ≤ 800 := by cases b <;> decide

/-- A bit, tick by tick. -/
theorem sendBit_arrives {s v : State} (h : Behind 0 s v) :
    Arrives bitComplete s.txLog.now (startBit v) (sendBit (s.tx.cur.getLsbD s.tx.i.toNat) s) := by
  have hbit : v.tx.cur.getLsbD v.tx.i.toNat = s.tx.cur.getLsbD s.tx.i.toNat := by rw [h.tx]
  rw [sendBit_eq, startBit_eq, hbit]
  refine (halfSymbol_arrives intervalEnds_high h .hi (highTime_le _)).thenCall fun s₁ w _ hw => ?_
  rw [startGap_eq]
  exact halfSymbol_arrives intervalEnds_gap hw .lo (by decide)

/-- The end of a `SEND` leaves both with the same registers. -/
theorem Behind.endSend_tx {s v : State} (h : Behind 0 s v) (r : Option DrvErr) :
    (endSend r v).tx = (endSend r s).tx := by
  simp only [Machine.endSend_tx]
  rw [h.tx, h.timer]
  rfl

/-! ### A byte and the bytes of a frame, tick by tick -/

theorem Behind.setTxI {n : Nat} {s v : State} (h : Behind n s v) (i : BitVec 3) :
    Behind n (setTxI i s) (setTxI i v) :=
  { h with tx := by simp only [setTxI_tx]; rw [h.tx] }

theorem Behind.frameByte_eq {n : Nat} {s v : State} (h : Behind n s v) (k : BitVec 9) : frameByte v k = frameByte s k :=
  frameByte_congr (by rw [h.tx]) h.txbuf k

/-- A frame byte starts in both alike. -/
theorem Behind.loadByte {s v : State} (h : Behind 0 s v) (k : BitVec 9) : Behind 0 (loadByte k s) (loadByte k v) := by
  have hnow : v.txLog.now = s.txLog.now := h.now
  have hbyte := h.frameByte_eq k
  rw [loadByte_eq, loadByte_eq]
  exact { h with
    tx := by simp only [atBit, hbyte]; rw [h.tx]
    trace := by simp [hnow, h.trace, hbyte] }

/-- A bit of a byte is the last of it or has the next one behind it. -/
abbrev NextBit (i j : BitVec 3) : Prop := i.toNat < 7 ∧ j = i + 1

/-- The bits of a byte from number `i` on, tick by tick (R133, R41). -/
theorem sendBits_arrives {i : BitVec 3} {is : List (BitVec 3)} (his : (i :: is).IsChain NextBit) {s v : State}
    (h : Behind 0 s v) :
    Arrives bitComplete s.txLog.now (startBit (setTxI i v)) (sendBits s.tx.cur (i :: is) s) := by
  induction is generalizing i s v with
  | nil =>
    rw [sendBits_cons]
    exact (sendBit_arrives (h.setTxI i)).thenCall fun s₁ w _ hw => ⟨0, w, rfl, hw, rfl⟩
  | cons j is ih =>
    obtain ⟨⟨hi, rfl⟩, his⟩ := List.isChain_cons_cons.1 his
    rw [sendBits_cons]
    refine (sendBit_arrives (h.setTxI i)).thenCall fun s₁ w hs₁ hw => ?_
    have htx : s₁.tx = { s.tx with i := i } := by
      have hbit := (sendBit_tx (s.tx.cur.getLsbD i.toNat) (Machine.setTxI i s)).1
      rw [show sendBit (s.tx.cur.getLsbD i.toNat) (Machine.setTxI i s) = (s₁, none) from hs₁] at hbit
      exact hbit
    have hw_i : w.tx.i = i := by rw [hw.tx, htx]
    have hcur : s.tx.cur = s₁.tx.cur := by rw [htx]
    rw [bitComplete_nextBit (by rwa [hw_i]), hw_i, hcur]
    exact ih his hw

/-- A byte whose drive calls have answered has moved only `tx.i`, to its last bit. -/
theorem sendByte_tx_of_ok {b : Byte} {s t : State} (h : sendByte b s = (t, none)) : t.tx = { s.tx with i := 7 } := by
  rcases drivesOk_or_first_err s 16 with hok | ⟨m, e, hm, hok, he⟩
  · cases h.symm.trans (sendByte_sent b hok)
    rfl
  · obtain ⟨_, hbyte⟩ := sendByte_stopped b hm hok he
    cases h.symm.trans hbyte

/-- A byte of a frame of `n` payload bytes is the last of it or has the next one behind it. -/
def NextByte (n : Nat) (k l : BitVec 9) : Prop := k.toNat < n + 4 ∧ l = k + 1

/-- A frame byte, tick by tick. -/
theorem sendByte_arrives {s v : State} (h : Behind 0 s v) (k : BitVec 9) :
    Arrives bitComplete s.txLog.now (startBit (loadByte k v))
      (sendByte (loadByte k s).tx.cur (loadByte k s)) := by
  have hzero : setTxI 0 (loadByte k v) = loadByte k v := by rw [loadByte_eq]; rfl
  have hnow : (loadByte k s).txLog.now = s.txLog.now := by rw [loadByte_eq]
  have hbits := sendBits_arrives (i := 0) (is := [1, 2, 3, 4, 5, 6, 7]) (by decide) (h.loadByte k)
  rw [hzero, hnow] at hbits
  exact hbits

/-- The bytes of a frame from number `k` on, tick by tick (R136, R41). -/
theorem sendBytes_arrives {k : BitVec 9} {ks : List (BitVec 9)} {n : Nat} (hks : (k :: ks).IsChain (NextByte n))
    {s v : State} (hn : s.tx.len.toNat = n) (h : Behind 0 s v) :
    Arrives bitComplete s.txLog.now (startBit (loadByte k v)) (sendBytes (k :: ks) s) := by
  induction ks generalizing k s v with
  | nil =>
    rw [sendBytes_cons]
    exact (sendByte_arrives h k).thenCall fun s₁ w _ hw => ⟨0, w, rfl, hw, rfl⟩
  | cons l ks ih =>
    obtain ⟨⟨hk, rfl⟩, hks⟩ := List.isChain_cons_cons.1 hks
    rw [sendBytes_cons]
    refine (sendByte_arrives h k).thenCall fun s₁ w hs₁ hw => ?_
    have htx := sendByte_tx_of_ok hs₁
    rw [loadByte_tx] at htx
    have hi : w.tx.i.toNat = 7 := by rw [hw.tx, htx]; rfl
    have hw_k : w.tx.k = k := by rw [hw.tx, htx]
    have hlen : w.tx.len.toNat = n := by rw [hw.tx, htx]; exact hn
    rw [bitComplete_nextByte hi (by rwa [hw_k, hlen]), hw_k]
    exact ih hks (by rw [htx]; exact hn) hw

theorem frameIndices_eq_range (n : Nat) : frameIndices n = (List.range (n + 4 + 1)).map (BitVec.ofNat 9) := rfl

theorem frameIndices_isChain {n : Nat} (h : n ≤ 255) : (frameIndices n).IsChain (NextByte n) := by
  rw [frameIndices_eq_range, List.isChain_map, List.isChain_range_succ _ (n + 4)]
  intro m hm
  exact ⟨by rwa [toNat_ofNat9 (by omega)], BitVec.ofNat_add m 1⟩

theorem frameIndices_eq_cons (n : Nat) : ∃ ks, frameIndices n = 0 :: ks :=
  ⟨_, by rw [frameIndices_eq_range, List.range_succ_eq_map]; rfl⟩

/-- After the last byte of a frame the `SEND` ends (R136). -/
theorem bitComplete_frameEnd {s r w : State} {p : List Byte} (hp : p.length ≤ 255)
    (h : sendBytes (frameIndices p.length) (accepted p s) = (r, none)) (hw : Behind 0 r w) :
    bitComplete w = endSend none w := by
  rcases drivesOk_or_first_err s (16 * (5 + p.length)) with hok | ⟨m, e, hm, hok, he⟩
  · cases h.symm.trans (sendFrame_sent hp hok)
    have hk : w.tx.k = BitVec.ofNat 9 (p.length + 4) := by rw [hw.tx]; rfl
    have hlen : w.tx.len = BitVec.ofNat 8 p.length := by rw [hw.tx]; rfl
    refine bitComplete_ends (by rw [hw.tx]; rfl) ?_
    rw [hk, hlen, toNat_ofNat9 (by omega), BitVec.toNat_ofNat, Nat.mod_eq_of_lt (by omega)]
  · obtain ⟨_, hstopped⟩ := sendFrame_stopped hp hm hok he
    cases h.symm.trans hstopped

/-- The bytes of a frame, tick by tick: the `SEND` ends where its call does, as many ticks later (R140). -/
theorem sendFrame_ticks {s v : State} {p : List Byte} (hp : p.length ≤ 255) (h : Behind 0 (accepted p s) v)
    {r : State × Option DrvErr} (hr : sendBytes (frameIndices p.length) (accepted p s) = r) :
    ∃ n w, r.1.txLog.now = s.txLog.now + n ∧ Behind 0 r.1 w ∧
      nextTick^[n] (startBit (loadByte 0 v)) = endSend r.2 w := by
  obtain ⟨ks, hks⟩ := frameIndices_eq_cons p.length
  have hchain := frameIndices_isChain hp
  have hlen : (accepted p s).tx.len.toNat = p.length :=
    (BitVec.toNat_ofNat ..).trans (Nat.mod_eq_of_lt (by omega))
  rw [hks] at hchain
  obtain ⟨n, w, hnow, hw, hn⟩ := sendBytes_arrives hchain hlen h
  rw [← hks, hr] at hnow hw hn
  refine ⟨n, w, hnow, hw, hn.trans ?_⟩
  obtain ⟨u, _ | e⟩ := r
  · exact bitComplete_frameEnd hp hr hw
  · rfl

/-! ### The ticks beside an idle receiver -/

/-- What ticks leave alone of an idle receiver beside the encoder: all but its local time (R221, R248). -/
structure RxRests (s t : State) : Prop where
  pwc   : t.pwc = s.pwc
  bfa   : t.bfa = s.bfa
  md    : t.md = s.md
  call  : t.call = s.call
  rxbuf : t.rxbuf = s.rxbuf
  trace : t.rxLog.trace = s.rxLog.trace

theorem RxRests.trans {s t u : State} (h : RxRests s t) (h' : RxRests t u) : RxRests s u :=
  ⟨h'.pwc.trans h.pwc, h'.bfa.trans h.bfa, h'.md.trans h.md, h'.call.trans h.call, h'.rxbuf.trans h.rxbuf,
    h'.trace.trans h.trace⟩

theorem SameRx.rests {s t : State} (h : SameRx s t) : RxRests s t := by
  obtain ⟨hpwc, hbfa, hmd, hcall, hbuf, hlog, -⟩ := h
  exact ⟨hpwc, hbfa, hmd, hcall, hbuf, congrArg RxLog.trace hlog⟩

theorem SameRx.host {s t : State} (h : SameRx s t) : t.env.host = s.env.host := by
  obtain ⟨-, -, -, -, -, -, -, -, -, -, henv⟩ := h
  rw [← henv]

theorem nextTick_rests (v : State) : RxRests v (nextTick v) :=
  RxRests.trans (t := clearOut (passTick v)) ⟨rfl, rfl, rfl, rfl, rfl, rfl⟩ (txTick_sameRx quiet _).rests

theorem nextTick_iterate_rests (n : Nat) (v : State) : RxRests v (nextTick^[n] v) := by
  induction n with
  | zero => exact ⟨rfl, rfl, rfl, rfl, rfl, rfl⟩
  | succ n ih =>
    rw [Function.iterate_succ_apply']
    exact ih.trans (nextTick_rests _)

/-- A tick beside an idle receiver whose listed host signals `h` start no receiver and store nothing. -/
theorem tick_rxIdle {s : State} {h : HostIn} {hs : List HostIn} (hhost : s.env.host = h :: hs) (hr : h.rst = false)
    (hrx : h.rxStart = false) (hstore : h.txStore = []) (hc : s.call = .none) :
    tick s = .next (passTick (txTick h (clearOut s))) := by
  rw [tick, hostIn, hhost]
  dsimp only
  rw [tickWith_rxIdle h pinSample s hr hrx hc, hostStore_empty hstore]

/-- Quiet ticks beside an idle receiver are the ticks of the encoder. -/
theorem ticks_quiet {n : Nat} {v : State} (hhost : (passTick v).env.host = List.replicate n quiet)
    (hc : v.call = .none) : ticks n (passTick v) = .next (passTick (nextTick^[n] v)) := by
  induction n generalizing v with
  | zero => rfl
  | succ n ih =>
    have hcall : (nextTick v).call = .none := (nextTick_rests v).call.trans hc
    have hnext : (passTick (nextTick v)).env.host = List.replicate n quiet := by
      have hsame := (txTick_sameRx quiet (clearOut (passTick v))).host
      calc (nextTick v).env.host.tail
        _ = (passTick v).env.host.tail := congrArg List.tail hsame
        _ = List.replicate n quiet := by rw [hhost]; rfl
    rw [ticks, tick_rxIdle hhost rfl rfl rfl hc, andThen_next, Function.iterate_succ_apply]
    exact ih hnext hcall

/-- Settles O46: the acceptance tick begins the frame where the trace level does, and the quiet ticks come to its
end. -/
theorem ticksRefineSend : Obligations.TicksRefineSend := by
  intro s u p hp hb htimer hc hbuf hu hhost
  have hstored := (execSend_leaves hb hp hu).2
  rw [exec_send hp hb] at hu
  generalize hr : sendBytes (frameIndices p.length) (accepted p s) = r at hu
  cases hu
  have hstart : Behind 0 (accepted p s) (acceptSend (BitVec.ofNat 8 p.length) (clearOut s)) :=
    { busy := rfl, timer := htimer, line := rfl, txbuf := hbuf, now := rfl, trace := rfl, tied := rfl, drv := rfl
      calls := rfl
      tx := by simp [accepted, htimer] }
  obtain ⟨n, w, hnow, hw, hn⟩ := sendFrame_ticks hp hstart hr
  have hticks : (endSend r.2 r.1).txLog.now - s.txLog.now = n := by
    rw [endSend_txLog, hnow, Nat.add_sub_cancel_left]
  rw [hticks] at hhost ⊢
  have haccept := tick_rxIdle hhost rfl rfl rfl hc
  have hbegin : txTick (startSend (BitVec.ofNat 8 p.length)) (clearOut s) =
      startBit (loadByte 0 (acceptSend (BitVec.ofNat 8 p.length) (clearOut s))) :=
    txTick_accepts (s := clearOut s) hb rfl
  have hsame := txTick_sameRx (startSend (BitVec.ofNat 8 p.length)) (clearOut s)
  rw [hbegin] at haccept hsame
  have hquiet := ticks_quiet (n := n) ((congrArg List.tail hsame.host).trans (congrArg List.tail hhost))
    (hsame.rests.call.trans hc)
  have hrests := hsame.rests.trans (nextTick_iterate_rests n _)
  rw [hn] at hquiet hrests
  have hrun : ticks (n + 1) s = .next (passTick (endSend r.2 w)) := by
    rw [ticks, haccept, andThen_next]
    exact hquiet
  exact ⟨_, hrun, hw.endSend_tx r.2, hw.line, hw.trace, congrArg (· + 1) hw.now, rfl,
    hw.txbuf.trans (hstored.trans hbuf.symm), hw.drv, hw.calls, hrests.pwc, hrests.bfa, hrests.md, hrests.rxbuf,
    hrests.trace⟩

end Sys2Proof.Machine
end

section
/-! SUPPORT. A measurement from its first read to its end, where it or a bit read is started alone; then the classification
of durations: O9, O10, O21 to O25, O38, O39. -/

namespace Sys2Proof.Machine

/-! ### The classification (R166) -/

/-- Settles O9: the class of each band, and the bit of that class. -/
theorem classificationOfDurations : Obligations.ClassificationOfDurations := by
  intro d
  have answers {c : Cls} (hc : classify d = c) : classify d = c ∧ bitOfDur d = bitOfCls c :=
    ⟨hc, congrArg bitOfCls hc⟩
  exact ⟨fun h => answers (classify_below (by omega)), fun _ h => answers (classify_below (by omega)),
    fun h₁ h₂ => answers (classify_one h₁ h₂), fun h₁ h₂ => answers (classify_zero h₁ h₂),
    fun h => answers (classify_above h)⟩

/-- Settles O10: the operation hands over the class of its number, which the band decides. -/
theorem classifyByBands : Obligations.ClassifyByBands := by
  intro s d answer
  have hands {c : Cls} (hc : classify d = c) : answer c := hc ▸ rfl
  exact ⟨fun h => hands (classify_below (by omega)), fun _ h => hands (classify_below (by omega)),
    fun h₁ h₂ => hands (classify_one h₁ h₂), fun h₁ h₂ => hands (classify_zero h₁ h₂),
    fun h => hands (classify_above h)⟩

/-! ### The start and the end of an operation that makes one measurement -/

theorem exec_measurePulse {s : State} {as : List PinAnswer} (hfree : rxFree s = true) (hcalls : s.env.calls = as) :
    exec .measurePulse s = runCalls as (beginMeasure { s with call := .measurePulse }) :=
  hcalls ▸ startAlone_free _ _ hfree

theorem exec_readBit {s : State} {as : List PinAnswer} (hfree : rxFree s = true) (hcalls : s.env.calls = as) :
    exec .readBit s = runCalls as (beginMeasure { s with call := .readBit }) :=
  hcalls ▸ startAlone_free _ _ hfree

/-- A measurement that was started alone ends its call with its result (R160, R169). -/
theorem measDone_alone (m : Meas) {s : State} (hc : s.call = .measurePulse) :
    measDone m s = .next { s with
      pwc := { s.pwc with phase := .idle, due := false }
      call := .none
      handed := { s.handed with meas := some m } } := by
  simp only [measDone, hc]
  rfl

/-- What a bit read that was started alone makes of its measurement (R170, R171). -/
theorem measDone_readBit (m : Meas) {s : State} (hc : s.call = .readBit) :
    measDone m s = .next { s with
      pwc := { s.pwc with phase := .idle, due := false }
      call := .none
      handed := { (handCls m s).handed with meas := some m, bit := some (bitOfMeas m) } } := by
  cases m <;> simp only [measDone, bitDone, handCls, hc] <;> rfl

/-- A run whose next call ends the operation leaves the later answers listed. -/
theorem runCalls_ends {a : PinAnswer} {as : List PinAnswer} {s t : State} (hc : s.call ≠ .none)
    (hcall : pinCall a s = .next t) (hend : t.call = .none) :
    runCalls (a :: as) s = .next { t with env := { t.env with calls := as } } := by
  rw [runCalls_cons _ _ _ hc, hcall, andThen_next, runCalls_done _ _ hend]

/-! ### The measurement read by read -/

/-- A pin error ends the measurement in phase 1 (R169). -/
theorem pinCall_errLow (e : PinErr) {s : State} (hp : s.pwc.phase = .waitHigh) :
    pinCall (.err e) s = measDone (.err e) (logRx (.pinIsLow (.err e)) s) := by
  simp only [pinCall, hp]

/-- A pin error ends the measurement in phase 2 (R169). -/
theorem pinCall_errHigh (e : PinErr) {s : State} (hp : s.pwc.phase = .countHigh) :
    pinCall (.err e) s = measDone (.err e) (logRx (.pinIsHigh (.err e)) s) := by
  simp only [pinCall, hp]

/-- The low read that ends phase 2 (R162). -/
theorem pinCall_fall {s : State} (hp : s.pwc.phase = .countHigh) :
    pinCall (.ok false) s = measDone (.ok s.pwc.dur) (logRx (.pinIsHigh (.ok false)) s) := by
  simp only [pinCall, hp]

/-- The high read that meets the cap (R164). -/
theorem pinCall_cap {s : State} (hp : s.pwc.phase = .countHigh) (hd : s.pwc.dur = 1990) :
    pinCall (.ok true) s = measDone (.ok 2000) { s with
      pwc := { s.pwc with dur := 2000, due := true }
      rxLog := { now := s.rxLog.now + 10
                 trace := s.rxLog.trace ++ [(s.rxLog.now, .pinIsHigh (.ok true)), (s.rxLog.now, .delay 10)] } } := by
  have hcap := (pinCall_high s hp (by simp [hd])).trans (if_neg (by simp [hd]))
  rwa [hd] at hcap

/-- A measurement that has made `w` low reads, the read that ends phase 1 and `m` high reads (R160). -/
def counted (w m : Nat) (s : State) : State :=
  { s with
    pwc := { s.pwc with phase := .countHigh, dur := BitVec.ofNat 11 (10 * m), due := true }
    rxLog := { now := s.rxLog.now + w + 10 * m
               trace := s.rxLog.trace ++ (lowEvents s.rxLog.now w ++
                 (s.rxLog.now + w, .pinIsLow (.ok false)) :: highEvents (s.rxLog.now + w) m) } }

/-- The reads of a measurement short of the cap bring it there (R160, R162). -/
theorem runCalls_counted {w m : Nat} (as : List PinAnswer) {s : State} (hc : s.call ≠ .none)
    (hp : s.pwc.phase = .waitHigh) (hm : m < 200) :
    runCalls (List.replicate w (.ok true) ++ .ok false :: (List.replicate m (.ok true) ++ as)) s =
      runCalls as (counted w m s) := by
  rw [runCalls_low _ _ _ hc hp, runCalls_cons _ _ _ (by exact hc), pinCall_rise _ (by exact hp), andThen_next,
    runCalls_high _ _ _ (by exact hc) rfl rfl (by simp; omega)]
  simp [counted]

theorem highEvents_concat (t m : Nat) :
    highEvents t (m + 1) = highEvents t m ++ [(t + 10 * m, .pinIsHigh (.ok true)), (t + 10 * m, .delay 10)] := by
  simp [highEvents, List.range_succ]

/-! ### The measurement started alone -/

/-- Settles O21: the reads short of the cap are counted, and the low read ends the measurement. -/
theorem measurePulseCountsHighReads : Obligations.MeasurePulseCountsHighReads := by
  intro s w m rest hfree hm hcalls
  rw [exec_measurePulse hfree hcalls, runCalls_counted _ (by simp) rfl hm,
    runCalls_ends (by simp [counted]) ((pinCall_fall rfl).trans (measDone_alone _ rfl)) rfl]
  simp [counted, pulseEvents, hm]

/-- Settles O22: after 199 counted reads the next one meets the cap. -/
theorem measurePulseStopsAtTheCap : Obligations.MeasurePulseStopsAtTheCap := by
  intro s w rest hfree hcalls
  rw [List.replicate_succ' (n := 199), List.append_assoc, List.singleton_append] at hcalls
  rw [exec_measurePulse hfree hcalls, runCalls_counted _ (by simp) rfl (by decide)]
  rw [runCalls_ends (by simp [counted]) ((pinCall_cap rfl rfl).trans (measDone_alone _ rfl)) rfl]
  simp [counted, pulseEvents, highEvents_concat _ 199]

/-- Settles O23: an error after low reads ends phase 1, one after counted reads phase 2. -/
theorem measurePulseReportsErrors : Obligations.MeasurePulseReportsErrors := by
  intro s w m e rest hfree hm
  constructor
  · intro hcalls
    rw [exec_measurePulse hfree hcalls, runCalls_low _ _ _ (by simp) rfl,
      runCalls_ends (by simp) ((pinCall_errLow e rfl).trans (measDone_alone _ rfl)) rfl]
    simp
  · intro hcalls
    have hrun := exec_measurePulse hfree hcalls
    rw [runCalls_counted _ (by simp) rfl hm,
      runCalls_ends (by simp [counted]) ((pinCall_errHigh e rfl).trans (measDone_alone _ rfl)) rfl] at hrun
    exact ⟨_, hrun, rfl, rfl, rfl, rfl, rfl, rfl, rfl, rfl, rfl, by simp [SameTx, counted]⟩

/-- Settles O24: low reads only pass the time, and where the answers end the operation waits. -/
theorem measurePulseWaitsWhileLow : Obligations.MeasurePulseWaitsWhileLow := by
  intro s w hfree hcalls
  rw [exec_measurePulse hfree hcalls, ← List.append_nil (List.replicate w _), runCalls_low _ _ _ (by simp) rfl]
  rfl

/-- What a measurement started alone keeps, whatever its pin calls answer: in phase 2 it has counted tens short of the
cap, and when it has ended its duration is a multiple of ten within the cap (R163). -/
structure MeasuresTens (s : State) : Prop where
  running : s.call ≠ .none → s.call = .measurePulse ∧ (s.pwc.phase = .waitHigh ∨
    s.pwc.phase = .countHigh ∧ s.pwc.dur.toNat % 10 = 0 ∧ s.pwc.dur.toNat < 2000)
  ended   : s.call = .none → ∀ d, s.handed.meas = some (.ok d) → d.toNat % 10 = 0 ∧ d.toNat ≤ 2000

/-- The end of the measurement, where its duration is one it can return. -/
theorem MeasuresTens.of_measDone {m : Meas} {s t : State} (ht : measDone m s = .next t) (hc : s.call = .measurePulse)
    (hm : ∀ d, m = .ok d → d.toNat % 10 = 0 ∧ d.toNat ≤ 2000) : MeasuresTens t := by
  rw [measDone_alone m hc] at ht
  cases ht
  exact ⟨fun h => absurd rfl h, fun _ d hd => hm d (Option.some.inj hd)⟩

/-- One pin call keeps it. -/
theorem MeasuresTens.pinCall {a : PinAnswer} {s t : State} (h : MeasuresTens s) (hc : s.call ≠ .none)
    (ht : pinCall a s = .next t) : MeasuresTens t := by
  obtain ⟨hcall, hp | ⟨hp, hstep, hlt⟩⟩ := h.running hc
  · match a with
    | .err e =>
      rw [pinCall_errLow e hp] at ht
      exact .of_measDone ht hcall nofun
    | .ok true =>
      rw [pinCall_low s hp] at ht
      cases ht
      exact ⟨fun _ => ⟨hcall, .inl hp⟩, fun h => absurd h hc⟩
    | .ok false =>
      rw [pinCall_rise s hp] at ht
      cases ht
      exact ⟨fun _ => ⟨hcall, .inr ⟨rfl, rfl, by simp⟩⟩, fun h => absurd h hc⟩
  · match a with
    | .err e =>
      rw [pinCall_errHigh e hp] at ht
      exact .of_measDone ht hcall nofun
    | .ok false =>
      rw [pinCall_fall hp] at ht
      exact .of_measDone ht hcall (by rintro _ ⟨⟩; omega)
    | .ok true =>
      have hdur : (s.pwc.dur + 10).toNat = s.pwc.dur.toNat + 10 := by bv_omega
      have hcount := pinCall_high s hp hlt
      rw [ht] at hcount
      split_ifs at hcount with hmore
      · cases hcount
        exact ⟨fun _ => ⟨hcall, .inr ⟨hp, by simp only [hdur]; omega, by simp only [hdur]; omega⟩⟩,
          fun h => absurd h hc⟩
      · exact .of_measDone hcount.symm hcall (by rintro _ ⟨⟩; omega)

/-- A run on listed answers keeps it, by induction on the answers. -/
theorem MeasuresTens.runCalls (as : List PinAnswer) {s t : State} (h : MeasuresTens s)
    (ht : runCalls as s = .next t) : MeasuresTens t := by
  induction as generalizing s with
  | nil => cases ht; exact ⟨h.running, h.ended⟩
  | cons a as ih =>
    by_cases hc : s.call = .none
    · rw [runCalls_done _ _ hc] at ht
      cases ht
      exact ⟨h.running, h.ended⟩
    · rw [runCalls_cons _ _ _ hc] at ht
      obtain ⟨u, hu, ht⟩ := andThen_eq_next.1 ht
      exact ih (h.pinCall hc hu) ht

/-- Settles O38: the operation has ended, so it was started, in phase 1. -/
theorem measurementsAreMultiplesOfTen : Obligations.MeasurementsAreMultiplesOfTen := by
  intro s t d hidle ht hend hmeas
  cases hfree : rxFree s with
  | true =>
    rw [exec_measurePulse hfree rfl] at ht
    have hstart : MeasuresTens (beginMeasure { s with call := .measurePulse }) :=
      ⟨fun _ => ⟨rfl, .inl rfl⟩, fun h => nomatch h⟩
    exact (hstart.runCalls _ ht).ended hend d hmeas
  | false =>
    have hsame : exec .measurePulse s = .next s := startAlone_busy _ _ hfree
    rw [hsame] at ht
    cases ht
    simp [rxFree, hidle, hend] at hfree

/-! ### The bit read started alone -/

/-- A measured duration, as a number. -/
theorem toNat_ofNat_of_measurable {d : Nat} (h : measurable d = true) : (BitVec.ofNat 11 d).toNat = d := by
  have hle : d ≤ 2000 := of_decide_eq_true (Bool.and_eq_true_iff.1 h).2
  exact (BitVec.toNat_ofNat ..).trans (Nat.mod_eq_of_lt (by omega))

/-- What `READ_BIT` makes of one bit read, from its measurement (R170, R171). -/
theorem BitRead.bitOfMeas_meas {r : BitRead} (h : r.possible = true) : bitOfMeas r.meas = r.bit := by
  cases r with
  | pulse w d => exact congrArg (fun n => bitOfCls (classify n)) (toNat_ofNat_of_measurable h)
  | errLow | errHigh => rfl

/-- A bit read started alone ends with its one measurement (R170). -/
theorem exec_readBit_ends {s : State} {r : BitRead} {rest : List PinAnswer} (hfree : rxFree s = true)
    (hcalls : s.env.calls = r.answers ++ rest) (hr : r.possible = true) :
    ∃ (p : Pwc) (l : RxLog), exec .readBit s = .next { s with
        pwc := { p with phase := .idle, due := false }
        call := .none
        handed := { (handCls r.meas s).handed with meas := some r.meas, bit := some r.bit }
        env := { s.env with calls := rest }
        rxLog := l } ∧
      l.now = s.rxLog.now + r.time ∧ p.poll = s.pwc.poll ∧ ∀ w d, r = .pulse w d → p.dur = BitVec.ofNat 11 d := by
  obtain ⟨p, l, hrun, hl, hpoll, hdur⟩ :=
    runCalls_read r rest (beginMeasure { s with call := .readBit }) (by simp) rfl hr
  refine ⟨p, l, ?_, hl, hpoll, hdur⟩
  rw [exec_readBit hfree hcalls, hrun, measDone_readBit _ rfl, andThen_next, runCalls_done _ _ rfl,
    BitRead.bitOfMeas_meas hr]
  cases r <;> rfl

/-- Settles O25: the three ways the one measurement ends. -/
theorem readBitClassifiesOneMeasurement : Obligations.ReadBitClassifiesOneMeasurement := by
  intro s w rest hfree
  refine ⟨fun d hd hcalls => ?_, fun e hcalls => ?_, fun m e hm hcalls => ?_⟩
  · obtain ⟨p, l, hrun, hl, hpoll, hdur⟩ := exec_readBit_ends hfree hcalls hd
    refine ⟨_, hrun, ?_, ?_, rfl, rfl, rfl, rfl, rfl, hl.trans (Nat.add_assoc ..).symm, rfl,
      startAlone_sameTx (by simp [SameTx]) hrun⟩
    · simp [handCls, BitRead.meas, BitRead.bit, toNat_ofNat_of_measurable hd]
    · simp [hpoll, hdur w d rfl]
  · rw [BitRead.answers, List.append_assoc] at hcalls
    rw [exec_readBit hfree hcalls, runCalls_low _ _ _ (by simp) rfl, List.singleton_append,
      runCalls_ends (by simp) ((pinCall_errLow e rfl).trans (measDone_readBit _ rfl)) rfl]
    simp [handCls, bitOfMeas]
  · obtain ⟨p, l, hrun, hl, -, -⟩ := exec_readBit_ends hfree hcalls (decide_eq_true hm)
    exact ⟨_, hrun, rfl, rfl, rfl, rfl, rfl, rfl, rfl, hl.trans (Nat.add_assoc ..).symm, rfl,
      startAlone_sameTx (by simp [SameTx]) hrun⟩

/-! ### What the receive operations leave alone -/

/-- Settles O39: an operation is started alone, is a `RECEIVE`, or is a duration that occurs. -/
theorem receiveLeavesTheEncoder : Obligations.ReceiveLeavesTheEncoder := by
  intro s t i hi ht
  rcases hi with rfl | rfl | rfl | rfl | ⟨cap, rfl⟩ | ⟨d, rfl | rfl | rfl | rfl | rfl | rfl⟩
  case inl | inr.inl | inr.inr.inl | inr.inr.inr.inl => exact startAlone_sameTx (by simp [SameTx]) ht
  · exact execReceive_sameTx ht
  · cases ht; simp [SameTx]
  all_goals exact duration_sameTx (d := d) ht

end Sys2Proof.Machine
end

section
/-! SUPPORT. A header search over any bit reads that do not end it, and a read that errs in a tick of it; then O30. -/

namespace Sys2Proof.Machine

/-! ### The search at the trace level -/

/-- A header search is in progress, started alone or by a `RECEIVE` (R196, R213). -/
def Seeks (s : State) : Prop := s.call = .seekHeader ∨ s.call = .receive ∧ s.md.state = .seekingHeader

/-- A header search is a call in progress. -/
theorem Seeks.call {s : State} (h : Seeks s) : s.call ≠ .none := by
  rcases h with hc | ⟨hc, -⟩ <;> simp [hc]

/-- A measurement that returns to a header search gives it one bit (R170, R196). -/
theorem Seeks.measDone {s : State} (hs : Seeks s) (m : Meas) :
    ∃ p h, measDone m s = seekBit (bitOfMeas m) { s with pwc := p, handed := h } := by
  rcases hs with hc | ⟨hc, hstate⟩
  · cases m <;> simp only [Machine.measDone, bitDone, handCls, hc] <;> exact ⟨_, _, rfl⟩
  · obtain ⟨p, h, -, hmeas⟩ := measDone_seeking m hc hstate
    exact ⟨p, h, hmeas⟩

/-- A bit read that does not end the search moves its run, and the next measurement starts (R197, R198). -/
theorem seekBit_goesOn {r : BitRead} {z : Nat} {s : State} (hz : s.bfa.zeroRun = BitVec.ofNat 5 z)
    (hr : runAfterOne z r < 24) :
    seekBit r.bit s = .next (beginMeasure { s with
      bfa := { s.bfa with zeroRun := BitVec.ofNat 5 (runAfterOne z r) } }) := by
  unfold runAfterOne at hr ⊢
  split_ifs at hr ⊢ with hbit
  · have hrun : s.bfa.zeroRun.toNat < 23 := by rw [hz, BitVec.toNat_ofNat]; omega
    rw [hbit, seekBit_zero hrun, hz, BitVec.ofNat_add]
    rfl
  · exact seekBit_notZero s hbit

/-- A header search whose run is `z` now: beside the run, only the classifier, the values handed over and the receive trace
have changed (R196 to R198). -/
def searched (z : Nat) (p : Pwc) (h : Handed) (l : RxLog) (s : State) : State :=
  { s with pwc := p, handed := h, rxLog := l, bfa := { s.bfa with zeroRun := BitVec.ofNat 5 z } }

/-- One bit read that does not end a header search, on its answers. -/
theorem runCalls_seekingOne {r : BitRead} (as : List PinAnswer) {s : State} {z : Nat} (hs : Seeks s)
    (hp : s.pwc.phase = .waitHigh) (hz : s.bfa.zeroRun = BitVec.ofNat 5 z) (hr : r.possible = true)
    (hkeeps : runAfterOne z r < 24) :
    ∃ p h l, runCalls (r.answers ++ as) s = runCalls as (searched (runAfterOne z r) p h l s) ∧
      p.phase = .waitHigh ∧ l.now = s.rxLog.now + r.time := by
  obtain ⟨p, l, hread, hl, -, -⟩ := runCalls_read r as s hs.call hp hr
  obtain ⟨p', h', hmeas⟩ := Seeks.measDone (s := { s with pwc := p, rxLog := l }) hs r.meas
  rw [BitRead.bitOfMeas_meas hr] at hmeas
  rw [hmeas.trans (seekBit_goesOn hz hkeeps), andThen_next] at hread
  exact ⟨{ p' with phase := .waitHigh, due := false }, h', l, hread, rfl, hl⟩

/-- A header search over bit reads that do not end it, by induction on them (R200). -/
theorem runCalls_seeking (rs : List BitRead) (as : List PinAnswer) {s : State} {z : Nat} (hs : Seeks s)
    (hp : s.pwc.phase = .waitHigh) (hz : s.bfa.zeroRun = BitVec.ofNat 5 z) (hpos : ∀ r ∈ rs, r.possible = true)
    (hkeeps : keepsSeeking z rs = true) :
    ∃ p h l, runCalls (answersOf rs ++ as) s = runCalls as (searched (runAfter z rs) p h l s) ∧
      p.phase = .waitHigh ∧ l.now = s.rxLog.now + timeOf rs := by
  induction rs generalizing s z with
  | nil =>
    refine ⟨s.pwc, s.handed, s.rxLog, ?_, hp, rfl⟩
    show runCalls as s = runCalls as { s with bfa := { s.bfa with zeroRun := BitVec.ofNat 5 z } }
    rw [← hz]
  | cons r rs ih =>
    obtain ⟨hr, hrs⟩ := List.forall_mem_cons.1 hpos
    simp only [keepsSeeking, Bool.and_eq_true, decide_eq_true_eq] at hkeeps
    obtain ⟨p, h, l, hread, hphase, hl⟩ := runCalls_seekingOne (answersOf rs ++ as) hs hp hz hr hkeeps.1
    obtain ⟨p', h', l', hrest, hphase', hl'⟩ := ih (s := searched (runAfterOne z r) p h l s) hs hphase rfl hrs hkeeps.2
    refine ⟨p', h', l', ?_, hphase', ?_⟩
    · rw [show answersOf (r :: rs) = r.answers ++ answersOf rs from rfl, List.append_assoc]
      exact hread.trans hrest
    · calc l'.now
        _ = l.now + timeOf rs := hl'
        _ = s.rxLog.now + (r.time + timeOf rs) := by rw [hl, Nat.add_assoc]

theorem keepsSeeking_append (z : Nat) (rs qs : List BitRead) :
    keepsSeeking z (rs ++ qs) = (keepsSeeking z rs && keepsSeeking (runAfter z rs) qs) := by
  induction rs generalizing z with
  | nil => rfl
  | cons r rs ih => simp only [List.cons_append, keepsSeeking, ih, Bool.and_assoc]; rfl

theorem runAfter_concat (z : Nat) (rs : List BitRead) (r : BitRead) :
    runAfter z (rs ++ [r]) = runAfterOne (runAfter z rs) r := by
  simp [runAfter]

/-- A pin error sets the run to 0 (R171, R198). -/
theorem runAfterOne_isErr (z : Nat) {r : BitRead} (h : r.isErr = true) : runAfterOne z r = 0 := by
  cases r with
  | pulse => cases h
  | errLow | errHigh => rfl

theorem exec_receive {s : State} {as : List PinAnswer} (cap : BitVec 9) (hfree : rxFree s = true)
    (hcalls : s.env.calls = as) : exec (.receive cap) s = runCalls as (acceptReceive cap s) := by
  subst hcalls
  exact if_pos hfree

/-! ### The search in a tick whose read errs -/

/-- The search of a `RECEIVE` has begun again with an empty run: the decoder is at `m`, the buffer holds `buf`, and
`rx_done` is `d`, as before. -/
structure RestartsSearch (m : Md) (buf : Memory) (d : Bool) (t : State) : Prop where
  call    : t.call = .receive
  md      : t.md = m
  phase   : t.pwc.phase = .waitHigh
  zeroRun : t.bfa.zeroRun = 0
  rxbuf   : t.rxbuf = buf
  rxDone  : t.out.rxDone = d

/-- A measurement that gives no bit restarts the search (R171, R198). -/
theorem measDone_restarts {m : Meas} {s : State} (hm : bitOfMeas m = none) (hc : s.call = .receive)
    (hs : s.md.state = .seekingHeader) : ∃ t, measDone m s = .next t ∧ RestartsSearch s.md s.rxbuf s.out.rxDone t := by
  obtain ⟨p, h, -, hmeas⟩ := measDone_seeking m hc hs
  rw [hm, seekBit_notZero _ (by simp)] at hmeas
  exact ⟨_, hmeas, hc, rfl, rfl, rfl, rfl, rfl⟩

/-- A phase 1 read that errs restarts the search. -/
theorem phase1Read_restarts {p : PinSample} {e : PinErr} {s : State} (herr : p.err = some e) (hc : s.call = .receive)
    (hs : s.md.state = .seekingHeader) : ∃ t, phase1Read p s = .next t ∧ RestartsSearch s.md s.rxbuf s.out.rxDone t := by
  rw [phase1Read_err s herr]
  exact measDone_restarts (s := logRx (.pinIsLow (.err e)) s) rfl hc hs

/-- A measurement that gives no bit restarts the search, and again where the read after it errs (R172). -/
theorem measDone_readAgain_restarts {p : PinSample} {e : PinErr} {m : Meas} {s : State} (herr : p.err = some e)
    (hm : bitOfMeas m = none) (hc : s.call = .receive) (hs : s.md.state = .seekingHeader) :
    ∃ t, andThen (measDone m s) (readAgain p) = .next t ∧ RestartsSearch s.md s.rxbuf s.out.rxDone t := by
  obtain ⟨u, hu, hrestarts⟩ := measDone_restarts hm hc hs
  obtain ⟨t, ht, htwice⟩ := phase1Read_restarts herr hrestarts.call (by rw [hrestarts.md, hs])
  rw [hrestarts.md, hrestarts.rxbuf, hrestarts.rxDone] at htwice
  refine ⟨t, ?_, htwice⟩
  rw [hu, andThen_next, readAgain, if_pos (by simp [hrestarts.call, hrestarts.phase]), ht]

/-- A phase 2 read that errs is the measurement's end (R169). -/
theorem phase2Read_err {p : PinSample} {e : PinErr} (s : State) (herr : p.err = some e) :
    phase2Read p s = measDone (.err e) (logRx (.pinIsHigh (.err e)) s) := by
  simp [phase2Read, herr]

/-- A tick of phase 2 in which a read that errs is due restarts the search: the cap has ended the measurement before, or
the read ends it (R164, R172). -/
theorem countTick_restarts {p : PinSample} {e : PinErr} {s : State} (herr : p.err = some e) (hc : s.call = .receive)
    (hs : s.md.state = .seekingHeader) (hdue : s.pwc.due = true ∨ s.pwc.poll = 0) :
    ∃ t, countTick p s = .next t ∧ RestartsSearch s.md s.rxbuf s.out.rxDone t := by
  unfold countTick
  dsimp only
  split_ifs with h₁ h₂ h₃
  · rw [phase2Read_err s herr]
    exact measDone_readAgain_restarts (s := logRx (.pinIsHigh (.err e)) s) herr rfl hc hs
  · exact absurd (hdue.resolve_left h₁) h₂
  · exact measDone_readAgain_restarts (s := { s with pwc := { s.pwc with dur := _ } }) herr (bitOfMeas_cap h₃) hc hs
  · rw [phase2Read_err _ herr]
    exact measDone_readAgain_restarts (s := logRx (.pinIsHigh (.err e)) { s with pwc := { s.pwc with dur := _ } }) herr
      rfl hc hs

/-- The receiver's half of such a tick, in either phase. -/
theorem rxTick_restarts {h : HostIn} {p : PinSample} {e : PinErr} {s : State} (herr : p.err = some e)
    (hc : s.call = .receive) (hs : s.md.state = .seekingHeader) (hp : s.pwc.phase ≠ .idle)
    (hdue : s.pwc.phase = .waitHigh ∨ s.pwc.due = true ∨ s.pwc.poll = 0) :
    ∃ t, rxTick h p s = .next t ∧ RestartsSearch s.md s.rxbuf s.out.rxDone t := by
  have hcall : s.call ≠ .none := by simp [hc]
  rw [rxTick, rxFree_of_call hcall, Bool.and_false, if_neg (by simp), if_neg hcall]
  cases hphase : s.pwc.phase with
  | idle => exact absurd hphase hp
  | waitHigh => exact phase1Read_restarts herr hc hs
  | countHigh => exact countTick_restarts herr hc hs (hdue.resolve_left (by simp [hphase]))

/-- Settles O30: the read that errs is one more bit read of the search; in a tick it restarts the search, once or twice. -/
theorem seekingSurvivesPinErrors : Obligations.SeekingSurvivesPinErrors := by
  constructor
  · intro s cap rs bad hfree hpos hkeeps hbad herr hcalls
    have hend : runAfter 0 (rs ++ [bad]) = 0 := (runAfter_concat ..).trans (runAfterOne_isErr _ herr)
    have hgoesOn : keepsSeeking 0 (rs ++ [bad]) = true := by
      simp [keepsSeeking_append, keepsSeeking, hkeeps, runAfterOne_isErr _ herr]
    have hall : ∀ r ∈ rs ++ [bad], r.possible = true :=
      List.forall_mem_append.2 ⟨hpos, List.forall_mem_singleton.2 hbad⟩
    obtain ⟨p, h, l, hrun, hphase, hl⟩ := runCalls_seeking (rs ++ [bad]) [] (s := acceptReceive cap s) (z := 0)
      (.inr ⟨rfl, rfl⟩) rfl rfl hall hgoesOn
    rw [List.append_nil, ← exec_receive cap hfree hcalls] at hrun
    exact ⟨_, hrun, rfl, hphase, congrArg (BitVec.ofNat 5) hend, rfl, rfl, rfl, hl, rfl, execReceive_sameTx hrun⟩
  · intro s h l e hi hr hc hs hdue
    have hp : s.pwc.phase ≠ .idle := by simp [hi.phase_call, hc]
    obtain ⟨hpwc, -, hmd, hcall, hbuf, -, -, -, hdone, -⟩ := txTick_sameRx h (hostStore h (clearOut s))
    simp only [hostStore_pwc, hostStore_md, hostStore_call, hostStore_rxbuf, hostStore_out, clearOut_pwc, clearOut_md,
      clearOut_call, clearOut_rxbuf, clearOut_out] at hpwc hmd hcall hbuf hdone
    rw [← hpwc] at hp hdue
    rw [← hmd] at hs
    obtain ⟨u, hu, hrestarts⟩ := rxTick_restarts (h := h) (p := ⟨l, some e⟩) rfl (hcall.trans hc) hs hp hdue
    exact ⟨passTick u, (tickWith_eq_next hr).2 ⟨u, hu, rfl⟩, hrestarts.call, hrestarts.phase, hrestarts.zeroRun,
      hrestarts.md.trans hmd, hrestarts.rxbuf.trans hbuf, hrestarts.rxDone.trans hdone⟩

end Sys2Proof.Machine
end

section
/-! SUPPORT. A whole pulse on the input line, tick by tick: what the pin shows, how far the measurement has counted, and
what its end hands over; then O47. -/

namespace Sys2Proof.Machine

/-! ### The pulse on the line -/

/-- A pulse of `w` ticks and `l` low ticks after it, `j` ticks on. -/
def pulseWave (w l j : Nat) : List Seg :=
  if j < w then [⟨.hi, none, w - j⟩, ⟨.lo, none, l⟩] else [⟨.lo, none, w + l - j⟩]

theorem pinSample_pulseWave {w l j : Nat} {s : State} (hwave : s.env.wave = pulseWave w l j) (hj : j < w + l) :
    pinSample s = ⟨if j < w then .hi else .lo, none⟩ := by
  by_cases h : j < w
  · simp [pinSample, hwave, pulseWave, h, dropEmpty, Nat.sub_ne_zero_of_lt h]
  · simp [pinSample, hwave, pulseWave, h, dropEmpty, Nat.sub_ne_zero_of_lt hj]

theorem popWave_pulseWave {w l j : Nat} (hj : j + 1 < w + l) : popWave (pulseWave w l j) = pulseWave w l (j + 1) := by
  rcases lt_trichotomy (j + 1) w with h | h | h
  · have h₁ : w - j ≠ 1 := by omega
    simp [popWave, pulseWave, h, Nat.lt_of_succ_lt h, dropEmpty, Nat.sub_ne_zero_of_lt (Nat.lt_of_succ_lt h), h₁,
      Nat.sub_sub]
  · subst h
    simp [popWave, pulseWave, dropEmpty]
  · have h₁ : w + l - j ≠ 0 := by omega
    have h₂ : w + l - j ≠ 1 := by omega
    simp [popWave, pulseWave, dropEmpty, Nat.not_lt.2 (Nat.le_of_lt_succ h), Nat.not_lt.2 h.le, h₁, h₂, Nat.sub_sub]

/-- What a measurement makes of a pulse of `w` ticks (R168). -/
def measuredWidth (w : Nat) : Nat := min 2000 (10 * ((w + 9) / 10))

/-! ### The receiver's half of a tick -/

/-- A tick beside an idle encoder whose listed host signals are quiet is the receiver's alone (R304). -/
theorem tick_txIdle {s : State} {hs : List HostIn} (hhost : s.env.host = quiet :: hs) (hb : s.tx.busy = false) :
    tick s = andThen (rxTick quiet (pinSample s) (clearOut s)) fun u => .next (passTick u) := by
  have hrests : txTick quiet (clearOut s) = clearOut s := txTick_rests hb rfl
  rw [tick, hostIn, hhost]
  simp only [tickWith, hostStore_empty (h := quiet) rfl, hrests]
  rfl

/-- In a quiet tick a measurement in phase 1 makes its read. -/
theorem rxTick_waiting {p : PinSample} {s : State} (hc : s.call ≠ .none) (hp : s.pwc.phase = .waitHigh) :
    rxTick quiet p s = phase1Read p s := by
  simp [rxTick, quiet, hc, hp]

/-- In a quiet tick a measurement in phase 2 counts. -/
theorem rxTick_counting {p : PinSample} {s : State} (hc : s.call ≠ .none) (hp : s.pwc.phase = .countHigh) :
    rxTick quiet p s = countTick p s := by
  simp [rxTick, quiet, hc, hp]

/-- A tick inside a `Delay(10)` (R172). -/
theorem countTick_delay (p : PinSample) {s : State} (hdue : s.pwc.due = false) (hpoll : s.pwc.poll ≠ 0) :
    countTick p s = .next { s with pwc := { s.pwc with poll := s.pwc.poll - 1 } } := by
  rw [countTick, hdue, if_neg (by simp), if_pos hpoll]

/-- The end of a `Delay(10)` short of the cap, on a high line: ten are counted and the next one begins (R162, R172). -/
theorem countTick_high {s : State} (hp : s.pwc.phase = .countHigh) (hdue : s.pwc.due = false) (hpoll : s.pwc.poll = 0)
    (hcap : (s.pwc.dur + 10).toNat < 2000) :
    ∃ l, countTick ⟨.hi, none⟩ s = .next { s with
      pwc := { s.pwc with dur := s.pwc.dur + 10, poll := 9, due := false }
      rxLog := l } := by
  have hmore : ¬pulseCap ≤ (s.pwc.dur + BitVec.ofNat 11 pollStep).toNat := not_le.2 hcap
  simp only [countTick, hdue, hpoll, Bool.false_eq_true, ne_eq, not_true_eq_false, if_false, hmore, phase2Read,
    andThen_next]
  rw [readAgain_counting (by exact hp)]
  exact ⟨_, rfl⟩

/-- The end of a `Delay(10)` that ends the measurement, at the cap or on a low line (R162, R164, R172). -/
theorem countTick_measured {p : PinSample} {s : State} (hdue : s.pwc.due = false) (hpoll : s.pwc.poll = 0)
    (hend : 2000 ≤ (s.pwc.dur + 10).toNat ∨ p = ⟨.lo, none⟩) :
    ∃ l, countTick p s = andThen (measDone (.ok (s.pwc.dur + 10)) { s with
      pwc := { s.pwc with dur := s.pwc.dur + 10 }
      rxLog := l }) (readAgain p) := by
  simp only [countTick, hdue, hpoll, Bool.false_eq_true, ne_eq, not_true_eq_false, if_false]
  split
  next => exact ⟨_, rfl⟩
  next hmore =>
    obtain rfl := hend.resolve_left hmore
    exact ⟨_, rfl⟩

/-! ### What the end of a measurement hands over -/

/-- The measurement, its class and its bit, as last handed over (R43). -/
def Handed.ofPulse (h : Handed) : Option Meas × Option Cls × Option (Option Bool) := (h.meas, h.cls, h.bit)

/-- `RECEIVE` hands nothing over. -/
theorem recvByte_handed {r : Option Byte} {s t : State} (ht : recvByte r s = .next t) : t.handed = s.handed := by
  cases r with
  | none => cases ht; rfl
  | some b =>
    simp only [recvByte] at ht
    split at ht
    · split at ht <;> cases ht <;> rfl
    · split_ifs at ht <;> cases ht <;> rfl
    · obtain ⟨u, hu, ht⟩ := andThen_eq_next.1 ht
      obtain ⟨-, rfl⟩ := storePayload_next hu
      split at ht <;> cases ht <;> rfl
    all_goals cases ht; rfl

theorem byteDone_ofPulse {r : Option Byte} {s t : State} (ht : byteDone r s = .next t) :
    t.handed.ofPulse = s.handed.ofPulse := by
  simp only [byteDone] at ht
  split at ht
  · rw [recvByte_handed ht]; rfl
  · cases ht; rfl

theorem byteBit_ofPulse {r : Option Bool} {s t : State} (ht : byteBit r s = .next t) :
    t.handed.ofPulse = s.handed.ofPulse := by
  cases r with
  | none => exact byteDone_ofPulse ht
  | some v =>
    simp only [byteBit] at ht
    split at ht
    · cases ht; rfl
    · exact (byteDone_ofPulse ht :)

theorem seekBit_handed {r : Option Bool} {s t : State} (ht : seekBit r s = .next t) : t.handed = s.handed := by
  simp only [seekBit] at ht
  generalize (if r = some false then s.bfa.zeroRun + 1 else 0) = z at ht
  split at ht <;> cases ht
  · rfl
  · exact seekDone_handed _

/-- `READ_BIT` hands its bit over, and what called it leaves that and the measurement as they are (R170). -/
theorem bitDone_ofPulse {r : Option Bool} {s t : State} (ht : bitDone r s = .next t) :
    t.handed.ofPulse = (s.handed.meas, s.handed.cls, some r) := by
  simp only [bitDone] at ht
  split at ht
  · cases ht; rfl
  · rw [seekBit_handed ht]; rfl
  · exact byteBit_ofPulse ht
  · split at ht
    · rw [seekBit_handed ht]; rfl
    · exact byteBit_ofPulse ht
  · cases ht; rfl
  · cases ht; rfl

/-- A duration that is measured for a bit read is handed over with its class and its bit (R170). -/
theorem measDone_ofPulse {d : BitVec 11} {s t : State} (hc : s.call ≠ .none) (hm : s.call ≠ .measurePulse)
    (ht : measDone (.ok d) s = .next t) :
    t.handed.ofPulse = (some (.ok d), some (classify d.toNat), some (bitOfDur d.toNat)) := by
  simp only [measDone] at ht
  exact (bitDone_ofPulse ht :)

/-- A read without an error that the next measurement makes in the same tick hands nothing over. -/
theorem readAgain_handed {p : PinSample} {s t : State} (herr : p.err = none) (ht : readAgain p s = .next t) :
    t.handed = s.handed := by
  simp only [readAgain, phase1Read, herr] at ht
  split at ht
  · split at ht <;> cases ht <;> rfl
  · cases ht; rfl

/-- What stands after the tick that ended a measurement with `d`, by the operation in progress (R160, R170). -/
structure Delivered (d : BitVec 11) (s t : State) : Prop where
  meas  : t.handed.meas = some (.ok d)
  bit   : s.call ≠ .measurePulse → t.handed.cls = some (classify d.toNat) ∧ t.handed.bit = some (bitOfDur d.toNat)
  alone : s.call = .measurePulse → t.call = .none ∧ t.pwc.phase = .idle ∧ t.pwc.dur = d ∧ t.bfa = s.bfa ∧ t.md = s.md ∧
    t.rxbuf = s.rxbuf

/-- The end of a measurement with the next one's first read delivers it, where that read does not err. -/
theorem measDone_readAgain_delivers {p : PinSample} {d : BitVec 11} {s t : State} (hc : s.call ≠ .none)
    (hd : s.pwc.dur = d) (herr : p.err = none) (ht : andThen (measDone (.ok d) s) (readAgain p) = .next t) :
    Delivered d s t := by
  by_cases hm : s.call = .measurePulse
  · rw [measDone_alone _ hm, andThen_next, readAgain, if_neg (by simp)] at ht
    cases ht
    exact ⟨rfl, fun h => absurd hm h, fun _ => ⟨rfl, rfl, hd, rfl, rfl, rfl⟩⟩
  · obtain ⟨u, hu, ht⟩ := andThen_eq_next.1 ht
    have hpulse := measDone_ofPulse hc hm hu
    rw [← readAgain_handed herr ht] at hpulse
    simp only [Handed.ofPulse, Prod.mk.injEq] at hpulse
    exact ⟨hpulse.1, fun _ => hpulse.2, fun h => absurd h hm⟩

/-! ### The measurement tick by tick -/

/-- `j` ticks after the measurement of `s` has met the pulse it counts on, and nothing has been handed over: `j` is ten for
each delay that has ended and the ticks of the running one. -/
structure Counting (s : State) (w l n j : Nat) (u : State) : Prop where
  busy     : u.tx.busy = false
  call     : u.call = s.call
  phase    : u.pwc.phase = .countHigh
  due      : u.pwc.due = false
  position : u.pwc.dur.toNat + 10 = j + u.pwc.poll.toNat
  poll_le  : u.pwc.poll.toNat ≤ 9
  dur_step : u.pwc.dur.toNat % 10 = 0
  handed   : u.handed = s.handed
  bfa      : u.bfa = s.bfa
  md       : u.md = s.md
  rxbuf    : u.rxbuf = s.rxbuf
  wave     : u.env.wave = pulseWave w l j
  host     : u.env.host = List.replicate (n - j) quiet

section
variable {s u : State} {w l n j : Nat}

/-- While ticks are left the next one is the classifier's (R172). -/
theorem Counting.tick_eq (h : Counting s w l n j u) (hc : s.call ≠ .none) (hj : j < w + l) (hn : j < n) :
    tick u = andThen (countTick ⟨if j < w then .hi else .lo, none⟩ (clearOut u)) fun v => .next (passTick v) := by
  have hhost : u.env.host = quiet :: List.replicate (n - (j + 1)) quiet := by
    rw [h.host, show n - j = n - (j + 1) + 1 by omega, List.replicate_succ]
  have hcall : (clearOut u).call ≠ .none := by rwa [clearOut_call, h.call]
  rw [tick_txIdle hhost h.busy, pinSample_pulseWave h.wave hj, rxTick_counting hcall h.phase]

/-- The inputs after one more tick. -/
theorem Counting.wave_succ (h : Counting s w l n j u) (hj : j + 1 < w + l) :
    popWave u.env.wave = pulseWave w l (j + 1) := by
  rw [h.wave, popWave_pulseWave hj]

theorem Counting.host_succ (h : Counting s w l n j u) : u.env.host.tail = List.replicate (n - (j + 1)) quiet := by
  rw [h.host, List.tail_replicate, Nat.sub_sub]

/-- The first tick of the pulse is the last read of phase 1 and the first of phase 2 (R172, D6). -/
theorem Counting.first (hb : s.tx.busy = false) (hc : s.call ≠ .none) (hp : s.pwc.phase = .waitHigh) (hw : 1 ≤ w)
    (hl : 1 ≤ l) (hwave : s.env.wave = pulseWave w l 0) (hhost : s.env.host = List.replicate n quiet) (hn : 0 < n) :
    ∃ u, tick s = .next u ∧ Counting s w l n 1 u := by
  have hquiet : s.env.host = quiet :: List.replicate (n - 1) quiet := by
    rw [hhost, ← List.replicate_succ, Nat.sub_add_cancel hn]
  have htick := tick_txIdle hquiet hb
  rw [pinSample_pulseWave hwave (by omega), if_pos (show 0 < w from hw), rxTick_waiting (s := clearOut s) hc hp] at htick
  exact ⟨_, htick, hb, rfl, rfl, rfl, rfl, Nat.le_refl 9, rfl, rfl, rfl, rfl, rfl,
    (congrArg popWave hwave).trans (popWave_pulseWave (by omega)), congrArg List.tail hquiet⟩

/-- Before the measured width has passed the measurement counts on: inside a delay, or at its end, where the line is still
high and the cap is not met. -/
theorem Counting.succ (h : Counting s w l n j u) (hc : s.call ≠ .none) (hl : 10 ≤ l) (hd : j < measuredWidth w)
    (hn : j < n) : ∃ v, tick u = .next v ∧ Counting s w l n (j + 1) v := by
  obtain ⟨hcap, hwidth⟩ := lt_min_iff.1 hd
  have htick := h.tick_eq hc (by omega) hn
  have hwave := h.wave_succ (by omega)
  have hposition := h.position
  have hle := h.poll_le
  have hstep := h.dur_step
  by_cases hpoll : u.pwc.poll = 0
  · rw [hpoll] at hposition
    change _ + 10 = j + 0 at hposition
    have hten : (u.pwc.dur + 10).toNat = u.pwc.dur.toNat + 10 := by bv_omega
    rw [if_pos (show j < w by omega)] at htick
    obtain ⟨log, hhigh⟩ := countTick_high (s := clearOut u) h.phase h.due hpoll (hten.trans_lt (by omega))
    rw [hhigh] at htick
    refine ⟨_, htick, h.busy, h.call, h.phase, rfl, ?_, Nat.le_refl 9, ?_, h.handed, h.bfa, h.md, h.rxbuf, hwave, h.host_succ⟩
    · show (u.pwc.dur + 10).toNat + 10 = j + 1 + 9
      omega
    · show (u.pwc.dur + 10).toNat % 10 = 0
      omega
  · have hpred : (u.pwc.poll - 1).toNat + 1 = u.pwc.poll.toNat := by bv_omega
    rw [countTick_delay (s := clearOut u) _ h.due hpoll] at htick
    refine ⟨_, htick, h.busy, h.call, h.phase, h.due, ?_, ?_, hstep, h.handed, h.bfa, h.md, h.rxbuf, hwave, h.host_succ⟩
    · show u.pwc.dur.toNat + 10 = j + 1 + (u.pwc.poll - 1).toNat
      omega
    · show (u.pwc.poll - 1).toNat ≤ 9
      omega

/-- So it counts until the measured width has passed, by induction on the ticks. -/
theorem Counting.ticks (h : Counting s w l n j u) (hc : s.call ≠ .none) (hl : 10 ≤ l) (k : Nat)
    (hd : j + k ≤ measuredWidth w) (hn : measuredWidth w < n) :
    ∃ v, ticks k u = .next v ∧ Counting s w l n (j + k) v := by
  induction k generalizing j u with
  | zero => exact ⟨u, rfl, h⟩
  | succ k ih =>
    obtain ⟨v, hv, hcount⟩ := h.succ hc hl (by omega) (by omega)
    obtain ⟨x, hx, hend⟩ := ih hcount (by omega)
    refine ⟨x, ?_, (by rwa [show j + (k + 1) = j + 1 + k by omega])⟩
    rw [Machine.ticks, hv, andThen_next, hx]

/-- The tick at the measured width delivers it: the cap is met or the line is low. -/
theorem Counting.delivers (h : Counting s w l n (measuredWidth w) u) (hc : s.call ≠ .none) (hroom : s.md.HasRoom)
    (hl : 10 ≤ l) (hn : measuredWidth w < n) :
    ∃ t, tick u = .next t ∧ Delivered (BitVec.ofNat 11 (measuredWidth w)) u t := by
  have hposition := h.position
  have hle := h.poll_le
  have hstep := h.dur_step
  have hwidth : measuredWidth w = min 2000 (10 * ((w + 9) / 10)) := rfl
  have htick := h.tick_eq hc (by omega) hn
  have hpoll : u.pwc.poll = 0 := by bv_omega
  have hdur : u.pwc.dur + 10 = BitVec.ofNat 11 (measuredWidth w) := by
    rw [hpoll] at hposition
    change _ + 10 = _ + 0 at hposition
    bv_omega
  have hnat : (u.pwc.dur + 10).toNat = measuredWidth w := by
    rw [hdur]
    exact (BitVec.toNat_ofNat ..).trans (Nat.mod_eq_of_lt (by omega))
  generalize hp : (⟨if measuredWidth w < w then .hi else .lo, none⟩ : PinSample) = p at htick
  have hend : 2000 ≤ ((clearOut u).pwc.dur + 10).toNat ∨ p = ⟨.lo, none⟩ := by
    rcases Nat.lt_or_ge (measuredWidth w) w with hlt | hge
    · exact .inl (hnat.symm.le.trans' (by omega))
    · exact .inr (by rw [← hp, if_neg (not_lt.2 hge)])
  obtain ⟨log, hmeasured⟩ := countTick_measured (p := p) (s := clearOut u) h.due hpoll hend
  obtain ⟨v, hv⟩ := countTick_answersNext (p := p) (s := clearOut u) (by rwa [clearOut_md, h.md])
  rw [hv] at htick
  rw [hv] at hmeasured
  have hdeliver := measDone_readAgain_delivers (by simpa [h.call] using hc) rfl (by rw [← hp]) hmeasured.symm
  rw [clearOut_pwc, hdur] at hdeliver
  exact ⟨_, htick, hdeliver.meas, hdeliver.bit, hdeliver.alone⟩

end

/-- Settles O47: the measurement counts from the first tick of the pulse to its measured width, and the next tick delivers
it. -/
theorem pulseWidthIsRoundedUp : Obligations.PulseWidthIsRoundedUp := by
  intro s w l n hi hb hc hp hw hl hwave hhost hn d
  have hd : d = measuredWidth w := rfl
  have hwidth : d = min 2000 (10 * ((w + 9) / 10)) := rfl
  have hnat : (BitVec.ofNat 11 d).toNat = d := (BitVec.toNat_ofNat ..).trans (Nat.mod_eq_of_lt (by omega))
  refine ⟨?_, fun h => classify_below (by omega), fun _ _ => classify_one (by omega) (by omega),
    fun _ _ => classify_zero (by omega) (by omega), fun _ => classify_above (by omega)⟩
  have hline : s.env.wave = pulseWave w l 0 := hwave.trans (if_pos hw).symm
  obtain ⟨u₁, hu₁, hfirst⟩ := Counting.first hb hc hp hw (by omega) hline hhost (by omega)
  obtain ⟨u, hu, hcount⟩ := hfirst.ticks hc hl (d - 1) (by omega) hn
  rw [show 1 + (d - 1) = measuredWidth w by omega] at hcount
  obtain ⟨t, ht, hdeliver⟩ := hcount.delivers hc ((inv_iff s).1 hi).2.2.md.hasRoom hl hn
  have hticks : ticks d s = .next u := by
    rw [show d = d - 1 + 1 by omega, ticks, hu₁, andThen_next, hu]
  rw [← hd] at hdeliver
  obtain ⟨hmeas, hbit, halone⟩ := hdeliver
  rw [hnat] at hbit
  rw [hcount.call] at hbit halone
  refine ⟨u, t, hticks, hcount.call, hcount.phase, hcount.handed, hcount.bfa, hcount.md, ht, hmeas, hbit, fun hm => ?_⟩
  obtain ⟨hcall, hphase, hdur, hbfa, hmd, hbuf⟩ := halone hm
  exact ⟨hcall, hphase, by rw [hdur, hnat], hbfa.trans hcount.bfa, hmd.trans hcount.md, hbuf.trans hcount.rxbuf⟩

end Sys2Proof.Machine
end

section
/-! SUPPORT. One bit read on its answers as one return of `READ_BIT`; a byte read over valid and invalid bits and the zeros
that end a header search, each started alone or by a `RECEIVE`; then O26, O27, O28 and O29. -/

namespace Sys2Proof.Machine

/-! ### One bit read, for the operation that reads more than one -/

/-- Any measurement but one that was started alone returns to `READ_BIT` (R170, R171). -/
theorem measDone_eq_bitDone (m : Meas) {s : State} (hc : s.call ≠ .none) (hm : s.call ≠ .measurePulse) :
    ∃ h, measDone m s = bitDone (bitOfMeas m)
      { s with pwc := { s.pwc with phase := .idle, due := false }, handed := h } := by
  simp only [measDone]
  cases m <;> exact ⟨_, rfl⟩

/-- One bit read on its answers is one return of `READ_BIT` with its bit: beside the classifier, the values handed over and
the receive trace nothing has changed before. -/
theorem runCalls_bitRead {r : BitRead} (as : List PinAnswer) {s : State} (hc : s.call ≠ .none)
    (hm : s.call ≠ .measurePulse) (hp : s.pwc.phase = .waitHigh) (hr : r.possible = true) :
    ∃ p h l, runCalls (r.answers ++ as) s =
        andThen (bitDone r.bit { s with pwc := p, handed := h, rxLog := l }) (runCalls as) ∧
      p.phase = .idle ∧ l.now = s.rxLog.now + r.time := by
  obtain ⟨p, l, hread, hl, -, -⟩ := runCalls_read r as s hc hp hr
  obtain ⟨h, hmeas⟩ := measDone_eq_bitDone r.meas (s := { s with pwc := p, rxLog := l }) hc hm
  rw [hmeas, BitRead.bitOfMeas_meas hr] at hread
  exact ⟨_, h, l, hread, rfl, hl⟩

/-- Bit reads in two parts give their bits in the same two parts. -/
theorem readsAs_append_iff {rs : List BitRead} {bs cs : List Bool} :
    ReadsAs rs (bs ++ cs) ↔ ∃ qs ts, rs = qs ++ ts ∧ ReadsAs qs bs ∧ ReadsAs ts cs := by
  constructor
  · rintro ⟨hpos, hbits⟩
    rw [List.map_append] at hbits
    obtain ⟨qs, ts, rfl, hqs, hts⟩ := List.map_eq_append_iff.1 hbits
    rw [List.forall_mem_append] at hpos
    exact ⟨qs, ts, rfl, ⟨hpos.1, hqs⟩, hpos.2, hts⟩
  · rintro ⟨qs, ts, rfl, ⟨hposq, hqs⟩, hpost, hts⟩
    exact ⟨List.forall_mem_append.2 ⟨hposq, hpost⟩, by rw [List.map_append, List.map_append, hqs, hts]⟩

/-- Bit reads that give a first bit begin with one that gives it. -/
theorem readsAs_cons_iff {rs : List BitRead} {b : Bool} {bs : List Bool} :
    ReadsAs rs (b :: bs) ↔ ∃ r qs, rs = r :: qs ∧ (r.possible = true ∧ r.bit = some b) ∧ ReadsAs qs bs := by
  constructor
  · rintro ⟨hpos, hbits⟩
    rw [List.map_cons] at hbits
    obtain ⟨r, qs, rfl, hr, hqs⟩ := List.map_eq_cons_iff.1 hbits
    rw [List.forall_mem_cons] at hpos
    exact ⟨r, qs, rfl, ⟨hpos.1, hr⟩, hpos.2, hqs⟩
  · rintro ⟨r, qs, rfl, ⟨hposr, hr⟩, hposq, hqs⟩
    exact ⟨List.forall_mem_cons.2 ⟨hposr, hposq⟩, by rw [List.map_cons, List.map_cons, hr, hqs]⟩

theorem readsAs_nil_iff {rs : List BitRead} : ReadsAs rs [] ↔ rs = [] := by
  refine ⟨fun h => List.map_eq_nil_iff.1 h.2, ?_⟩
  rintro rfl
  exact ⟨nofun, rfl⟩

theorem answersOf_append (rs qs : List BitRead) : answersOf (rs ++ qs) = answersOf rs ++ answersOf qs :=
  List.flatMap_append

theorem answersOf_cons (r : BitRead) (rs : List BitRead) : answersOf (r :: rs) = r.answers ++ answersOf rs := rfl

theorem answersOf_concat (rs : List BitRead) (r : BitRead) : answersOf (rs ++ [r]) = answersOf rs ++ r.answers := by
  simp [answersOf]

theorem timeOf_concat (rs : List BitRead) (r : BitRead) : timeOf (rs ++ [r]) = timeOf rs + r.time := by
  simp [timeOf]

/-! ### The byte of some bits -/

/-- Bit `i` of the number of some bits is the bit at place `i` among them (R93). -/
theorem testBit_natOfBits (bs : List Bool) (i : Nat) : (natOfBits bs).testBit i = bs.getD i false := by
  induction bs generalizing i with
  | nil => simp [natOfBits]
  | cons b bs ih =>
    cases i with
    | zero => cases b <;> simp [natOfBits, Nat.testBit_zero, Nat.add_mod]
    | succ i =>
      have hhalf : (b.toNat + 2 * natOfBits bs) / 2 = natOfBits bs := by have := b.toNat_lt; omega
      rw [natOfBits, Nat.testBit_succ, hhalf, ih, List.getD_cons_succ]

theorem getLsbD_byteOfBits (bs : List Bool) {i : Nat} (h : i < 8) : (byteOfBits bs).getLsbD i = bs.getD i false := by
  rw [byteOfBits, BitVec.getLsbD_ofNat, testBit_natOfBits, decide_eq_true h, Bool.true_and]

theorem getLsbD_setBit (v : Byte) (b : Bool) {i j : Nat} (h : i < 8) :
    (setBit v j b).getLsbD i = if j = i then b else v.getLsbD i := by
  have hone : (1#8 <<< j).getLsbD i = decide (j = i) := by
    rw [← BitVec.twoPow_eq, BitVec.getLsbD_twoPow, Bool.and_eq_right_iff_imp, decide_eq_true_eq, decide_eq_true_eq]
    omega
  have hbit : (if b then 1#8 <<< j else 0#8).getLsbD i = (b && decide (j = i)) := by
    cases b with
    | true => exact hone
    | false => exact BitVec.getLsbD_zero
  rw [setBit, BitVec.getLsbD_or, BitVec.getLsbD_and, BitVec.getLsbD_not, hone, hbit]
  by_cases hji : j = i <;> simp [h, hji]

/-- The next bit of a byte goes to the place after the bits it has (R93, R190). -/
theorem setBit_byteOfBits (bs : List Bool) (b : Bool) :
    setBit (byteOfBits bs) bs.length b = byteOfBits (bs ++ [b]) := by
  refine BitVec.eq_of_getLsbD_eq fun i hi => ?_
  rw [getLsbD_setBit _ _ hi, getLsbD_byteOfBits _ hi, getLsbD_byteOfBits _ hi]
  split_ifs with hlast
  · simp [← hlast]
  · rcases Nat.lt_or_gt_of_ne hlast with hlt | hlt
    · rw [List.getD_eq_default _ _ (by omega), List.getD_eq_default _ _ (by simp; omega)]
    · rw [List.getD_append _ _ _ _ hlt]

/-! ### A byte read at the trace level -/

/-- The assembler's registers with these bits of a byte read so far (R34, R35). -/
def Bfa.holding (bs : List Bool) (b : Bfa) : Bfa :=
  { b with shift := byteOfBits bs, nbits := BitVec.ofNat 4 bs.length }

theorem Bfa.holding_nbits_toNat {bs : List Bool} (h : bs.length ≤ 8) (b : Bfa) :
    (b.holding bs).nbits.toNat = bs.length :=
  (BitVec.toNat_ofNat ..).trans (Nat.mod_eq_of_lt (by omega))

/-- A byte read is in progress, started alone or by a `RECEIVE` after the header (R190, R214 to R218). -/
def ReadsByte (s : State) : Prop := s.call = .readByte ∨ s.call = .receive ∧ s.md.state ≠ .seekingHeader

/-- A byte read is a call in progress that goes on after a measurement. -/
theorem ReadsByte.call_ne {s : State} (h : ReadsByte s) : s.call ≠ .none ∧ s.call ≠ .measurePulse := by
  rcases h with hc | ⟨hc, -⟩ <;> simp [hc]

/-- A bit read that returns to a byte read gives it one bit (R190). -/
theorem ReadsByte.bitDone_eq {s : State} (hs : ReadsByte s) (r : Option Bool) :
    ∃ h, bitDone r s = byteBit r { s with handed := h } := by
  rcases hs with hc | ⟨hc, hstate⟩
  · simp only [bitDone, hc]; exact ⟨_, rfl⟩
  · simp only [bitDone, hc, if_neg hstate]; exact ⟨_, rfl⟩

/-- One more bit of a byte (R190). -/
theorem Bfa.holding_concat {bs : List Bool} {b : Bfa} (v : Bool) (hbits : b = b.holding bs) (h : bs.length < 8) :
    { b with shift := setBit b.shift b.nbits.toNat v, nbits := b.nbits + 1 } = b.holding (bs ++ [v]) := by
  have hn : b.nbits.toNat = bs.length := by rw [hbits, Bfa.holding_nbits_toNat h.le]
  have hshift : b.shift = byteOfBits bs := by rw [hbits]; rfl
  have hnbits : b.nbits = BitVec.ofNat 4 bs.length := by rw [hbits]; rfl
  rw [hn, hshift, setBit_byteOfBits, hnbits, Bfa.holding, List.length_append, BitVec.ofNat_add]
  rfl

/-- A valid bit is added to the byte: before the eighth the next measurement starts, the eighth completes the byte
(R190). -/
theorem byteBit_valid {bs : List Bool} {s : State} (v : Bool) (hbits : s.bfa = s.bfa.holding bs) (h : bs.length < 8) :
    byteBit (some v) s =
      if bs.length + 1 < 8 then .next (beginMeasure { s with bfa := s.bfa.holding (bs ++ [v]) })
      else byteDone (some (byteOfBits (bs ++ [v]))) { s with bfa := s.bfa.holding (bs ++ [v]) } := by
  have hnext := Bfa.holding_concat v hbits h
  have hshift : setBit s.bfa.shift s.bfa.nbits.toNat v = byteOfBits (bs ++ [v]) := congrArg Bfa.shift hnext
  have hnbits : (s.bfa.nbits + 1).toNat = bs.length + 1 := by
    rw [show s.bfa.nbits + 1 = (s.bfa.holding (bs ++ [v])).nbits from congrArg Bfa.nbits hnext,
      Bfa.holding_nbits_toNat (by simpa using h), List.length_append, List.length_singleton]
  rw [hshift] at hnext
  simp only [byteBit, hnbits, hshift, hnext]

/-- A byte read that has these bits now: beside the assembler, only the classifier, the values handed over and the receive
trace have changed (R190). -/
def assembled (bs : List Bool) (p : Pwc) (h : Handed) (l : RxLog) (s : State) : State :=
  { s with pwc := p, handed := h, rxLog := l, bfa := s.bfa.holding bs }

/-- One bit read of a byte read, on its answers. -/
theorem runCalls_byteBit {r : BitRead} (as : List PinAnswer) {s : State} (hs : ReadsByte s)
    (hp : s.pwc.phase = .waitHigh) (hr : r.possible = true) :
    ∃ p h l, runCalls (r.answers ++ as) s =
        andThen (byteBit r.bit { s with pwc := p, handed := h, rxLog := l }) (runCalls as) ∧
      p.phase = .idle ∧ l.now = s.rxLog.now + r.time := by
  obtain ⟨hcall, hmeas⟩ := hs.call_ne
  obtain ⟨p, h, l, hread, hphase, hl⟩ := runCalls_bitRead as hcall hmeas hp hr
  obtain ⟨h', hbit⟩ := ReadsByte.bitDone_eq (s := { s with pwc := p, handed := h, rxLog := l }) hs r.bit
  exact ⟨p, h', l, by rw [hread, hbit], hphase, hl⟩

/-- A byte read over valid bits that do not complete it, by induction on them (R190). -/
theorem runCalls_assembling {rs : List BitRead} {cs : List Bool} (as : List PinAnswer) {bs : List Bool} {s : State}
    (hs : ReadsByte s) (hp : s.pwc.phase = .waitHigh) (hbits : s.bfa = s.bfa.holding bs) (hrs : ReadsAs rs cs)
    (hlen : bs.length + cs.length < 8) :
    ∃ p h l, runCalls (answersOf rs ++ as) s = runCalls as (assembled (bs ++ cs) p h l s) ∧
      p.phase = .waitHigh ∧ l.now = s.rxLog.now + timeOf rs := by
  induction cs generalizing rs bs s with
  | nil =>
    obtain rfl := readsAs_nil_iff.1 hrs
    refine ⟨s.pwc, s.handed, s.rxLog, ?_, hp, rfl⟩
    show runCalls as s = runCalls as { s with bfa := s.bfa.holding (bs ++ []) }
    rw [List.append_nil, ← hbits]
  | cons c cs ih =>
    obtain ⟨r, rs, rfl, ⟨hr, hbit⟩, hrs⟩ := readsAs_cons_iff.1 hrs
    rw [List.length_cons] at hlen
    obtain ⟨p, h, l, hread, -, hl⟩ := runCalls_byteBit (answersOf rs ++ as) hs hp hr
    rw [hbit, byteBit_valid c (by exact hbits) (by omega), if_pos (by omega), andThen_next] at hread
    obtain ⟨p', h', l', hrest, hphase', hl'⟩ := ih (bs := bs ++ [c])
      (s := assembled (bs ++ [c]) { p with phase := .waitHigh, due := false } h l s) hs rfl rfl hrs (by simp; omega)
    refine ⟨p', h', l', ?_, hphase', ?_⟩
    · rw [answersOf_cons, List.append_assoc]
      rw [List.append_assoc] at hrest
      exact hread.trans hrest
    · calc l'.now
        _ = l.now + timeOf rs := hl'
        _ = s.rxLog.now + (r.time + timeOf rs) := by rw [hl, Nat.add_assoc]

/-- Eight bit reads that give bits are one byte read that returns their byte (R190, R191). -/
theorem runCalls_byteRead {rs : List BitRead} {cs : List Bool} (as : List PinAnswer) {s : State} (hs : ReadsByte s)
    (hp : s.pwc.phase = .waitHigh) (hbits : s.bfa = s.bfa.holding []) (hrs : ReadsAs rs cs) (hlen : cs.length = 8) :
    ∃ p h l, runCalls (answersOf rs ++ as) s =
        andThen (byteDone (some (byteOfBits cs)) (assembled cs p h l s)) (runCalls as) ∧
      p.phase = .idle ∧ l.now = s.rxLog.now + timeOf rs := by
  obtain rfl | ⟨bs, v, rfl⟩ := List.eq_nil_or_concat' cs
  · cases hlen
  · rw [List.length_append, List.length_singleton] at hlen
    obtain ⟨qs, ts, rfl, hqs, hts⟩ := readsAs_append_iff.1 hrs
    obtain ⟨r, us, rfl, ⟨hr, hbit⟩, hus⟩ := readsAs_cons_iff.1 hts
    obtain rfl := readsAs_nil_iff.1 hus
    obtain ⟨p, h, l, hfirst, hphase, hl⟩ := runCalls_assembling (r.answers ++ as) hs hp hbits hqs (by simp; omega)
    obtain ⟨p', h', l', hlast, hphase', hl'⟩ := runCalls_byteBit as (s := assembled bs p h l s) hs hphase hr
    rw [hbit, byteBit_valid v (bs := bs) rfl (by omega), if_neg (by omega)] at hlast
    refine ⟨p', h', l', ?_, hphase', ?_⟩
    · rw [answersOf_concat, List.append_assoc]
      exact hfirst.trans hlast
    · calc l'.now
        _ = l.now + r.time := hl'
        _ = s.rxLog.now + timeOf (qs ++ [r]) := by rw [timeOf_concat, hl, Nat.add_assoc]

/-- Valid bits and then an invalid one are a byte read that returns `None` at once (R190, R191). -/
theorem runCalls_byteRead_fails {rs : List BitRead} {cs : List Bool} {bad : BitRead} (as : List PinAnswer) {s : State}
    (hs : ReadsByte s) (hp : s.pwc.phase = .waitHigh) (hbits : s.bfa = s.bfa.holding []) (hrs : ReadsAs rs cs)
    (hlen : cs.length < 8) (hbad : bad.possible = true) (hnone : bad.bit = none) :
    ∃ p h l, runCalls (answersOf (rs ++ [bad]) ++ as) s =
        andThen (byteDone none (assembled cs p h l s)) (runCalls as) ∧ p.phase = .idle := by
  obtain ⟨p, h, l, hvalid, hphase, -⟩ := runCalls_assembling (bad.answers ++ as) hs hp hbits hrs (by simpa)
  obtain ⟨p', h', l', hlast, hphase', -⟩ := runCalls_byteBit as (s := assembled cs p h l s) hs hphase hbad
  rw [hnone] at hlast
  rw [answersOf_concat, List.append_assoc]
  exact ⟨p', h', l', hvalid.trans hlast, hphase'⟩

/-! ### The byte read started alone -/

theorem exec_readByte {s : State} {as : List PinAnswer} (hfree : rxFree s = true) (hcalls : s.env.calls = as) :
    exec .readByte s = runCalls as (beginByte { s with call := .readByte }) :=
  hcalls ▸ startAlone_free _ _ hfree

/-- A byte read that was started alone ends its call with its result (R190). -/
theorem byteDone_alone (r : Option Byte) {s : State} (hc : s.call = .readByte) :
    byteDone r s = .next { s with call := .none, handed := { s.handed with byte := some r } } := by
  simp only [byteDone, hc]
  rfl

/-- Settles O26: the eight bit reads are one byte read, and its return ends the call. -/
theorem readByteAssemblesEightBits : Obligations.ReadByteAssemblesEightBits := by
  intro s rs bs rest hfree hlen hrs hcalls
  obtain ⟨p, h, l, hrun, hphase, -⟩ :=
    runCalls_byteRead rest (s := beginByte { s with call := .readByte }) (.inl rfl) rfl rfl hrs hlen
  rw [← exec_readByte hfree hcalls, byteDone_alone _ rfl, andThen_next, runCalls_done _ _ rfl] at hrun
  exact ⟨_, hrun, rfl, by simp [assembled, Bfa.holding, hlen], rfl, hphase, rfl, rfl, rfl, rfl,
    startAlone_sameTx (by simp [SameTx]) hrun⟩

/-- Settles O27: the byte read returns `None` with the bits before the invalid one. -/
theorem readByteFailsAtTheFirstInvalidBit : Obligations.ReadByteFailsAtTheFirstInvalidBit := by
  intro s rs bs bad rest hfree hlen hrs hbad hnone hcalls
  obtain ⟨p, h, l, hrun, hphase⟩ :=
    runCalls_byteRead_fails rest (s := beginByte { s with call := .readByte }) (.inl rfl) rfl rfl hrs hlen hbad hnone
  rw [← exec_readByte hfree hcalls, byteDone_alone _ rfl, andThen_next, runCalls_done _ _ rfl] at hrun
  exact ⟨_, hrun, rfl, Bfa.holding_nbits_toNat hlen.le _, rfl, rfl, hphase, rfl, rfl, rfl, rfl,
    startAlone_sameTx (by simp [SameTx]) hrun⟩

/-! ### The header search -/

/-- A header search is a call that goes on after a bit read. -/
theorem Seeks.call_ne_measurePulse {s : State} (h : Seeks s) : s.call ≠ .measurePulse := by
  rcases h with hc | ⟨hc, -⟩ <;> simp [hc]

/-- A bit read that returns to a header search gives it one bit (R196). -/
theorem Seeks.bitDone_eq {s : State} (hs : Seeks s) (r : Option Bool) :
    ∃ h, bitDone r s = seekBit r { s with handed := h } := by
  rcases hs with hc | ⟨hc, hstate⟩
  · simp only [bitDone, hc]; exact ⟨_, rfl⟩
  · simp only [bitDone, hc, if_pos hstate]; exact ⟨_, rfl⟩

/-- The 24th zero ends a header search (R199). -/
theorem seekBit_ends {s : State} (hrun : s.bfa.zeroRun = 23) :
    seekBit (some false) s = .next (seekDone { s with bfa := { s.bfa with zeroRun := 24 } }) := by
  simp only [seekBit, hrun]
  rfl

/-- The zero that makes the run of 24 ends a header search right after its answers (R199). -/
theorem runCalls_lastZero {r : BitRead} (as : List PinAnswer) {s : State} (hs : Seeks s) (hp : s.pwc.phase = .waitHigh)
    (hrun : s.bfa.zeroRun = 23) (hr : r.possible = true) (hbit : r.bit = some false) :
    ∃ p h l, runCalls (r.answers ++ as) s = runCalls as (seekDone (searched 24 p h l s)) ∧
      p.phase = .idle ∧ l.now = s.rxLog.now + r.time := by
  obtain ⟨p, h, l, hread, hphase, hl⟩ := runCalls_bitRead as hs.call hs.call_ne_measurePulse hp hr
  obtain ⟨h', hdone⟩ := Seeks.bitDone_eq (s := { s with pwc := p, handed := h, rxLog := l }) hs r.bit
  rw [hbit] at hdone hread
  rw [hdone.trans (seekBit_ends hrun), andThen_next] at hread
  exact ⟨p, h', l, hread, hphase, hl⟩

/-- Zeros that make the run of 24 end a header search, by induction on them (R197, R199). -/
theorem runCalls_headerFound {zs : List BitRead} {n : Nat} (as : List PinAnswer) {s : State} {z : Nat} (hs : Seeks s)
    (hp : s.pwc.phase = .waitHigh) (hz : s.bfa.zeroRun = BitVec.ofNat 5 z) (hlt : z < 24) (hn : z + n = 24)
    (hzs : ReadsAs zs (List.replicate n false)) :
    ∃ p h l, runCalls (answersOf zs ++ as) s = runCalls as (seekDone (searched 24 p h l s)) ∧
      p.phase = .idle ∧ l.now = s.rxLog.now + timeOf zs := by
  induction n generalizing zs s z with
  | zero => omega
  | succ n ih =>
    obtain ⟨r, zs, rfl, ⟨hr, hbit⟩, hzs⟩ := readsAs_cons_iff.1 hzs
    rw [answersOf_cons, List.append_assoc]
    rcases n.eq_zero_or_pos with rfl | hmore
    · obtain rfl := readsAs_nil_iff.1 hzs
      obtain rfl : z = 23 := by omega
      exact runCalls_lastZero as hs hp hz hr hbit
    · have hrun : runAfterOne z r = z + 1 := if_pos hbit
      obtain ⟨p, h, l, hread, hphase, hl⟩ := runCalls_seekingOne (answersOf zs ++ as) hs hp hz hr (by omega)
      obtain ⟨p', h', l', hrest, hphase', hl'⟩ :=
        ih (s := searched (runAfterOne z r) p h l s) hs hphase rfl (by omega) (by omega) hzs
      refine ⟨p', h', l', hread.trans hrest, hphase', ?_⟩
      calc l'.now
        _ = l.now + timeOf zs := hl'
        _ = s.rxLog.now + (r.time + timeOf zs) := by rw [hl, Nat.add_assoc]

/-- Bit reads that do not end a header search leave its run below 24 (R200). -/
theorem runAfter_lt {z : Nat} {rs : List BitRead} (hkeeps : keepsSeeking z rs = true) (hz : z < 24) :
    runAfter z rs < 24 := by
  induction rs generalizing z with
  | nil => exact hz
  | cons r rs ih =>
    simp only [keepsSeeking, Bool.and_eq_true, decide_eq_true_eq] at hkeeps
    exact ih hkeeps.2 hkeeps.1

/-! ### The header search started alone -/

theorem exec_seekHeader {s : State} {as : List PinAnswer} (hfree : rxFree s = true) (hcalls : s.env.calls = as) :
    exec .seekHeader s = runCalls as (beginSeek { s with call := .seekHeader }) :=
  hcalls ▸ startAlone_free _ _ hfree

/-- Settles O28: the search goes on over the first bit reads, and the zeros after them end it. -/
theorem seekHeaderEndsAtTwentyFourZeros : Obligations.SeekHeaderEndsAtTwentyFourZeros := by
  intro s rs zs rest hfree hpos hkeeps hzs hlen hcalls
  rw [answersOf_append, List.append_assoc] at hcalls
  obtain ⟨p, h, l, hfirst, hphase, -⟩ := runCalls_seeking rs (answersOf zs ++ rest)
    (s := beginSeek { s with call := .seekHeader }) (.inl rfl) rfl rfl hpos hkeeps
  obtain ⟨p', h', l', hlast, hphase', -⟩ := runCalls_headerFound rest
    (s := searched (runAfter 0 rs) p h l (beginSeek { s with call := .seekHeader })) (.inl rfl) hphase rfl
    (runAfter_lt hkeeps (by decide)) hlen hzs
  have hrun := (exec_seekHeader hfree hcalls).trans (hfirst.trans (hlast.trans (runCalls_done _ _ rfl)))
  exact ⟨_, hrun, rfl, hphase', rfl, rfl, rfl, rfl, rfl, startAlone_sameTx (by simp [SameTx]) hrun⟩

/-- Settles O29: the search goes on over the bit reads, and low reads after them only pass the time. -/
theorem seekHeaderGoesOnWithoutTheRun : Obligations.SeekHeaderGoesOnWithoutTheRun := by
  intro s rs w hfree hpos hkeeps hcalls
  obtain ⟨p, h, l, hrun, hphase, -⟩ := runCalls_seeking rs (List.replicate w (.ok true))
    (s := beginSeek { s with call := .seekHeader }) (.inl rfl) rfl rfl hpos hkeeps
  rw [← exec_seekHeader hfree hcalls, ← List.append_nil (List.replicate w _),
    runCalls_low w [] _ (by simp [searched]) hphase] at hrun
  have hlt : runAfter 0 rs < 24 := runAfter_lt hkeeps (by decide)
  have hnat : (BitVec.ofNat 5 (runAfter 0 rs)).toNat = runAfter 0 rs :=
    (BitVec.toNat_ofNat ..).trans (Nat.mod_eq_of_lt (hlt.trans (by decide)))
  exact ⟨_, hrun, rfl, hphase, hnat, rfl, rfl, rfl, rfl, startAlone_sameTx (by simp [SameTx]) hrun⟩

end Sys2Proof.Machine
end

section
/-! SUPPORT. A `RECEIVE` run by its line, byte by byte: where it stands before a byte and after one, what it does with
the byte, and how it ends; then O31 to O36. -/

namespace Sys2Proof.Machine

/-! ### Where a `RECEIVE` stands -/

/-- The decoder's registers of a `RECEIVE` with capacity `cap` in state `st`, with the length `n` and the payload bytes
`q` so far (R36 to R39). -/
def Md.reading (cap : BitVec 9) (st : MdState) (n : Byte) (q : List Byte) : Md :=
  { busy := true, state := st, len := n, idx := BitVec.ofNat 8 q.length, cap := cap, result := .none }

@[simp] theorem Md.reading_state (cap : BitVec 9) (st : MdState) (n : Byte) (q : List Byte) :
    (Md.reading cap st n q).state = st := rfl

theorem Md.reading_idx_toNat (cap : BitVec 9) (st : MdState) (n : Byte) {q : List Byte} (h : q.length < 256) :
    (Md.reading cap st n q).idx.toNat = q.length :=
  (BitVec.toNat_ofNat ..).trans (Nat.mod_eq_of_lt h)

/-- The decoder's registers at the end of a `RECEIVE` with the result `r` (R219, R220). -/
def Md.ended (r : RxResult) (m : Md) : Md := { m with busy := false, state := .rxIdle, result := r }

/-- A `RECEIVE` accepted in `s` is in progress: the decoder is at `m`, the bytes `q` are in the buffer and nothing else
has been written, the inputs are as they were, and the classifier is in phase `ph`. -/
structure Receiving (s : State) (m : Md) (q : List Byte) (ph : PwcPhase) (u : State) : Prop where
  call    : u.call = .receive
  phase   : u.pwc.phase = ph
  md      : u.md = m
  rxbuf   : u.rxbuf = Memory.writeList s.rxbuf 0 q
  rxWrite : q = [] → u.out.rxWrite = s.out.rxWrite
  env     : u.env = s.env

/-- A `RECEIVE` run by its line in `s` has come to the first bit of a byte, `τ` microseconds after its acceptance and
with the answers `as` left (R214 to R218). -/
structure AwaitsByte (s : State) (cap : BitVec 9) (as : List PinAnswer) (m : Md) (q : List Byte) (τ : Nat)
    (u : State) : Prop extends Receiving s m q .waitHigh u where
  run        : exec (.receive cap) s = runCalls as u
  bits       : u.bfa = u.bfa.holding []
  notSeeking : m.state ≠ .seekingHeader
  now        : u.rxLog.now = s.rxLog.now + τ

/-- A `RECEIVE` run by its line in `s` has ended in `t` with the answers `rest` left: the decoder is at `m`, and the
bytes `q` are in the buffer (R219 to R221). -/
structure ReceiveEnded (s : State) (cap : BitVec 9) (rest : List PinAnswer) (m : Md) (q : List Byte) (t : State) :
    Prop where
  run     : exec (.receive cap) s = .next t
  md      : t.md = m
  call    : t.call = .none
  phase   : t.pwc.phase = .idle
  rxDone  : t.out.rxDone = true
  rxbuf   : t.rxbuf = Memory.writeList s.rxbuf 0 q
  rxWrite : q = [] → t.out.rxWrite = s.out.rxWrite
  env     : t.env = { s.env with calls := rest }

section
variable {s u v : State} {cap : BitVec 9} {as rest : List PinAnswer} {m : Md} {n : Byte} {q : List Byte}
  {st : MdState} {ph : PwcPhase} {τ : Nat} {rs : List BitRead}

theorem ReceiveEnded.sameTx (h : ReceiveEnded s cap rest m q u) : SameTx s u :=
  execReceive_sameTx h.run

theorem Receiving.readsByte (h : Receiving s m q ph u) (hm : m.state ≠ .seekingHeader) : ReadsByte u :=
  .inr ⟨h.call, by rwa [h.md]⟩

theorem Receiving.state (h : Receiving s m q ph u) : u.md.state = m.state := congrArg Md.state h.md

/-- The decoder's registers move on. -/
theorem Receiving.setMd (h : Receiving s m q ph u) (m' : Md) : Receiving s m' q ph { u with md := m' } :=
  { h with md := rfl }

/-- The next byte of a `RECEIVE` begins. -/
theorem Receiving.nextByte (h : Receiving s m q .idle u) (hm : m.state ≠ .seekingHeader)
    (hrun : exec (.receive cap) s = runCalls as (beginByte u)) (hnow : u.rxLog.now = s.rxLog.now + τ) :
    AwaitsByte s cap as m q τ (beginByte u) :=
  { h with phase := rfl, run := hrun, bits := rfl, notSeeking := hm, now := hnow }

/-- A `RECEIVE` ends, and reads no further (R219, R220). -/
theorem Receiving.ends (h : Receiving s m q .idle u) {r : RxResult}
    (hrun : exec (.receive cap) s = runCalls rest (endReceive r u)) :
    ∃ t, ReceiveEnded s cap rest (m.ended r) q t ∧ t.bfa = u.bfa ∧ t.rxLog = u.rxLog := by
  rw [runCalls_done _ _ rfl] at hrun
  exact ⟨_, ⟨hrun, congrArg (Md.ended r) h.md, rfl, h.phase, rfl, h.rxbuf, h.rxWrite,
    congrArg (fun e : Env => { e with calls := rest }) h.env⟩, rfl, rfl⟩

/-! ### The byte that comes back to `RECEIVE` -/

theorem byteDone_receive (r : Option Byte) (hc : u.call = .receive) :
    ∃ h, byteDone r u = recvByte r { u with handed := h } := by
  simp only [byteDone, hc]
  exact ⟨_, rfl⟩

theorem timeOf_append (rs qs : List BitRead) : timeOf (rs ++ qs) = timeOf rs + timeOf qs := by
  simp [timeOf]

/-- Eight bit reads that give the bits of a byte hand it to `RECEIVE` (R190, R214 to R218). -/
theorem AwaitsByte.byteRead (h : AwaitsByte s cap (answersOf rs ++ as) m q τ u) {b : Byte}
    (hrs : ReadsAs rs (byteBits b)) :
    ∃ v, exec (.receive cap) s = andThen (recvByte (some b) v) (runCalls as) ∧ Receiving s m q .idle v ∧
      v.rxLog.now = s.rxLog.now + (τ + timeOf rs) := by
  obtain ⟨p, hd, l, hrun, hphase, hl⟩ := runCalls_byteRead as (h.readsByte h.notSeeking) h.phase h.bits hrs rfl
  obtain ⟨hd', hdone⟩ := byteDone_receive (some (byteOfBits (byteBits b))) (u := assembled (byteBits b) p hd l u) h.call
  rw [hdone, byteOfBits_byteBits, ← h.run] at hrun
  refine ⟨_, hrun, { h with phase := hphase }, ?_⟩
  calc l.now
    _ = u.rxLog.now + timeOf rs := hl
    _ = s.rxLog.now + (τ + timeOf rs) := by rw [h.now, Nat.add_assoc]

/-- An invalid bit ends the `RECEIVE` with no frame, and it reads no further (R220). -/
theorem AwaitsByte.fails {bad : BitRead} {bs : List Bool}
    (h : AwaitsByte s cap (answersOf (rs ++ [bad]) ++ rest) m q τ u) (hrs : ReadsAs rs bs) (hlen : bs.length < 8)
    (hbad : bad.possible = true) (hnone : bad.bit = none) :
    ∃ t, ReceiveEnded s cap rest (m.ended .noFrame) q t ∧ t.bfa.nbits.toNat = bs.length := by
  obtain ⟨p, hd, l, hrun, hphase⟩ :=
    runCalls_byteRead_fails rest (h.readsByte h.notSeeking) h.phase h.bits hrs hlen hbad hnone
  obtain ⟨hd', hdone⟩ := byteDone_receive none (u := assembled bs p hd l u) h.call
  rw [hdone, ← h.run] at hrun
  have hv : Receiving s m q .idle { assembled bs p hd l u with handed := hd' } := { h with phase := hphase }
  obtain ⟨t, ht, hbfa, -⟩ := hv.ends hrun
  exact ⟨t, ht, by rw [hbfa]; exact Bfa.holding_nbits_toNat hlen.le _⟩

/-! ### What `RECEIVE` does with a byte -/

theorem lt_zext9_iff (cap : BitVec 9) (n : Byte) : cap < zext9 n ↔ cap.toNat < n.toNat := by
  unfold zext9
  bv_omega

theorem recvByte_sync (hs : v.md.state = .readingSync) :
    recvByte (some syncByte) v = .next (beginByte { v with md := { v.md with state := .readingLength } }) := by
  simp only [recvByte, hs, if_pos]

theorem recvByte_wrongSync {b : Byte} (hs : v.md.state = .readingSync) (hb : b ≠ syncByte) :
    recvByte (some b) v = .next (raiseNoFrame v) := by
  simp only [recvByte, hs, if_neg hb]

theorem recvByte_tooLong (hs : v.md.state = .readingLength) (hcap : v.md.cap.toNat < n.toNat) :
    recvByte (some n) v = .next (raiseNoFrame { v with md := { v.md with len := n } }) := by
  simp only [recvByte, hs, if_pos ((lt_zext9_iff v.md.cap n).2 hcap)]

theorem recvByte_lengthZero (hs : v.md.state = .readingLength) :
    recvByte (some 0) v = .next (endReceive (.some 0) { v with md := { v.md with len := 0, idx := 0 } }) := by
  have hroom : ¬v.md.cap < zext9 0 := by rw [lt_zext9_iff]; exact Nat.not_lt_zero _
  simp only [recvByte, hs, if_neg hroom, if_true]

theorem recvByte_length (hs : v.md.state = .readingLength) (hcap : n.toNat ≤ v.md.cap.toNat) (hn : n ≠ 0) :
    recvByte (some n) v =
      .next (beginByte { v with md := { v.md with state := .readingPayload, len := n, idx := 0 } }) := by
  have hroom : ¬v.md.cap < zext9 n := by rw [lt_zext9_iff]; exact hcap.not_gt
  simp only [recvByte, hs, if_neg hroom, if_neg hn]

theorem recvByte_payload (hs : v.md.state = .readingPayload) (b : Byte) :
    recvByte (some b) v = andThen (storePayload b v) fun w =>
      if w.md.idx < w.md.len then .next (beginByte w) else .next (endReceive (.some w.md.len) w) := by
  simp only [recvByte, hs]

/-! ### Header, sync and length -/

/-- A header after bit reads that do not end the search brings the `RECEIVE` to its sync byte (R213). -/
theorem receive_findsHeader {ns zs : List BitRead} (cap : BitVec 9) (hfree : rxFree s = true)
    (hpos : ∀ r ∈ ns, r.possible = true) (hkeeps : keepsSeeking 0 ns = true) (hrun : runAfter 0 ns = 0)
    (hzs : ReadsAs zs headerPattern) (hcalls : s.env.calls = answersOf ns ++ (answersOf zs ++ as)) :
    ∃ u, AwaitsByte s cap as (.reading cap .readingSync 0 []) [] (timeOf ns + timeOf zs) u := by
  obtain ⟨p, h, l, hfirst, hphase, hl⟩ := runCalls_seeking ns (answersOf zs ++ as)
    (s := acceptReceive cap s) (.inr ⟨rfl, rfl⟩) rfl rfl hpos hkeeps
  obtain ⟨p', h', l', hlast, hphase', hl'⟩ := runCalls_headerFound as
    (s := searched (runAfter 0 ns) p h l (acceptReceive cap s)) (n := 24) (.inr ⟨rfl, rfl⟩) hphase rfl
    (runAfter_lt hkeeps (by decide)) (by rw [hrun]) hzs
  have hu : Receiving s (.reading cap .readingSync 0 []) [] .idle
      { searched 24 p' h' l' (acceptReceive cap s) with md := .reading cap .readingSync 0 [] } :=
    ⟨rfl, hphase', rfl, rfl, fun _ => rfl, rfl⟩
  refine ⟨_, hu.nextByte (by simp) ((exec_receive cap hfree hcalls).trans (hfirst.trans hlast)) ?_⟩
  calc l'.now
    _ = l.now + timeOf zs := hl'
    _ = s.rxLog.now + timeOf ns + timeOf zs := congrArg (· + _) hl
    _ = s.rxLog.now + (timeOf ns + timeOf zs) := Nat.add_assoc ..

/-- A header at once brings the `RECEIVE` to its sync byte (R213). -/
theorem receive_headerAtOnce {zs : List BitRead} (cap : BitVec 9) (hfree : rxFree s = true)
    (hzs : ReadsAs zs headerPattern) (hcalls : s.env.calls = answersOf zs ++ as) :
    ∃ τ u, AwaitsByte s cap as (.reading cap .readingSync 0 []) [] τ u :=
  ⟨_, receive_findsHeader (ns := []) cap hfree nofun rfl rfl hzs hcalls⟩

/-- The sync byte brings the `RECEIVE` to its length byte (R214). -/
theorem AwaitsByte.sync (h : AwaitsByte s cap (answersOf rs ++ as) (.reading cap .readingSync n []) [] τ u)
    (hrs : ReadsAs rs syncPattern) :
    ∃ u, AwaitsByte s cap as (.reading cap .readingLength n []) [] (τ + timeOf rs) u := by
  obtain ⟨v, hrun, hv, hnow⟩ := h.byteRead hrs
  rw [recvByte_sync hv.state, hv.md] at hrun
  exact ⟨_, (hv.setMd (.reading cap .readingLength n [])).nextByte (by simp) hrun hnow⟩

/-- A header and the sync byte bring the `RECEIVE` to its length byte (R213, R214). -/
theorem receive_headerAndSync (cap : BitVec 9) (hfree : rxFree s = true)
    (hrs : ReadsAs rs (headerPattern ++ syncPattern)) (hcalls : s.env.calls = answersOf rs ++ as) :
    ∃ τ u, AwaitsByte s cap as (.reading cap .readingLength 0 []) [] τ u := by
  obtain ⟨zs, ys, rfl, hzs, hys⟩ := readsAs_append_iff.1 hrs
  rw [answersOf_append, List.append_assoc] at hcalls
  obtain ⟨_, u, hu⟩ := receive_headerAtOnce cap hfree hzs hcalls
  exact ⟨_, hu.sync hys⟩

/-- A length byte above 0 that fits the capacity brings the `RECEIVE` to its payload (R216, R217). -/
theorem AwaitsByte.length {n₀ : Byte}
    (h : AwaitsByte s cap (answersOf rs ++ as) (.reading cap .readingLength n₀ []) [] τ u)
    (hrs : ReadsAs rs (byteBits n)) (hcap : n.toNat ≤ cap.toNat) (hn : n ≠ 0) :
    ∃ u, AwaitsByte s cap as (.reading cap .readingPayload n []) [] (τ + timeOf rs) u := by
  obtain ⟨v, hrun, hv, hnow⟩ := h.byteRead hrs
  rw [recvByte_length hv.state (by rw [hv.md]; exact hcap) hn, hv.md] at hrun
  exact ⟨_, (hv.setMd (.reading cap .readingPayload n [])).nextByte (by simp) hrun hnow⟩

/-! ### The payload -/

theorem Memory.writeList_concat (m : Memory) (a : Nat) (q : List Byte) (b : Byte) :
    Memory.writeList m a (q ++ [b]) = Memory.write (Memory.writeList m a q) (a + q.length) b := by
  induction q generalizing m a with
  | nil => rfl
  | cons c q ih =>
    rw [List.cons_append, Memory.writeList, ih, List.length_cons, Nat.add_assoc, Nat.add_comm 1]
    rfl

/-- A payload byte for which there is room is stored after the others (R218). -/
theorem Receiving.stores (h : Receiving s (.reading cap .readingPayload n q) q .idle v) (b : Byte)
    (hq : q.length < n.toNat) (hcap : n.toNat ≤ cap.toNat) :
    ∃ w, storePayload b v = .next w ∧
      Receiving s (.reading cap .readingPayload n (q ++ [b])) (q ++ [b]) .idle w ∧ w.rxLog.now = v.rxLog.now := by
  have hidx : v.md.idx.toNat = q.length := by
    rw [h.md, Md.reading_idx_toNat _ _ _ (hq.trans n.isLt)]
  have hroom : v.md.idx.toNat < v.md.cap.toNat := by
    rw [hidx, h.md]
    exact hq.trans_le hcap
  refine ⟨_, storePayload_inside b v hroom, ⟨h.call, h.phase, ?_, ?_, by simp, h.env⟩, rfl⟩
  · show { v.md with idx := v.md.idx + 1 } = _
    rw [h.md, Md.reading, Md.reading, List.length_append, BitVec.ofNat_add]
    rfl
  · show Memory.write v.rxbuf v.md.idx.toNat b = _
    rw [h.rxbuf, hidx, Memory.writeList_concat, Nat.zero_add]

/-- A payload byte is read and stored; then the next one begins, or the `RECEIVE` ends with the length (R218, R219). -/
theorem AwaitsByte.payloadByte
    (h : AwaitsByte s cap (answersOf rs ++ as) (.reading cap .readingPayload n q) q τ u) {b : Byte}
    (hrs : ReadsAs rs (byteBits b)) (hq : q.length < n.toNat) (hcap : n.toNat ≤ cap.toNat) :
    ∃ w, Receiving s (.reading cap .readingPayload n (q ++ [b])) (q ++ [b]) .idle w ∧
      w.rxLog.now = s.rxLog.now + (τ + timeOf rs) ∧
      exec (.receive cap) s =
        runCalls as (if q.length + 1 < n.toNat then beginByte w else endReceive (.some n) w) := by
  obtain ⟨v, hrun, hv, hnow⟩ := h.byteRead hrs
  obtain ⟨w, hstore, hw, hnow'⟩ := hv.stores b hq hcap
  have hmore : w.md.idx < w.md.len ↔ q.length + 1 < n.toNat := by
    have hlt : (q ++ [b]).length < 256 := by rw [List.length_append]; exact Nat.lt_of_le_of_lt hq n.isLt
    rw [hw.md, BitVec.lt_def, Md.reading_idx_toNat _ _ _ hlt, List.length_append]
    rfl
  refine ⟨w, hw, hnow'.trans hnow, ?_⟩
  rw [recvByte_payload hv.state, hstore, andThen_next] at hrun
  simp only [hmore] at hrun
  rw [hrun, hw.md]
  split_ifs <;> rfl

/-- Payload bytes short of the length leave the `RECEIVE` before the next one, by induction on them (R218). -/
theorem AwaitsByte.payload (cs : List Byte)
    (h : AwaitsByte s cap (answersOf rs ++ as) (.reading cap .readingPayload n q) q τ u)
    (hrs : ReadsAs rs (cs.flatMap byteBits)) (hq : q.length + cs.length < n.toNat) (hcap : n.toNat ≤ cap.toNat) :
    ∃ v, AwaitsByte s cap as (.reading cap .readingPayload n (q ++ cs)) (q ++ cs) (τ + timeOf rs) v := by
  induction cs generalizing rs q τ u with
  | nil =>
    obtain rfl := readsAs_nil_iff.1 hrs
    rw [List.append_nil]
    exact ⟨u, h⟩
  | cons b cs ih =>
    rw [List.flatMap_cons] at hrs
    obtain ⟨qs, ts, rfl, hqs, hts⟩ := readsAs_append_iff.1 hrs
    rw [List.length_cons] at hq
    rw [answersOf_append, List.append_assoc] at h
    obtain ⟨w, hw, hnow, hrun⟩ := h.payloadByte hqs (by omega) hcap
    rw [if_pos (by omega)] at hrun
    obtain ⟨v, hv⟩ := ih (hw.nextByte (by simp) hrun hnow) hts (by simp; omega)
    rw [List.append_assoc, List.singleton_append] at hv
    exact ⟨v, by rwa [timeOf_append, ← Nat.add_assoc]⟩

/-- The last payload byte ends the `RECEIVE` with the length (R219). -/
theorem AwaitsByte.lastByte
    (h : AwaitsByte s cap (answersOf rs ++ rest) (.reading cap .readingPayload n q) q τ u) {b : Byte}
    (hrs : ReadsAs rs (byteBits b)) (hq : q.length + 1 = n.toNat) (hcap : n.toNat ≤ cap.toNat) :
    ∃ t, ReceiveEnded s cap rest (.ended (.some n) (.reading cap .readingPayload n (q ++ [b]))) (q ++ [b]) t ∧
      t.rxLog.now = s.rxLog.now + (τ + timeOf rs) := by
  obtain ⟨w, hw, hnow, hrun⟩ := h.payloadByte hrs (by omega) hcap
  rw [if_neg (by omega)] at hrun
  obtain ⟨t, ht, -, hlog⟩ := hw.ends hrun
  exact ⟨t, ht, by rw [hlog, hnow]⟩

/-- The length 0 ends the `RECEIVE` with it at once (R217, R219). -/
theorem AwaitsByte.lengthZero {n₀ : Byte}
    (h : AwaitsByte s cap (answersOf rs ++ rest) (.reading cap .readingLength n₀ []) [] τ u)
    (hrs : ReadsAs rs (byteBits 0)) :
    ∃ t, ReceiveEnded s cap rest (.ended (.some 0) (.reading cap .readingLength 0 [])) [] t ∧
      t.rxLog.now = s.rxLog.now + (τ + timeOf rs) := by
  obtain ⟨v, hrun, hv, hnow⟩ := h.byteRead hrs
  rw [recvByte_lengthZero hv.state, hv.md] at hrun
  obtain ⟨t, ht, -, hlog⟩ := (hv.setMd (.reading cap .readingLength 0 [])).ends hrun
  exact ⟨t, ht, by rw [hlog]; exact hnow⟩

/-- The length byte and the payload of that length end the `RECEIVE` with the payload in the buffer (R216 to R219). -/
theorem AwaitsByte.lengthAndPayload {n₀ : Byte} (p : List Byte)
    (h : AwaitsByte s cap (answersOf rs ++ rest) (.reading cap .readingLength n₀ []) [] τ u)
    (hrs : ReadsAs rs (byteBits n ++ p.flatMap byteBits)) (hn : n.toNat = p.length) (hcap : n.toNat ≤ cap.toNat) :
    ∃ t st, ReceiveEnded s cap rest (.ended (.some n) (.reading cap st n p)) p t ∧
      t.rxLog.now = s.rxLog.now + (τ + timeOf rs) := by
  obtain ⟨qs, ts, rfl, hqs, hts⟩ := readsAs_append_iff.1 hrs
  rw [answersOf_append, List.append_assoc] at h
  obtain rfl | ⟨cs, b, rfl⟩ := List.eq_nil_or_concat' p
  · obtain rfl : n = 0 := BitVec.eq_of_toNat_eq hn
    obtain rfl := readsAs_nil_iff.1 hts
    obtain ⟨t, ht⟩ := h.lengthZero hqs
    exact ⟨t, _, by rwa [List.append_nil]⟩
  · rw [List.flatMap_append, List.flatMap_singleton] at hts
    rw [List.length_append, List.length_singleton] at hn
    obtain ⟨us, ws, rfl, hus, hws⟩ := readsAs_append_iff.1 hts
    rw [answersOf_append, List.append_assoc] at h
    obtain ⟨v, hv⟩ := h.length hqs hcap (by rintro rfl; simp at hn)
    obtain ⟨w, hw⟩ := hv.payload cs hus (by simp; omega) hcap
    obtain ⟨t, ht, hnow⟩ := hw.lastByte hws (by simp; omega) hcap
    exact ⟨t, _, ht, by rw [hnow, timeOf_append, timeOf_append, Nat.add_assoc, Nat.add_assoc]⟩

end

/-! ### The statements -/

/-- Settles O31: an accepted `RECEIVE` without an answer waits in phase 1. -/
theorem receiveAcceptance : Obligations.ReceiveAcceptance := by
  intro s cap hfree hcalls
  rw [exec_receive cap hfree hcalls, runCalls, ← show (acceptReceive cap s).env.calls = [] from hcalls]
  rfl

/-- Settles O33: the byte after the header is handed over, and it is not the sync byte. -/
theorem wrongSyncGivesNoFrame : Obligations.WrongSyncGivesNoFrame := by
  intro s cap rs b rest hfree hb hrs hcalls
  obtain ⟨zs, ys, rfl, hzs, hys⟩ := readsAs_append_iff.1 hrs
  rw [answersOf_append, List.append_assoc] at hcalls
  obtain ⟨_, u, hu⟩ := receive_headerAtOnce cap hfree hzs hcalls
  obtain ⟨v, hrun, hv, -⟩ := hu.byteRead hys
  rw [recvByte_wrongSync hv.state hb] at hrun
  obtain ⟨t, ht, -⟩ := hv.ends hrun
  exact ⟨t, ht.run, ht.md, ht.call, ht.phase, ht.rxDone, ht.rxbuf, ht.env, ht.sameTx⟩

/-- Settles O34: the length byte is handed over, and there is no room for it. -/
theorem oversizeLengthGivesNoFrame : Obligations.OversizeLengthGivesNoFrame := by
  intro s cap rs n rest hfree hcap hrs hcalls
  obtain ⟨hs, ls, rfl, hhs, hls⟩ := readsAs_append_iff.1 hrs
  rw [answersOf_append, List.append_assoc] at hcalls
  obtain ⟨_, u, hu⟩ := receive_headerAndSync cap hfree hhs hcalls
  obtain ⟨v, hrun, hv, -⟩ := hu.byteRead hls
  rw [recvByte_tooLong hv.state (by rw [hv.md]; exact hcap), hv.md] at hrun
  obtain ⟨t, ht, -⟩ := (hv.setMd (.reading cap .readingLength n [])).ends hrun
  exact ⟨t, ht.run, ht.md, ht.call, ht.phase, ht.rxDone, ht.rxbuf, ht.env, ht.sameTx⟩

/-- Settles O35: the `RECEIVE` waits for its sync byte or for its length byte, and the invalid bit ends it. -/
theorem corruptSyncOrLengthBitGivesNoFrame : Obligations.CorruptSyncOrLengthBitGivesNoFrame := by
  intro s cap rs bs bad rest hfree hlen hbad hnone hrs hcalls
  obtain ⟨hs, ys, st, τ, u, rfl, hys, hu⟩ : ∃ hs ys st τ u, rs = hs ++ ys ∧ ReadsAs ys bs ∧
      AwaitsByte s cap (answersOf (ys ++ [bad]) ++ rest) (.reading cap st 0 []) [] τ u := by
    rcases hrs with hrs | hrs <;>
      (obtain ⟨hs, ys, rfl, hhs, hys⟩ := readsAs_append_iff.1 hrs
       rw [List.append_assoc, answersOf_append, List.append_assoc] at hcalls)
    · obtain ⟨τ, u, hu⟩ := receive_headerAtOnce cap hfree hhs hcalls
      exact ⟨hs, ys, _, τ, u, rfl, hys, hu⟩
    · obtain ⟨τ, u, hu⟩ := receive_headerAndSync cap hfree hhs hcalls
      exact ⟨hs, ys, _, τ, u, rfl, hys, hu⟩
  obtain ⟨t, ht, hbits⟩ := hu.fails hys hlen hbad hnone
  exact ⟨t, ht.run, ht.md, hbits, ht.call, ht.phase, ht.rxDone, ht.rxWrite rfl, ht.rxbuf, ht.env, ht.sameTx⟩

/-- Settles O36: the payload bytes before the invalid bit are stored, and it ends the `RECEIVE`. -/
theorem corruptPayloadBitGivesNoFrame : Obligations.CorruptPayloadBitGivesNoFrame := by
  intro s cap rs n q bs bad rest hfree hcap hq hlen hrs hbad hnone hcalls
  obtain ⟨_, ys, rfl, hrs, hys⟩ := readsAs_append_iff.1 hrs
  obtain ⟨_, qs, rfl, hrs, hqs⟩ := readsAs_append_iff.1 hrs
  obtain ⟨hs, ls, rfl, hhs, hls⟩ := readsAs_append_iff.1 hrs
  rw [List.append_assoc, answersOf_append, answersOf_append, answersOf_append, List.append_assoc, List.append_assoc,
    List.append_assoc] at hcalls
  obtain ⟨_, u, hu⟩ := receive_headerAndSync cap hfree hhs hcalls
  obtain ⟨v, hv⟩ := hu.length hls hcap (by rintro rfl; simp at hq)
  obtain ⟨w, hw⟩ := hv.payload q hqs (by simpa using hq) hcap
  rw [List.nil_append] at hw
  obtain ⟨t, ht, -⟩ := hw.fails hys hlen hbad hnone
  refine ⟨t, ht.run, congrArg Md.result ht.md, congrArg Md.busy ht.md, congrArg Md.state ht.md,
    congrArg Md.len ht.md, ?_, ht.call, ht.phase, ht.rxDone, ht.rxbuf, ht.env, ht.sameTx⟩
  rw [ht.md]
  exact Md.reading_idx_toNat cap .readingPayload n (hq.trans n.isLt)

/-- Settles O32: the noise does not end the search, the header does; sync byte, length and payload follow. -/
theorem receiveReturnsThePayload : Obligations.ReceiveReturnsThePayload := by
  intro s cap p ns rs rest hfree hp hcap hpos hkeeps hrun hrs hcalls
  have hn : (BitVec.ofNat 8 p.length).toNat = p.length :=
    (BitVec.toNat_ofNat ..).trans (Nat.mod_eq_of_lt (Nat.lt_succ_of_le hp))
  rw [encodeBits, List.append_assoc, List.append_assoc] at hrs
  obtain ⟨zs, _, rfl, hzs, hrs⟩ := readsAs_append_iff.1 hrs
  obtain ⟨ys, ls, rfl, hys, hls⟩ := readsAs_append_iff.1 hrs
  rw [answersOf_append, answersOf_append, answersOf_append, List.append_assoc, List.append_assoc, List.append_assoc]
    at hcalls
  obtain ⟨u, hu⟩ := receive_findsHeader cap hfree hpos hkeeps hrun hzs hcalls
  obtain ⟨v, hv⟩ := hu.sync hys
  obtain ⟨t, st, ht, hnow⟩ := hv.lengthAndPayload p hls hn (hn.trans_le hcap)
  refine ⟨t, ht.run, congrArg Md.result ht.md, congrArg Md.busy ht.md, congrArg Md.state ht.md,
    congrArg Md.cap ht.md, ht.call, ht.phase, ht.rxDone, ht.rxbuf, fun j hj => ?_, fun a ha => ?_, ?_, ht.env,
    ht.sameTx⟩
  · rw [ht.rxbuf, ← Memory.read_writeList s.rxbuf 0 j p hj, Nat.zero_add]
  · rw [ht.rxbuf, Memory.read_writeList_other _ _ _ _ (.inr (by omega))]
  · rw [hnow]
    simp only [timeOf_append, Nat.add_assoc]

end Sys2Proof.Machine
end

section
/-! SUPPORT. A `RECEIVE` stays inside its capacity whatever the pin calls answer; its acceptance tick, and a tick in
which both sides are idle; then O37, O43 and O48. -/

namespace Sys2Proof.Machine

/-! ### The capacity (R226) -/

/-- From `s` to `t` the capacity has stayed, and nothing at or above it has been written (R61, R63). -/
structure StaysInside (s t : State) : Prop where
  cap   : t.md.cap = s.md.cap
  above : ∀ a, s.md.cap.toNat ≤ a → Memory.read t.rxbuf a = Memory.read s.rxbuf a

theorem StaysInside.of_eq {s t : State} (hcap : t.md.cap = s.md.cap) (hbuf : t.rxbuf = s.rxbuf) : StaysInside s t :=
  ⟨hcap, fun _ _ => by rw [hbuf]⟩

theorem StaysInside.trans {s t u : State} (h : StaysInside s t) (h' : StaysInside t u) : StaysInside s u :=
  ⟨h'.cap.trans h.cap, fun a ha => (h'.above a (by rwa [h.cap])).trans (h.above a ha)⟩

/-- Updates before that touch neither the capacity nor the buffer do not matter. -/
theorem StaysInside.congr {s t u : State} (h : StaysInside u t) (hcap : u.md.cap = s.md.cap)
    (hbuf : u.rxbuf = s.rxbuf) : StaysInside s t :=
  (StaysInside.of_eq hcap hbuf).trans h

/-- The one write of the receive chain is below the capacity (R63, R66). -/
theorem storePayload_staysInside {b : Byte} {s t : State} (ht : storePayload b s = .next t) : StaysInside s t := by
  obtain ⟨hroom, rfl⟩ := storePayload_next ht
  exact ⟨rfl, fun a ha => Memory.read_write_other _ _ (by omega)⟩

theorem recvByte_staysInside {r : Option Byte} {s t : State} (ht : recvByte r s = .next t) : StaysInside s t := by
  cases r with
  | none => cases ht; exact .of_eq rfl rfl
  | some b =>
    simp only [recvByte] at ht
    split at ht
    · split_ifs at ht <;> cases ht <;> exact .of_eq rfl rfl
    · split_ifs at ht <;> cases ht <;> exact .of_eq rfl rfl
    · obtain ⟨u, hu, ht⟩ := andThen_eq_next.1 ht
      refine (storePayload_staysInside hu).trans ?_
      split_ifs at ht <;> cases ht <;> exact .of_eq rfl rfl
    all_goals cases ht; exact .of_eq rfl rfl

theorem byteDone_staysInside {r : Option Byte} {s t : State} (ht : byteDone r s = .next t) : StaysInside s t := by
  simp only [byteDone] at ht
  split at ht
  · exact (recvByte_staysInside ht).congr rfl rfl
  · cases ht; exact .of_eq rfl rfl

theorem byteBit_staysInside {r : Option Bool} {s t : State} (ht : byteBit r s = .next t) : StaysInside s t := by
  cases r with
  | none => exact byteDone_staysInside ht
  | some v =>
    simp only [byteBit] at ht
    split at ht
    · cases ht; exact .of_eq rfl rfl
    · exact (byteDone_staysInside ht).congr rfl rfl

@[simp] theorem seekDone_md_cap (s : State) : (seekDone s).md.cap = s.md.cap := by
  unfold seekDone
  split <;> rfl

theorem seekBit_staysInside {r : Option Bool} {s t : State} (ht : seekBit r s = .next t) : StaysInside s t := by
  simp only [seekBit] at ht
  generalize (if r = some false then s.bfa.zeroRun + 1 else 0) = z at ht
  split at ht <;> cases ht
  · exact .of_eq rfl rfl
  · exact .of_eq (seekDone_md_cap _) (seekDone_rxbuf _)

theorem bitDone_staysInside {r : Option Bool} {s t : State} (ht : bitDone r s = .next t) : StaysInside s t := by
  refine .trans (t := { s with handed := { s.handed with bit := some r } }) (.of_eq rfl rfl) ?_
  simp only [bitDone] at ht
  split at ht
  · cases ht; exact .of_eq rfl rfl
  · exact seekBit_staysInside ht
  · exact byteBit_staysInside ht
  · split at ht
    · exact seekBit_staysInside ht
    · exact byteBit_staysInside ht
  · cases ht; exact .of_eq rfl rfl
  · cases ht; exact .of_eq rfl rfl

theorem measDone_staysInside {m : Meas} {s t : State} (ht : measDone m s = .next t) : StaysInside s t := by
  simp only [measDone] at ht
  split at ht
  · cases ht; exact .of_eq rfl rfl
  · cases ht; exact .of_eq rfl rfl
  · exact (bitDone_staysInside ht).congr (by simp) (by simp)

theorem pinCall_staysInside {a : PinAnswer} {s t : State} (ht : pinCall a s = .next t) : StaysInside s t := by
  simp only [pinCall] at ht
  split at ht
  · cases ht; exact .of_eq rfl rfl
  · split at ht
    · exact (measDone_staysInside ht).congr rfl rfl
    · cases ht; exact .of_eq rfl rfl
    · cases ht; exact .of_eq rfl rfl
  · split at ht
    · exact (measDone_staysInside ht).congr rfl rfl
    · exact (measDone_staysInside ht).congr rfl rfl
    · split at ht
      · exact (measDone_staysInside ht).congr rfl rfl
      · cases ht; exact .of_eq rfl rfl

/-- Whatever the pin calls answer, by induction on the answers. -/
theorem runCalls_staysInside (as : List PinAnswer) {s t : State} (ht : runCalls as s = .next t) : StaysInside s t := by
  induction as generalizing s with
  | nil => cases ht; exact .of_eq rfl rfl
  | cons a as ih =>
    simp only [runCalls] at ht
    split at ht
    · cases ht; exact .of_eq rfl rfl
    · obtain ⟨u, hu, ht⟩ := andThen_eq_next.1 ht
      exact (pinCall_staysInside hu).trans (ih ht)

/-- Settles O37: the run stays inside the capacity of its acceptance, and by the invariant so does the length. -/
theorem receiveStaysInsideTheBuffer : Obligations.ReceiveStaysInsideTheBuffer := by
  intro s t cap hi hfree ht
  obtain ⟨hcap, habove⟩ := runCalls_staysInside _ ((exec_receive cap hfree rfl).symm.trans ht)
  refine ⟨habove, fun n hn => ?_⟩
  obtain ⟨-, hle⟩ := (exec_inv hi ht).md_some n hn
  rwa [hcap] at hle

/-! ### A tick of an idle encoder -/

/-- A tick in which the encoder rests is the receiver's alone, after the host's stores (R304). -/
theorem tickWith_txRests {h : HostIn} (pin : State → PinSample) {s : State} (hr : h.rst = false)
    (hs : h.txStart = false) (hb : s.tx.busy = false) :
    tickWith h pin s =
      andThen (rxTick h (pin (hostStore h (clearOut s))) (hostStore h (clearOut s))) fun u => .next (passTick u) := by
  have hrests : txTick h (hostStore h (clearOut s)) = hostStore h (clearOut s) := txTick_rests (by simpa using hb) hs
  simp [tickWith, hr, hrests]

theorem rxTick_accepts {h : HostIn} (p : PinSample) {s : State} (hs : h.rxStart = true) (hfree : rxFree s = true) :
    rxTick h p s = phase1Read p (acceptReceive h.rxCapIn s) := by
  simp [rxTick, hs, hfree]

/-- A low read of phase 1 only goes into the trace (R161, R172). -/
theorem phase1Read_low (s : State) : phase1Read ⟨.lo, none⟩ s = .next (logRx (.pinIsLow (.ok true)) s) := rfl

/-- Settles O43: the encoder rests, and the accepted `RECEIVE` makes one low read. -/
theorem acceptanceTickOfReceive : Obligations.AcceptanceTickOfReceive := by
  intro s h pin hr htx hrx hb hfree hpin
  have hfree' : rxFree (hostStore h (clearOut s)) = true := by simpa [rxFree] using hfree
  rw [tickWith_txRests pin hr htx hb, hpin, rxTick_accepts _ hrx hfree', phase1Read_low, andThen_next,
    hostStore_idle h (s := clearOut s) hb]
  rfl

/-- Settles O48: neither side does anything in a tick without signals. -/
theorem idleSidesIgnoreTheLine : Obligations.IdleSidesIgnoreTheLine := by
  intro s pin hb hc
  rw [tickWith_rxIdle quiet pin s rfl rfl hc, hostStore_empty rfl, txTick_rests (s := clearOut s) hb rfl]
  rfl

end Sys2Proof.Machine
end

section
/-! SUPPORT. The receiver taken out of the machine, and its half of a tick run on the receiver alone; then O52. -/

namespace Sys2Proof.Machine

/-! ### The receiver alone (R20, R248) -/

/-- The receiver of `s` in a machine whose every other part is as after reset: its registers, memory, trace and outputs,
and the values handed between its blocks. -/
def receiverOf (s : State) : State :=
  { State.reset with
    pwc := s.pwc
    bfa := s.bfa
    md := s.md
    call := s.call
    rxbuf := s.rxbuf
    rxLog := s.rxLog
    handed := { s.handed with send := none }
    out := { State.reset.out with rxDone := s.out.rxDone, rxWrite := s.out.rxWrite } }

@[simp] theorem receiverOf_pwc (s : State) : (receiverOf s).pwc = s.pwc := rfl
@[simp] theorem receiverOf_md (s : State) : (receiverOf s).md = s.md := rfl
@[simp] theorem receiverOf_call (s : State) : (receiverOf s).call = s.call := rfl
@[simp] theorem rxFree_receiverOf (s : State) : rxFree (receiverOf s) = rxFree s := rfl

/-- Two machines with the same receiver, field by field. -/
theorem receiverOf_eq_iff {s t : State} : receiverOf s = receiverOf t ↔
    s.pwc = t.pwc ∧ s.bfa = t.bfa ∧ s.md = t.md ∧ s.call = t.call ∧ s.rxbuf = t.rxbuf ∧ s.rxLog = t.rxLog ∧
      { s.handed with send := none } = { t.handed with send := none } ∧ s.out.rxDone = t.out.rxDone ∧
      s.out.rxWrite = t.out.rxWrite := by
  simp only [receiverOf, State.mk.injEq, Out.mk.injEq, true_and, and_true]
  tauto

/-- An operation that leaves the receiver alone ends with the receiver it found. -/
theorem SameRx.receiverOf_eq {s t : State} (h : SameRx s t) : receiverOf t = receiverOf s := by
  obtain ⟨hpwc, hbfa, hmd, hcall, hbuf, hlog, -, hhanded, hdone, hwrite, -⟩ := h
  refine receiverOf_eq_iff.2 ⟨hpwc, hbfa, hmd, hcall, hbuf, hlog, ?_, hdone, hwrite⟩
  rw [← hhanded]

/-- A result, with the receiver alone in its next state. -/
def receiverResult (o : Result) : Result := andThen o fun t => .next (receiverOf t)

@[simp] theorem receiverResult_next (t : State) : receiverResult (.next t) = .next (receiverOf t) := rfl

theorem receiverResult_andThen (o : Result) (f : State → Result) :
    receiverResult (andThen o f) = andThen o fun u => receiverResult (f u) := by
  cases o <;> rfl

theorem andThen_receiverResult (o : Result) (f : State → Result) :
    andThen (receiverResult o) f = andThen o fun u => f (receiverOf u) := by
  cases o <;> rfl

/-- An operation of the receiver: run on the receiver alone, it does to it what it does in the whole machine. -/
def ReceiverOnly (f : State → Result) : Prop := ∀ s, f (receiverOf s) = receiverResult (f s)

theorem ReceiverOnly.andThen {f g : State → Result} (hf : ReceiverOnly f) (hg : ReceiverOnly g) :
    ReceiverOnly fun s => andThen (f s) g := by
  intro s
  simp only [hf s, andThen_receiverResult, receiverResult_andThen, hg _]

/-! ### The chain of hand-overs (R227) -/

theorem storePayload_receiverOnly (b : Byte) : ReceiverOnly (storePayload b) := by
  intro s
  by_cases hfull : s.md.cap.toNat ≤ s.md.idx.toNat
  · rw [storePayload, storePayload, if_pos hfull]
    exact if_pos hfull
  · rw [storePayload_inside b s (not_le.1 hfull), storePayload_inside b (receiverOf s) (not_le.1 hfull)]
    rfl

/-- After the store of a payload byte the `RECEIVE` reads the next byte or ends (R218, R219). -/
theorem recvByte_receiverOnly (r : Option Byte) : ReceiverOnly (recvByte r) := by
  intro s
  cases r with
  | none => rfl
  | some b =>
    cases hs : s.md.state <;> simp only [recvByte, receiverOf_md, hs, apply_ite receiverResult]
    case readingPayload =>
      refine (storePayload_receiverOnly b).andThen (fun u => ?_) s
      rw [apply_ite receiverResult]
      rfl
    all_goals rfl

theorem byteDone_receiverOnly (r : Option Byte) : ReceiverOnly (byteDone r) := by
  intro s
  cases hc : s.call <;> simp only [byteDone, receiverOf_call, hc]
  case receive => rw [← recvByte_receiverOnly]; rfl
  all_goals rfl

theorem byteBit_receiverOnly (r : Option Bool) : ReceiverOnly (byteBit r) := by
  intro s
  cases r with
  | none => exact byteDone_receiverOnly none s
  | some v =>
    simp only [byteBit, apply_ite receiverResult]
    rw [← byteDone_receiverOnly]
    rfl

theorem seekDone_receiverOf (s : State) : seekDone (receiverOf s) = receiverOf (seekDone s) := by
  cases hc : s.call <;> simp only [seekDone, receiverOf_call, hc] <;> rfl

theorem seekBit_receiverOnly (r : Option Bool) : ReceiverOnly (seekBit r) := by
  intro s
  simp only [seekBit, apply_ite receiverResult, receiverResult_next, ← seekDone_receiverOf]
  rfl

theorem bitDone_receiverOnly (r : Option Bool) : ReceiverOnly (bitDone r) := by
  intro s
  cases hc : s.call <;> simp only [bitDone, receiverOf_call, hc]
  case seekHeader => rw [← seekBit_receiverOnly]; rfl
  case readByte => rw [← byteBit_receiverOnly]; rfl
  case receive => rw [apply_ite receiverResult, ← seekBit_receiverOnly, ← byteBit_receiverOnly]; rfl
  all_goals rfl

theorem handCls_receiverOf (m : Meas) (s : State) : handCls m (receiverOf s) = receiverOf (handCls m s) := by
  cases m <;> rfl

theorem measDone_receiverOnly (m : Meas) : ReceiverOnly (measDone m) := by
  intro s
  cases hc : s.call <;> simp only [measDone, receiverOf_call, hc]
  case none | measurePulse => rfl
  all_goals rw [← bitDone_receiverOnly, ← handCls_receiverOf]; rfl

/-! ### The receiver's half of a tick (R172, R174) -/

theorem phase1Read_receiverOnly (p : PinSample) : ReceiverOnly (phase1Read p) := by
  intro s
  obtain ⟨l, _ | e⟩ := p
  · cases l <;> rfl
  · exact measDone_receiverOnly (.err e) (logRx (.pinIsLow (.err e)) s)

theorem phase2Read_receiverOnly (p : PinSample) : ReceiverOnly (phase2Read p) := by
  intro s
  obtain ⟨l, _ | e⟩ := p
  · cases l with
    | lo => exact measDone_receiverOnly (.ok s.pwc.dur) (logRx (.pinIsHigh (.ok false)) s)
    | hi => rfl
  · exact measDone_receiverOnly (.err e) (logRx (.pinIsHigh (.err e)) s)

theorem readAgain_receiverOnly (p : PinSample) : ReceiverOnly (readAgain p) := by
  intro s
  rw [readAgain, readAgain, apply_ite receiverResult, ← phase1Read_receiverOnly]
  rfl

theorem countTick_receiverOnly (p : PinSample) : ReceiverOnly (countTick p) := by
  intro s
  have hread := (phase2Read_receiverOnly p).andThen (readAgain_receiverOnly p)
  have hend (m : Meas) := (measDone_receiverOnly m).andThen (readAgain_receiverOnly p)
  simp only [countTick, apply_ite receiverResult, ← hread _, ← hend _ _]
  rfl

theorem rxTick_receiverOnly (h : HostIn) (p : PinSample) : ReceiverOnly (rxTick h p) := by
  intro s
  cases hp : s.pwc.phase <;> simp only [rxTick, receiverOf_pwc, hp, apply_ite receiverResult,
    ← phase1Read_receiverOnly p _, ← countTick_receiverOnly p _] <;> rfl

/-! ### The tick -/

/-- What a tick in which the pin shows `p` makes of the receiver, after the encoder's half; a reset included (R172, R280). -/
def receiverTick (h : HostIn) (p : PinSample) (s : State) : Result :=
  receiverResult (if h.rst then .next (passTick (resetRegs s)) else andThen (rxTick h p s) fun u => .next (passTick u))

theorem receiverTick_receiverOf (h : HostIn) (p : PinSample) (s : State) :
    receiverTick h p (receiverOf s) = receiverTick h p s := by
  simp only [receiverTick, apply_ite receiverResult, rxTick_receiverOnly h p s, andThen_receiverResult,
    receiverResult_andThen]
  rfl

/-- The encoder's half of a tick comes first and leaves the receiver alone (R248, R304). -/
theorem tickWith_receiver_eq (h : HostIn) (p : PinSample) (s : State) :
    receiverResult (tickWith h (fun _ => p) s) = receiverTick h p (receiverOf (clearOut s)) := by
  cases hr : h.rst with
  | true =>
    rw [receiverTick_receiverOf, tickWith_reset h _ s hr, receiverTick, if_pos hr]
    exact congrArg Host.Outcome.next (receiverOf_eq_iff.2 (by simp [passTick]))
  | false =>
    rw [← (txTick_hostStore_sameRx h s).receiverOf_eq, receiverTick_receiverOf]
    simp [tickWith, receiverTick, hr]

/-- Settles O52: the tick ends with a receiver that its own part of the tick makes out of the receiver alone. -/
theorem receiverIgnoresTheEncoder : Obligations.ReceiverIgnoresTheEncoder := by
  intro s₁ s₂ t₁ t₂ h p hpwc hbfa hmd hcall hbuf hlog hhanded ht₁ ht₂
  have hsame : receiverOf (clearOut s₁) = receiverOf (clearOut s₂) :=
    receiverOf_eq_iff.2 ⟨hpwc, hbfa, hmd, hcall, hbuf, hlog, hhanded, rfl, rfl⟩
  have hend : receiverResult (tickWith h (fun _ => p) s₁) = receiverResult (tickWith h (fun _ => p) s₂) := by
    rw [tickWith_receiver_eq, tickWith_receiver_eq, hsame]
  rw [ht₁, ht₂] at hend
  exact receiverOf_eq_iff.1 (by simpa using hend)

end Sys2Proof.Machine
end

section
/-! SUPPORT. The line against `line(t)` of the transmit trace: each call of the encoder is one more event, and every step is
made of such calls; then O56 and O40. -/

namespace Sys2Proof.Machine

/-! ### One more event -/

/-- The line and its trace are not touched. -/
theorem LineTracked.congr {s t : State} (h : LineTracked s) (hline : t.line = s.line) (hlog : t.txLog = s.txLog)
    (hcalls : t.env.drvCalls = s.env.drvCalls) : LineTracked t :=
  ⟨by rw [hlog]; exact h.stamps, by rw [hcalls, hlog]; exact h.calls, by rw [hline, hlog]; exact h.level⟩

/-- The receiver does not touch the line (R248). -/
theorem LineTracked.of_sameTx {s t : State} (h : LineTracked s) (hs : SameTx s t) : LineTracked t := by
  obtain ⟨-, hline, -, hlog, -, -, -, -, henv⟩ := hs
  exact h.congr hline hlog (by rw [← henv])

/-- An event is put into the trace and the level follows it, at a time from which the local time goes on. -/
theorem LineTracked.event {s t : State} (h : LineTracked s) (ev : TxEvent)
    (htrace : t.txLog.trace = s.txLog.trace ++ [(s.txLog.now, ev)]) (hnow : s.txLog.now ≤ t.txLog.now)
    (hcalls : t.env.drvCalls = s.env.drvCalls + if ev.isDrive then 1 else 0)
    (hline : t.line = (lineStep s.txLog.now (s.line, s.env.drvCalls) (s.txLog.now, ev)).1) : LineTracked t := by
  have hstamps : ∀ p ∈ t.txLog.trace, p.1 ≤ s.txLog.now := by
    rw [htrace, List.forall_mem_append]
    exact ⟨h.stamps, by simp⟩
  refine ⟨fun p hp => (hstamps p hp).trans hnow, ?_, ?_⟩
  · rw [hcalls, htrace, List.countP_append, List.countP_singleton, h.calls]
  · rw [lineAt_later 0 _ _ _ hstamps hnow, htrace, lineAt_append_one, Nat.zero_add, ← h.calls, ← h.level, hline]

/-- Time passes. -/
theorem LineTracked.passTick {s : State} (h : LineTracked s) : LineTracked (passTick s) :=
  ⟨fun p hp => Nat.le_succ_of_le (h.stamps p hp), h.calls,
    h.level.trans (lineAt_later 0 _ _ _ h.stamps (Nat.le_succ _)).symm⟩

/-- A reset is in the trace, and the line is `L` (R280, R282). -/
theorem LineTracked.resetRegs {s : State} (h : LineTracked s) : LineTracked (resetRegs s) :=
  h.event .reset rfl le_rfl rfl (by simp [State.reset])

/-- A drive call, whatever it answers (R29, R262). -/
theorem LineTracked.drive {s : State} (h : LineTracked s) (l : Level) : LineTracked (drive l s).1 := by
  have hdrive (r : Option DrvErr) : (driveEvent l r).isDrive = true := by cases l <;> rfl
  cases hd : nthDrive s 0 with
  | none =>
    rw [drive_ok l s hd]
    exact h.event (driveEvent l none) rfl le_rfl (by simp [hdrive, envAfterDrives]) (by simp)
  | some e =>
    rw [drive_err l s e hd]
    exact h.event (driveEvent l (some e)) rfl le_rfl (by simp [hdrive, envAfterDrives]) (by simp)

theorem LineTracked.delayTx {s : State} (h : LineTracked s) (n : Nat) : LineTracked (delayTx n s) :=
  h.event (.delay n) rfl (Nat.le_add_right ..) rfl rfl

/-- A frame byte starts: a read of the payload is no drive call. -/
theorem LineTracked.loadByte {s : State} (h : LineTracked s) (k : BitVec 9) : LineTracked (loadByte k s) := by
  rw [loadByte_eq, readEvents]
  split
  · exact h.event (.memRead _ _) rfl le_rfl rfl rfl
  · exact h.congr rfl (by simp) rfl

/-! ### The trace level -/

/-- One call after the other. -/
theorem LineTracked.thenCall {r : State × Option DrvErr} {f : State → State × Option DrvErr} (h : LineTracked r.1)
    (hf : ∀ s, LineTracked s → LineTracked (f s).1) : LineTracked (thenCall r f).1 := by
  obtain ⟨s, _ | e⟩ := r
  · exact hf s h
  · exact h

theorem LineTracked.halfSymbol {s : State} (h : LineTracked s) (l : Level) (n : Nat) :
    LineTracked (halfSymbol l n s).1 :=
  (h.drive l).thenCall fun _ h₁ => h₁.delayTx n

theorem LineTracked.sendBit {s : State} (h : LineTracked s) (b : Bool) : LineTracked (sendBit b s).1 := by
  rw [sendBit_eq]
  exact (h.halfSymbol .hi _).thenCall fun _ h₁ => h₁.halfSymbol .lo _

theorem LineTracked.sendBits {s : State} (h : LineTracked s) (b : Byte) (is : List (BitVec 3)) :
    LineTracked (sendBits b is s).1 := by
  induction is generalizing s with
  | nil => exact h
  | cons i is ih =>
    have hi : LineTracked (setTxI i s) := h.congr rfl rfl rfl
    rw [sendBits_cons]
    exact (hi.sendBit _).thenCall fun _ => ih

theorem LineTracked.sendBytes {s : State} (h : LineTracked s) (ks : List (BitVec 9)) :
    LineTracked (sendBytes ks s).1 := by
  induction ks generalizing s with
  | nil => exact h
  | cons k ks ih =>
    rw [sendBytes_cons]
    exact ((h.loadByte k).sendBits _ bitIndices).thenCall fun _ => ih

/-- Every instruction keeps the line tracked: the transmit operations by their calls; the others do not touch it. -/
theorem exec_lineTracked {i : Instr} {s t : State} (h : LineTracked s) (ht : exec i s = .next t) : LineTracked t := by
  cases i with
  | sym1 | sym0 | byte | header | sync | length | payloadByte => cases ht; exact h.congr rfl rfl rfl
  | frame p =>
    simp only [exec, execFrame] at ht
    split at ht <;> cases ht
    exact h.congr rfl rfl rfl
  | sendBit b =>
    simp only [exec, execSendBit] at ht
    split at ht <;> cases ht
    · exact h
    · exact (h.sendBit b).congr rfl rfl rfl
  | sendByte b =>
    simp only [exec, execSendByte] at ht
    split at ht <;> cases ht
    · exact h
    · exact (h.sendBits b bitIndices).congr rfl rfl rfl
  | send p =>
    simp only [exec, execSend] at ht
    split_ifs at ht <;> cases ht
    · exact h
    · have haccepted : LineTracked (accepted p s) := h.congr rfl rfl rfl
      exact (haccepted.sendBytes (frameIndices _)).congr rfl rfl rfl
  | measurePulse | classify | readBit | readByte | seekHeader | receive | bandNoise | bandDead | bandOne | bandZero
  | bandOver => exact h.of_sameTx (receiveLeavesTheEncoder s t _ (by simp) ht)

/-! ### The tick -/

/-- A drive call in a tick, with the interval it begins or the end it makes. -/
theorem LineTracked.startInterval {s : State} (h : LineTracked s) (l : Level) (p : TxPhase) (n : Nat) :
    LineTracked (startInterval l p n s) := by
  have hdrive := h.drive l
  rw [Machine.startInterval]
  rcases hd : Machine.drive l s with ⟨s₁, _ | e⟩ <;> rw [hd] at hdrive
  · exact hdrive.event (.delay n) rfl le_rfl rfl rfl
  · exact hdrive.congr rfl rfl rfl

theorem LineTracked.startBit {s : State} (h : LineTracked s) : LineTracked (startBit s) := by
  rw [startBit_eq]
  exact h.startInterval ..

theorem LineTracked.startGap {s : State} (h : LineTracked s) : LineTracked (startGap s) := by
  rw [startGap_eq]
  exact h.startInterval ..

theorem LineTracked.bitComplete {s : State} (h : LineTracked s) : LineTracked (bitComplete s) := by
  unfold Machine.bitComplete
  split_ifs
  · have hi : LineTracked (setTxI (s.tx.i + 1) s) := h.congr rfl rfl rfl
    exact hi.startBit
  · exact (h.loadByte _).startBit
  · exact h.congr rfl rfl rfl

/-- The encoder's half of a tick (R140). -/
theorem LineTracked.txTick {s : State} (hl : LineTracked s) (h : HostIn) : LineTracked (txTick h s) := by
  have hdown : LineTracked (countDown s) := hl.congr rfl rfl rfl
  cases hb : s.tx.busy with
  | true =>
    cases hp : s.tx.phase with
    | idle => simpa [Machine.txTick, hb, hp] using hl
    | high => rw [txTick_high hb hp]; split_ifs; exacts [hdown.startGap, hdown]
    | gap => rw [txTick_gap hb hp]; split_ifs; exacts [hdown.bitComplete, hdown]
  | false =>
    cases hs : h.txStart with
    | true =>
      have haccept : LineTracked (acceptSend h.txLenIn s) := hl.congr rfl rfl rfl
      rw [txTick_accepts hb hs]
      exact (haccept.loadByte 0).startBit
    | false => rwa [txTick_rests hb hs]

/-- A tick: a reset, or the encoder's half before the receiver's. -/
theorem tickWith_lineTracked {h : HostIn} {pin : State → PinSample} {s t : State} (hl : LineTracked s)
    (ht : tickWith h pin s = .next t) : LineTracked t := by
  cases hr : h.rst with
  | true =>
    have hstore : LineTracked (hostStore h s) := hl.congr (by simp) (by simp) (by simp)
    rw [tickWith_reset h pin s hr] at ht
    cases ht
    exact hstore.resetRegs.passTick
  | false =>
    have hstore : LineTracked (hostStore h (clearOut s)) := hl.congr (by simp) (by simp) (by simp)
    obtain ⟨u, hu, rfl⟩ := (tickWith_eq_next hr).1 ht
    exact ((hstore.txTick h).of_sameTx (rxTick_sameTx hu)).passTick

/-- Settles O56: a step is a line that is run or a tick, and in both the trace gains the events the line follows. -/
theorem stepKeepsTheLineOfTheTrace : Obligations.StepKeepsTheLineOfTheTrace := by
  intro s t h ht
  unfold step at ht
  split at ht
  · exact tickWith_lineTracked h ht
  · split at ht
    · have hfetched : LineTracked s.fetched := h.congr rfl rfl rfl
      exact exec_lineTracked hfetched ht
    · cases ht

/-- Settles O40: the tick is the reset of every register after the host's stores. -/
theorem resetTick : Obligations.ResetTick := by
  intro s h pin hr
  have hbuf : (hostStore h s).txbuf = if s.tx.busy then s.txbuf else Memory.storeAll s.txbuf h.txStore := by
    unfold hostStore
    split <;> rfl
  refine ⟨_, tickWith_reset h pin s hr, rfl, rfl, rfl, rfl, rfl, rfl, rfl, rfl, rfl, rfl, rfl, rfl, rfl, rfl, rfl, hbuf,
    fun hstore => ?_, ?_⟩
  · show (hostStore h s).txbuf = s.txbuf
    rw [hostStore_empty hstore]
  · simp

end Sys2Proof.Machine
end

section
/-! SUPPORT. `line(t)` of the events of a frame against the frame's waveform, symbol by symbol; then O17. -/

namespace Sys2Proof.Machine

/-- What a symbol begun at `t` makes of the level at time `u`: before it nothing, then its high time, then low (R91). -/
theorem foldl_symEvents (u t : Nat) (b : Bool) (a : Level × Nat) :
    (symEvents t b).foldl (lineStep u) a =
      (if t + highTime b ≤ u then .lo else if t ≤ u then .hi else a.1, a.2 + 2) := rfl

/-- Symbols begun later do not touch the level. -/
theorem foldl_bitsEvents_later {u t : Nat} (h : u < t) (bs : List Bool) (a : Level × Nat) :
    ((bitsEvents t bs).foldl (lineStep u) a).1 = a.1 := by
  induction bs generalizing t a with
  | nil => rfl
  | cons b bs ih =>
    rw [bitsEvents, List.foldl_append, ih (by omega), foldl_symEvents, if_neg (by omega), if_neg (by omega)]

theorem bitsWave_cons (b : Bool) (bs : List Bool) :
    bitsWave (b :: bs) = (.hi, highTime b) :: (.lo, tGap) :: bitsWave bs := rfl

/-- The level `k` ticks after symbols begin on a low line is that of their waveform: in the first symbol, or in the ones
after it (R302, R96). -/
theorem foldl_bitsEvents (t k n : Nat) (bs : List Bool) :
    ((bitsEvents t bs).foldl (lineStep (t + k)) (.lo, n)).1 = waveLevel (bitsWave bs) k := by
  induction bs generalizing t k n with
  | nil => rfl
  | cons b bs ih =>
    have hperiod : symPeriod b = highTime b + tGap := rfl
    rw [bitsEvents, List.foldl_append, foldl_symEvents, bitsWave_cons, waveLevel, waveLevel]
    by_cases hhigh : k < highTime b
    · rw [if_pos hhigh, foldl_bitsEvents_later (by omega), if_neg (by omega), if_pos (by omega)]
    · rw [if_neg hhigh, if_pos (by omega)]
      by_cases hgap : k - highTime b < tGap
      · rw [if_pos hgap, foldl_bitsEvents_later (by omega)]
      · rw [if_neg hgap, show t + k = t + symPeriod b + (k - highTime b - tGap) by omega]
        exact ih ..

/-- The reads of the payload do not touch the level. -/
theorem foldl_payloadEvents (u t j : Nat) (p : List Byte) (a : Level × Nat) :
    (payloadEvents t j p).foldl (lineStep u) a = (bitsEvents t (p.flatMap byteBits)).foldl (lineStep u) a := by
  induction p generalizing t j a with
  | nil => rfl
  | cons b p ih =>
    rw [payloadEvents, List.flatMap_cons, bitsEvents_append, sum_symPeriod_byteBits, List.cons_append, List.foldl_cons,
      lineStep_memRead, List.foldl_append, List.foldl_append, ih]

/-- The level of a frame's events is that of its bits. -/
theorem foldl_frameEvents (u t : Nat) (p : List Byte) (a : Level × Nat) :
    (frameEvents t p).foldl (lineStep u) a = (bitsEvents t (encodeBits p)).foldl (lineStep u) a := by
  have htime : ((headerPattern ++ syncPattern ++ byteBits (BitVec.ofNat 8 p.length)).map symPeriod).sum =
      3 * byteTime 0#8 + byteTime syncByte + byteTime (BitVec.ofNat 8 p.length) := by
    rw [List.map_append, List.map_append, List.sum_append, List.sum_append, syncPattern, sum_symPeriod_byteBits,
      sum_symPeriod_byteBits]
    rfl
  rw [encodeBits, bitsEvents_append t _ (p.flatMap byteBits), htime, frameEvents, List.foldl_append, List.foldl_append,
    foldl_payloadEvents, ← Nat.add_assoc, ← Nat.add_assoc]

/-- `line(t)` of a frame's events is its waveform (R302, R96). -/
theorem lineAt_frameEvents (n t k : Nat) (p : List Byte) :
    lineAt n (frameEvents t p) (t + k) = waveLevel (encodeWave p) k := by
  rw [lineAt, foldl_frameEvents, foldl_bitsEvents, encodeWave]

/-- Settles O17: the `SEND` is O15's, which puts the events of the frame into the trace. -/
theorem lineFollowsEncodeWave : Obligations.LineFollowsEncodeWave := by
  intro s t p hp hb hok ht
  cases (sendSendsTheFrame s p hp hb hok).symm.trans ht
  refine ⟨rfl, fun k _ => ?_⟩
  rw [List.drop_left]
  exact lineAt_frameEvents ..

end Sys2Proof.Machine
end

section
/-! SUPPORT. What decides how a `RECEIVE` goes on when a measurement returns: two machines that agree in it agree in it
afterwards. So the bits of a frame bring a `RECEIVE` to the end to which their pin calls bring one run by its line (O32). -/

namespace Sys2Proof.Machine

/-! ### The chain of hand-overs in two machines (R227) -/

/-- What decides how the receive chain goes on: the call, whether a measurement is under way, the registers of the assembler
and of the decoder, and the buffer. -/
def chain (s : State) : RxCall × PwcPhase × Bfa × Md × Memory := (s.call, s.pwc.phase, s.bfa, s.md, s.rxbuf)

theorem chain_eq_iff {s t : State} : chain s = chain t ↔
    s.call = t.call ∧ s.pwc.phase = t.pwc.phase ∧ s.bfa = t.bfa ∧ s.md = t.md ∧ s.rxbuf = t.rxbuf := by
  simp [chain]

/-- Where `o'` is a next state, so is `o`, with the same chain; the `RECEIVE` has ended or goes on, in no phase 2. -/
def Follows (o o' : Result) : Prop :=
  ∀ v, o' = .next v → ∃ u, o = .next u ∧ chain u = chain v ∧
    (u.call = .none ∨ u.call = .receive ∧ u.pwc.phase ≠ .countHigh)

theorem Follows.goesOn {u v : State} (h : chain u = chain v) (hc : u.call = .receive) (hp : u.pwc.phase ≠ .countHigh) :
    Follows (.next u) (.next v) := by
  rintro _ ⟨⟩
  exact ⟨u, rfl, h, .inr ⟨hc, hp⟩⟩

theorem Follows.ends {u v : State} (h : chain u = chain v) (hc : u.call = .none) : Follows (.next u) (.next v) := by
  rintro _ ⟨⟩
  exact ⟨u, rfl, h, .inl hc⟩

/-- A `RECEIVE` that has found its header goes on to the sync byte (R213). -/
theorem seekDone_receive {s : State} (hc : s.call = .receive) :
    seekDone s = beginByte { s with md := { s.md with state := .readingSync } } := by
  unfold seekDone
  split
  · rfl
  · exact absurd hc ‹_›

section
variable {s t : State} (h : chain s = chain t) (hc : s.call = .receive) (hp : s.pwc.phase ≠ .countHigh)
include h hc

/-- After a payload byte the next one begins, or the `RECEIVE` ends (R218, R219). -/
theorem nextPayloadByte_follows : Follows
    (if s.md.idx < s.md.len then .next (beginByte s) else .next (endReceive (.some s.md.len) s))
    (if t.md.idx < t.md.len then .next (beginByte t) else .next (endReceive (.some t.md.len) t)) := by
  obtain ⟨hcall, hphase, hbfa, hmd, hbuf⟩ := chain_eq_iff.1 h
  rw [← hmd]
  split
  · exact .goesOn (by simp [chain, hcall, hbfa, hmd, hbuf]) hc (by simp)
  · exact .ends (by simp [chain, hphase, hbfa, hmd, hbuf]) rfl

theorem seekBit_follows (r : Option Bool) : Follows (seekBit r s) (seekBit r t) := by
  obtain ⟨hcall, hphase, hbfa, hmd, hbuf⟩ := chain_eq_iff.1 h
  simp only [seekBit, ← hbfa]
  generalize (if r = some false then s.bfa.zeroRun + 1 else 0) = z
  split
  · exact .goesOn (by simp [chain, hcall, hmd, hbuf]) hc (by simp)
  · rw [seekDone_receive (by exact hc), seekDone_receive (by exact hcall.symm.trans hc)]
    exact .goesOn (by simp [chain, hcall, hmd, hbuf]) hc (by simp)

include hp

theorem recvByte_follows (r : Option Byte) : Follows (recvByte r s) (recvByte r t) := by
  obtain ⟨hcall, hphase, hbfa, hmd, hbuf⟩ := chain_eq_iff.1 h
  cases r with
  | none => exact .ends (by simp [chain, hphase, hbfa, hmd, hbuf]) rfl
  | some b =>
    simp only [recvByte, ← hmd]
    split
    · split_ifs
      · exact .goesOn (by simp [chain, hcall, hbfa, hbuf]) hc (by simp)
      · exact .ends (by simp [chain, hphase, hbfa, hmd, hbuf]) rfl
    · split_ifs
      · exact .ends (by simp [chain, hphase, hbfa, hbuf]) rfl
      · exact .ends (by simp [chain, hphase, hbfa, hbuf]) rfl
      · exact .goesOn (by simp [chain, hcall, hbfa, hbuf]) hc (by simp)
    · by_cases hroom : s.md.idx.toNat < s.md.cap.toNat
      · rw [storePayload_inside b s hroom, storePayload_inside b t (hmd ▸ hroom), andThen_next, andThen_next]
        exact nextPayloadByte_follows (by simp [chain, hcall, hphase, hbfa, hmd, hbuf]) hc
      · have hfull : storePayload b t = .fault .rxbufOutOfRange := if_pos (by rw [← hmd]; omega)
        intro v hv
        rw [hfull] at hv
        exact absurd hv (by simp [andThen])
    all_goals exact .goesOn h hc hp

theorem byteDone_follows (r : Option Byte) : Follows (byteDone r s) (byteDone r t) := by
  obtain ⟨a, ha⟩ := byteDone_receive r hc
  obtain ⟨b, hb⟩ := byteDone_receive r ((chain_eq_iff.1 h).1.symm.trans hc)
  rw [ha, hb]
  exact recvByte_follows (by exact h) (by exact hc) (by exact hp) r

theorem byteBit_follows (r : Option Bool) : Follows (byteBit r s) (byteBit r t) := by
  obtain ⟨hcall, hphase, hbfa, hmd, hbuf⟩ := chain_eq_iff.1 h
  cases r with
  | none => exact byteDone_follows h hc hp none
  | some v =>
    simp only [byteBit, ← hbfa]
    split
    · exact .goesOn (by simp [chain, hcall, hmd, hbuf]) hc (by simp)
    · exact byteDone_follows (by simp [chain, hcall, hphase, hmd, hbuf]) (by exact hc) (by exact hp) _

theorem bitDone_follows (r : Option Bool) : Follows (bitDone r s) (bitDone r t) := by
  obtain ⟨hcall, -, -, hmd, -⟩ := chain_eq_iff.1 h
  have hc' : t.call = .receive := hcall.symm.trans hc
  by_cases hs : s.md.state = .seekingHeader
  · obtain ⟨a, ha⟩ := Seeks.bitDone_eq (.inr ⟨hc, hs⟩) r
    obtain ⟨b, hb⟩ := Seeks.bitDone_eq (.inr ⟨hc', hmd ▸ hs⟩) r
    rw [ha, hb]
    exact seekBit_follows (by exact h) (by exact hc) r
  · obtain ⟨a, ha⟩ := ReadsByte.bitDone_eq (.inr ⟨hc, hs⟩) r
    obtain ⟨b, hb⟩ := ReadsByte.bitDone_eq (.inr ⟨hc', hmd ▸ hs⟩) r
    rw [ha, hb]
    exact byteBit_follows (by exact h) (by exact hc) (by exact hp) r

end

/-- A measurement returns to a `RECEIVE`, wherever in its own phases it is (R160, R170). -/
theorem measDone_follows {s t : State} (h : chain { s with pwc := t.pwc } = chain t) (hc : s.call = .receive) (m : Meas) :
    Follows (measDone m s) (measDone m t) := by
  obtain ⟨hcall, -, hbfa, hmd, hbuf⟩ := chain_eq_iff.1 h
  have hc' : t.call = .receive := hcall.symm.trans hc
  obtain ⟨a, ha⟩ := measDone_eq_bitDone m (s := s) (by simp [hc]) (by simp [hc])
  obtain ⟨b, hb⟩ := measDone_eq_bitDone m (s := t) (by simp [hc']) (by simp [hc'])
  rw [ha, hb]
  refine bitDone_follows ?_ ?_ ?_ _
  · exact chain_eq_iff.2 ⟨hcall, rfl, hbfa, hmd, hbuf⟩
  · exact hc
  · simp

/-! ### The bits of a frame -/

/-- Bit reads that meet the nominal pulses of these bits at once (R96). -/
def nominalReads (bs : List Bool) : List BitRead := bs.map fun b => .pulse 0 (highTime b)

theorem nominalReads_readsAs (bs : List Bool) : ReadsAs (nominalReads bs) bs := by
  constructor
  · simp only [nominalReads, List.forall_mem_map]
    intro b _
    cases b <;> rfl
  · rw [nominalReads, List.map_map]
    exact List.map_congr_left fun b _ => by cases b <;> rfl

/-- The receive chain of `s`, with the pulses of the bits `bs` still to come, gets to where pin calls bring it to `T`: an end
with no answer left. -/
def Expects (T : State) (bs : List Bool) (s : State) : Prop :=
  T.env.calls = [] ∧ ∃ v, chain s = chain v ∧ runCalls (answersOf (nominalReads bs)) v = .next T

theorem Expects.congr {T s t : State} {bs : List Bool} (h : Expects T bs s) (ht : chain t = chain s) : Expects T bs t := by
  obtain ⟨hT, v, hv, hrun⟩ := h
  exact ⟨hT, v, ht.trans hv, hrun⟩

theorem Expects.chain_eq {T s : State} (h : Expects T [] s) : chain s = chain T := by
  obtain ⟨-, v, hv, hrun⟩ := h
  cases hrun
  exact hv

/-- While bits are to come the call goes on. -/
theorem Expects.call_ne {T s : State} {b : Bool} {bs : List Bool} (h : Expects T (b :: bs) s) : s.call ≠ .none := by
  obtain ⟨hT, v, hv, hrun⟩ := h
  intro hc
  rw [runCalls_done _ _ ((chain_eq_iff.1 hv).1.symm.trans hc)] at hrun
  cases hrun
  cases b <;> cases hT

/-- The next bit is measured, in whatever position of its own the measurement stands (R160, R170). -/
theorem Expects.measured {T c s : State} {b : Bool} {bs : List Bool} (h : Expects T (b :: bs) c)
    (hc : c.call = .receive) (hp : c.pwc.phase = .waitHigh) (hs : chain { s with pwc := c.pwc } = chain c) :
    ∃ u, measDone (.ok (BitVec.ofNat 11 (highTime b))) s = .next u ∧ Expects T bs u ∧
      (u.call = .none ∨ u.call = .receive ∧ u.pwc.phase ≠ .countHigh) := by
  obtain ⟨hT, v, hv, hrun⟩ := h
  obtain ⟨hcall, hphase, hbfa, hmd, hbuf⟩ := chain_eq_iff.1 hv
  obtain ⟨p, l, hread, -⟩ := runCalls_read (.pulse 0 (highTime b)) (answersOf (nominalReads bs)) v
    (by simp [← hcall, hc]) (hphase.symm.trans hp) (by cases b <;> rfl)
  obtain ⟨v', hv', hrest⟩ := andThen_eq_next.1 (hread.symm.trans hrun)
  obtain ⟨hcall', -, hbfa', hmd', hbuf'⟩ := chain_eq_iff.1 hs
  obtain ⟨u, hu, huv, hgoes⟩ := measDone_follows (s := s) (t := { v with pwc := p, rxLog := l })
    (chain_eq_iff.2 ⟨hcall'.trans hcall, rfl, hbfa'.trans hbfa, hmd'.trans hmd, hbuf'.trans hbuf⟩) (hcall'.trans hc) _ _
    hv'
  exact ⟨u, hu, ⟨hT, v', huv, hrest⟩, hgoes⟩

/-- An accepted `RECEIVE` with room for a payload expects its frame, and ends with it (R219, O32). -/
theorem acceptReceive_expects {s : State} {cap : BitVec 9} {p : List Byte} (hp : p.length ≤ 255)
    (hcap : p.length ≤ cap.toNat) :
    ∃ T, Expects T (encodeBits p) (acceptReceive cap s) ∧ T.md.result = .some (BitVec.ofNat 8 p.length) ∧
      T.md.busy = false ∧ T.rxbuf = Memory.writeList s.rxbuf 0 p := by
  obtain ⟨s₀, hfree, hcalls, hbuf₀⟩ : ∃ s₀ : State, rxFree s₀ = true ∧
      s₀.env.calls = answersOf (nominalReads (encodeBits p)) ∧ s₀.rxbuf = s.rxbuf :=
    ⟨{ s with call := .none, md := { s.md with busy := false }, env := { s.env with calls := _ } }, rfl, rfl, rfl⟩
  obtain ⟨T, hrun, hresult, hbusy, -, -, -, -, -, hbuf, -, -, -, henv, -⟩ := receiveReturnsThePayload s₀ cap p []
    (nominalReads (encodeBits p)) [] hfree hp hcap nofun rfl rfl (nominalReads_readsAs _)
    (hcalls.trans (List.append_nil _).symm)
  exact ⟨T, ⟨congrArg Env.calls henv, acceptReceive cap s₀, by simp [chain, hbuf₀],
    (exec_receive cap hfree hcalls).symm.trans hrun⟩, hresult, hbusy, hbuf.trans (by rw [hbuf₀])⟩

end Sys2Proof.Machine
end

section
/-! SUPPORT. A `SEND` whose drive calls cannot fail, in its ticks: at which bit of the frame it stands, what the line shows,
and how the next tick moves it on. -/

namespace Sys2Proof.Machine

/-- The encoder sends the frame of `p`, whose bytes stand in its memory, and its drive calls answer (R134, R49). -/
structure SendsFrame (p : List Byte) (s : State) : Prop where
  busy   : s.tx.busy = true
  len    : s.tx.len = BitVec.ofNat 8 p.length
  stored : ∀ j (h : j < p.length), Memory.read s.txbuf j = some p[j]
  tied   : s.env.drvTied = true

/-- It is at bit `q` of the frame (R136). -/
structure AtFrameBit (p : List Byte) (q : Nat) (s : State) : Prop extends SendsFrame p s where
  k   : s.tx.k.toNat = q / 8
  i   : s.tx.i.toNat = q % 8
  cur : (frameBytes p)[q / 8]? = some s.tx.cur

/-- The level of the line in a phase of the encoder (R140). -/
def phaseLevel : TxPhase → Level
  | .high => .hi
  | .idle | .gap => .lo

/-- It is in the interval `ph` of bit `q` of the frame, with `n` ticks of it left (R140). -/
structure Sending (p : List Byte) (q : Nat) (ph : TxPhase) (n : Nat) (s : State) : Prop extends AtFrameBit p q s where
  phase : s.tx.phase = ph
  timer : s.tx.timer.toNat = n
  line  : s.line = phaseLevel ph

/-- The encoder rests on a low line, with the payload `p` in its memory, and its drive calls will answer. -/
structure ReadyToSend (p : List Byte) (s : State) : Prop where
  idle   : s.tx.busy = false
  line   : s.line = .lo
  stored : ∀ j (h : j < p.length), Memory.read s.txbuf j = some p[j]
  tied   : s.env.drvTied = true

theorem nthDrive_tied {s : State} (h : s.env.drvTied = true) (j : Nat) : nthDrive s j = none := by
  simp [nthDrive, h]

section
variable {p : List Byte} {q n : Nat} {ph : TxPhase} {s t : State} {b : Bool}

/-- Nothing but the encoder's registers, the line and the memory counts. -/
theorem Sending.congr (h : Sending p q ph n s) (htx : t.tx = s.tx) (hline : t.line = s.line) (hbuf : t.txbuf = s.txbuf)
    (htied : t.env.drvTied = s.env.drvTied) : Sending p q ph n t where
  busy := htx ▸ h.busy
  len := htx ▸ h.len
  stored := hbuf ▸ h.stored
  tied := htied.trans h.tied
  k := htx ▸ h.k
  i := htx ▸ h.i
  cur := htx ▸ h.cur
  phase := htx ▸ h.phase
  timer := htx ▸ h.timer
  line := hline.trans h.line

/-! ### The bytes and the bits -/

/-- Byte `k` of the frame (R134). -/
theorem SendsFrame.frameByte (h : SendsFrame p s) {k : BitVec 9} (hk : k.toNat < (frameBytes p).length) :
    (frameBytes p)[k.toNat]? = some (frameByte s k) := by
  rcases hnum : k.toNat with _ | _ | _ | _ | _ | j
  · rw [frameByte_header s (by omega)]; rfl
  · rw [frameByte_header s (by omega)]; rfl
  · rw [frameByte_header s (by omega)]; rfl
  · rw [frameByte_sync s hnum]; rfl
  · rw [frameByte_length s hnum, h.len]; rfl
  · have hj : j < p.length := by rw [hnum] at hk; simpa [frameBytes] using hk
    rw [frameByte_payload s (by omega), hnum, show j + 1 + 1 + 1 + 1 + 1 - 5 = j from rfl, txbufByte, h.stored j hj]
    simp [frameBytes, hj]

/-- A byte of the frame begins (R136). -/
theorem SendsFrame.loadByte (h : SendsFrame p s) {k : BitVec 9} (hk : k.toNat < (frameBytes p).length) :
    AtFrameBit p (8 * k.toNat) (loadByte k s) where
  busy := by rw [loadByte_tx]; exact h.busy
  len := by rw [loadByte_tx]; exact h.len
  stored := by rw [loadByte_txbuf]; exact h.stored
  tied := by rw [loadByte_env]; exact h.tied
  k := by rw [loadByte_tx]; simp
  i := by rw [loadByte_tx]; simp
  cur := by rw [loadByte_tx, Nat.mul_div_cancel_left _ (by decide)]; exact h.frameByte hk

/-- The bit the encoder is at is that of the frame. -/
theorem AtFrameBit.bit (h : AtFrameBit p q s) (hb : (encodeBits p)[q]? = some b) :
    s.tx.cur.getLsbD s.tx.i.toNat = b := by
  obtain ⟨hq, hcur⟩ := List.getElem?_eq_some_iff.1 h.cur
  have hbit := getElem?_flatMap_byteBits (frameBytes p) hq (Nat.mod_lt q (by decide : 0 < 8))
  rw [Nat.div_add_mod, ← encodeBits_eq_flatMap, hb, hcur, ← h.i] at hbit
  exact (Option.some.inj hbit).symm

/-! ### The ticks -/

/-- A drive call that cannot fail begins its interval. -/
theorem AtFrameBit.startInterval (h : AtFrameBit p q s) (ph : TxPhase) (hn : n < 1024) :
    Sending p q ph n (startInterval (phaseLevel ph) ph n s) := by
  rw [Machine.startInterval, drive_ok _ s (nthDrive_tied h.tied 0)]
  exact { h with phase := rfl, line := rfl, timer := (BitVec.toNat_ofNat ..).trans (Nat.mod_eq_of_lt hn) }

/-- The high interval of a bit begins (R140). -/
theorem AtFrameBit.startBit (h : AtFrameBit p q s) (hb : (encodeBits p)[q]? = some b) :
    Sending p q .high (highTime b) (startBit s) := by
  have hle := highTime_le b
  rw [startBit_eq, h.bit hb]
  exact h.startInterval .high (by omega)

/-- The tick that accepts the `SEND` begins its first bit, a zero (R135). -/
theorem ReadyToSend.accept {h : HostIn} (hready : ReadyToSend p s) (hs : h.txStart = true)
    (hlen : h.txLenIn = BitVec.ofNat 8 p.length) : Sending p 0 .high 800 (txTick h s) := by
  have hframe : SendsFrame p (acceptSend h.txLenIn s) := ⟨rfl, hlen, hready.stored, hready.tied⟩
  rw [txTick_accepts hready.idle hs]
  exact (hframe.loadByte (k := 0) (by simp [frameBytes])).startBit (b := false) rfl

/-- A tick inside an interval. -/
theorem Sending.goesOn {P : State → State} (hend : IntervalEnds ph P) (h : Sending p q ph (n + 1) s) (hn : 1 ≤ n) :
    Sending p q ph n (txTick quiet s) := by
  have htimer := h.timer
  rw [hend s h.busy h.phase, if_neg (by omega)]
  exact { h with timer := by simp only [countDown]; bv_omega }

/-- The tick that ends the high interval begins the gap (R140). -/
theorem Sending.falls (h : Sending p q .high 1 s) : Sending p q .gap 600 (txTick quiet s) := by
  have hdown : AtFrameBit p q (countDown s) := { h with }
  rw [txTick_high h.busy h.phase, if_pos h.timer, startGap_eq]
  exact hdown.startInterval .gap (by decide)

/-- The tick that ends the gap begins the next bit of the frame, in the same byte or in the next one (R41, R140). -/
theorem Sending.rises (h : Sending p q .gap 1 s) (hp : p.length ≤ 255) (hb : (encodeBits p)[q + 1]? = some b) :
    Sending p (q + 1) .high (highTime b) (txTick quiet s) := by
  have hdown : AtFrameBit p q (countDown s) := { h with }
  have hk := hdown.k
  have hi := hdown.i
  rw [txTick_gap h.busy h.phase, if_pos h.timer]
  by_cases hlast : q % 8 < 7
  · rw [bitComplete_nextBit (by omega)]
    have hnext : AtFrameBit p (q + 1) (setTxI ((countDown s).tx.i + 1) (countDown s)) :=
      { hdown with
        k := by rw [show (q + 1) / 8 = q / 8 by omega]; exact hk
        i := by simp only [setTxI_tx]; bv_omega
        cur := by rw [show (q + 1) / 8 = q / 8 by omega]; exact hdown.cur }
    exact hnext.startBit hb
  · have hq : q + 1 < 40 + 8 * p.length := by
      rw [← Laws.EncodedLength.encodeBits_length]
      exact (List.getElem?_eq_some_iff.1 hb).1
    have hlen : (countDown s).tx.len.toNat = p.length := by
      rw [hdown.len]
      exact (BitVec.toNat_ofNat ..).trans (Nat.mod_eq_of_lt (by omega))
    have hnum : 8 * ((countDown s).tx.k + 1).toNat = q + 1 := by bv_omega
    have hnext := hdown.toSendsFrame.loadByte (k := (countDown s).tx.k + 1) (by simp [frameBytes]; omega)
    rw [hnum] at hnext
    rw [bitComplete_nextByte (by omega) (by omega)]
    exact hnext.startBit hb

end

end Sys2Proof.Machine
end

section
/-! SUPPORT. The composed configuration in quiet ticks: a `RECEIVE` hears the bits of a `SEND` on the same wire, tick by tick
and bit by bit; then O53. -/

namespace Sys2Proof.Machine

/-! ### The receiver's half of a tick -/

/-- A `RECEIVE` waits for a pulse, with the bits `bs` to come until it ends as in `T`. -/
structure Awaits (T : State) (bs : List Bool) (s : State) : Prop where
  expects : Expects T bs s
  call    : s.call = .receive
  phase   : s.pwc.phase = .waitHigh

/-- The measurement that waited in `c` has seen the line high in `j` ticks; nothing has been handed over (R172). -/
structure Counted (c : State) (j : Nat) (s : State) : Prop where
  call     : s.call = .receive
  phase    : s.pwc.phase = .countHigh
  due      : s.pwc.due = false
  position : s.pwc.dur.toNat + 10 = j + s.pwc.poll.toNat
  poll_le  : s.pwc.poll.toNat ≤ 9
  dur_step : s.pwc.dur.toNat % 10 = 0
  chain    : chain { s with pwc := c.pwc } = chain c

section
variable {T c s t : State} {j : Nat} {b : Bool} {bs : List Bool}

theorem Awaits.congr (h : Awaits T bs s) (ht : chain t = chain s) : Awaits T bs t := by
  obtain ⟨hcall, hphase, -⟩ := chain_eq_iff.1 ht
  exact ⟨h.expects.congr ht, hcall.trans h.call, hphase.trans h.phase⟩

theorem Counted.congr (h : Counted c j s) (hpwc : t.pwc = s.pwc) (ht : Machine.chain t = Machine.chain s) :
    Counted c j t := by
  obtain ⟨hcall, -, hbfa, hmd, hbuf⟩ := chain_eq_iff.1 ht
  refine ⟨hcall.trans h.call, hpwc ▸ h.phase, hpwc ▸ h.due, hpwc ▸ h.position, hpwc ▸ h.poll_le, hpwc ▸ h.dur_step, ?_⟩
  refine Eq.trans ?_ h.chain
  exact chain_eq_iff.2 ⟨hcall, rfl, hbfa, hmd, hbuf⟩

/-- The encoder's half of a tick leaves the chain alone (R248). -/
theorem SameRx.chain_eq (h : SameRx s t) : chain t = chain s := by
  obtain ⟨hpwc, hbfa, hmd, hcall, hbuf, -⟩ := h
  exact chain_eq_iff.2 ⟨hcall, congrArg Pwc.phase hpwc, hbfa, hmd, hbuf⟩

/-- A low read of a waiting `RECEIVE` (R161). -/
theorem Awaits.low (h : Awaits T bs s) :
    ∃ u, rxTick quiet ⟨.lo, none⟩ s = .next u ∧ Awaits T bs u := by
  rw [rxTick_waiting (by simp [h.call]) h.phase]
  exact ⟨_, phase1Read_low s, h.congr rfl⟩

/-- The first high read of a waiting `RECEIVE` (R172, D6). -/
theorem Awaits.high (h : Awaits T bs s) :
    ∃ u, phase1Read ⟨.hi, none⟩ s = .next u ∧ Counted s 1 u :=
  ⟨_, rfl, h.call, rfl, rfl, rfl, le_rfl, rfl, rfl⟩

/-- One more tick of a high line below the cap (R162, R172). -/
theorem Counted.high (h : Counted c j s) (hj : j < 2000) :
    ∃ u, rxTick quiet ⟨.hi, none⟩ s = .next u ∧ Counted c (j + 1) u := by
  have hposition := h.position
  have hle := h.poll_le
  have hstep := h.dur_step
  rw [rxTick_counting (by simp [h.call]) h.phase]
  by_cases hpoll : s.pwc.poll = 0
  · rw [hpoll] at hposition
    change _ + 10 = j + 0 at hposition
    have hten : (s.pwc.dur + 10).toNat = s.pwc.dur.toNat + 10 := by bv_omega
    obtain ⟨l, hu⟩ := countTick_high h.phase h.due hpoll (hten.trans_lt (by omega))
    refine ⟨_, hu, h.call, h.phase, rfl, ?_, le_rfl, ?_, h.chain⟩
    · show (s.pwc.dur + 10).toNat + 10 = j + 1 + 9
      omega
    · show (s.pwc.dur + 10).toNat % 10 = 0
      omega
  · refine ⟨_, countTick_delay _ h.due hpoll, h.call, h.phase, h.due, ?_, ?_, hstep, h.chain⟩
    · show s.pwc.dur.toNat + 10 = j + 1 + (s.pwc.poll - 1).toNat
      bv_omega
    · show (s.pwc.poll - 1).toNat ≤ 9
      bv_omega

/-- A low read after the nominal high time of a bit measures it, and the next measurement, if there is one, waits (R168,
R172). -/
theorem Counted.low (h : Counted c (highTime b) s) (hc : Awaits T (b :: bs) c) :
    ∃ u, rxTick quiet ⟨.lo, none⟩ s = .next u ∧ Expects T bs u ∧
      (u.call = .none ∨ u.call = .receive ∧ u.pwc.phase ≠ .countHigh) := by
  have hposition := h.position
  have hle := h.poll_le
  have hstep := h.dur_step
  have htens : highTime b % 10 = 0 ∧ highTime b ≤ 800 := by cases b <;> decide
  have hpoll : s.pwc.poll = 0 := by bv_omega
  have hdur : s.pwc.dur + 10 = BitVec.ofNat 11 (highTime b) := by
    rw [hpoll] at hposition
    change _ + 10 = _ + 0 at hposition
    bv_omega
  obtain ⟨l, hmeasured⟩ := countTick_measured (p := ⟨.lo, none⟩) h.due hpoll (.inr rfl)
  rw [rxTick_counting (by simp [h.call]) h.phase, hmeasured, hdur]
  obtain ⟨u, hu, hexpects, hgoes⟩ := hc.expects.measured hc.call hc.phase (s := { s with pwc := _, rxLog := l }) h.chain
  rw [hu, andThen_next, readAgain]
  split
  · exact ⟨_, phase1Read_low u, hexpects.congr rfl, hgoes⟩
  · exact ⟨u, rfl, hexpects, hgoes⟩

/-- Under the invariant a `RECEIVE` that expects more bits waits after a measurement. -/
theorem Expects.awaits (h : Expects T (b :: bs) s) (hi : Inv s)
    (hgoes : s.call = .none ∨ s.call = .receive ∧ s.pwc.phase ≠ .countHigh) : Awaits T (b :: bs) s := by
  obtain ⟨hcall, hcount⟩ := hgoes.resolve_left h.call_ne
  have hidle : s.pwc.phase ≠ .idle := fun hp => h.call_ne (hi.phase_call.1 hp)
  refine ⟨h, hcall, ?_⟩
  cases hp : s.pwc.phase with
  | idle => exact absurd hp hidle
  | waitHigh => rfl
  | countHigh => exact absurd hp hcount

end

/-! ### The tick of the composed configuration (R304) -/

/-- The encoder's half, then the receiver's with the line as the encoder has left it. -/
theorem loopTick_eq {h : HostIn} (hr : h.rst = false) (hstore : h.txStore = []) (s : State) :
    loopTick h s = andThen (rxTick h ⟨(txTick h (clearOut s)).line, none⟩ (txTick h (clearOut s)))
      fun u => .next (passTick u) := by
  simp only [loopTick, tickWith, hr, hostStore_empty hstore, Bool.false_eq_true, if_false]

/-- The receiver's half leaves the `SEND` where it is. -/
theorem Sending.of_sameTx {p : List Byte} {q n : Nat} {ph : TxPhase} {s t : State} (h : Sending p q ph n s)
    (hs : SameTx s t) : Sending p q ph n (passTick t) := by
  obtain ⟨htx, hline, hbuf, -, -, -, -, -, henv⟩ := hs
  exact h.congr htx hline hbuf (show t.env.drvTied = _ by rw [← henv])

/-- A tick whose encoder's half is known by where the `SEND` then is, and its receiver's half by its outcome. -/
theorem Sending.loopTick {p : List Byte} {q n : Nat} {ph : TxPhase} {h : HostIn} {s u : State}
    (hm : Sending p q ph n (txTick h (clearOut s))) (hr : h.rst = false) (hstore : h.txStore = [])
    (hu : rxTick h ⟨phaseLevel ph, none⟩ (txTick h (clearOut s)) = .next u) :
    loopTick h s = .next (passTick u) ∧ Sending p q ph n (passTick u) := by
  rw [loopTick_eq hr hstore, hm.line, hu]
  exact ⟨rfl, hm.of_sameTx (rxTick_sameTx hu)⟩

/-- From `s` `n` quiet ticks lead to `t`. -/
def LoopRuns (n : Nat) (s t : State) : Prop := loopTicks (List.replicate n quiet) s = .next t

theorem loopTicks_append (hs ks : List HostIn) (s : State) :
    loopTicks (hs ++ ks) s = andThen (loopTicks hs s) (loopTicks ks) := by
  induction hs generalizing s with
  | nil => rfl
  | cons h hs ih =>
    rw [List.cons_append, loopTicks, loopTicks]
    cases loopTick h s with
    | next t => exact ih t
    | fault e => rfl
    | refused r => rfl

theorem LoopRuns.trans {m n : Nat} {s t u : State} (h : LoopRuns m s t) (h' : LoopRuns n t u) : LoopRuns (m + n) s u := by
  rw [LoopRuns, List.replicate_add, loopTicks_append, h, andThen_next, h']

theorem loopRuns_one {s t : State} (h : loopTick quiet s = .next t) : LoopRuns 1 s t := by
  rw [LoopRuns, List.replicate_one, loopTicks, h, andThen_next, loopTicks]

theorem LoopRuns.inv {n : Nat} {s t : State} (h : LoopRuns n s t) (hi : Inv s) : Inv t := by
  induction n generalizing s with
  | zero => cases h; exact hi
  | succ n ih =>
    rw [LoopRuns, List.replicate_succ, loopTicks] at h
    obtain ⟨u, hu, ht⟩ := andThen_eq_next.1 h
    exact ih ht (tickWith_inv hi hu)

/-- Ticks that each lead from one place to the next. -/
theorem loopRuns_of_ticks {P : Nat → State → Prop} {n : Nat} {s : State}
    (htick : ∀ i s, i < n → P i s → ∃ t, loopTick quiet s = .next t ∧ P (i + 1) t) (hs : P 0 s) :
    ∃ t, LoopRuns n s t ∧ P n t := by
  induction n with
  | zero => exact ⟨s, rfl, hs⟩
  | succ n ih =>
    obtain ⟨t, hrun, ht⟩ := ih fun i s hi => htick i s (by omega)
    obtain ⟨u, hu, hP⟩ := htick n t (by omega) ht
    exact ⟨u, hrun.trans (loopRuns_one hu), hP⟩

/-! ### A bit on the wire -/

section
variable {p : List Byte} {q n j : Nat} {T c s : State} {b b' : Bool} {bs : List Bool}

theorem txTick_clearOut_chain (h : HostIn) (s : State) : chain (txTick h (clearOut s)) = chain s ∧
    (txTick h (clearOut s)).pwc = s.pwc :=
  ⟨(txTick_sameRx h (clearOut s)).chain_eq, (txTick_sameRx h (clearOut s)).1⟩

/-- The high time of a bit passes, up to its last tick. -/
theorem loop_high (h : Sending p q .high (highTime b) s) (hcount : Counted c 1 s) :
    ∃ t, LoopRuns (highTime b - 1) s t ∧ Sending p q .high 1 t ∧ Counted c (highTime b) t := by
  have hle := highTime_le b
  have htick (i : Nat) (s : State) (hi : i < highTime b - 1)
      (hs : Sending p q .high (highTime b - i) s ∧ Counted c (i + 1) s) :
      ∃ t, loopTick quiet s = .next t ∧ Sending p q .high (highTime b - (i + 1)) t ∧ Counted c (i + 1 + 1) t := by
    obtain ⟨hsend, hcount⟩ := hs
    obtain ⟨hchain, hpwc⟩ := txTick_clearOut_chain quiet s
    have hm : Sending p q .high (highTime b - (i + 1)) (txTick quiet (clearOut s)) :=
      Sending.goesOn intervalEnds_high (s := clearOut s)
        (by rw [show highTime b - (i + 1) + 1 = highTime b - i by omega]; exact { hsend with }) (by omega)
    obtain ⟨u, hu, hcount⟩ := (hcount.congr hpwc hchain).high (by omega)
    obtain ⟨htick, hsend⟩ := hm.loopTick rfl rfl hu
    exact ⟨_, htick, hsend, hcount.congr rfl rfl⟩
  obtain ⟨t, hrun, hsend, hcount⟩ := loopRuns_of_ticks htick ⟨h, hcount⟩
  rw [show highTime b - (highTime b - 1) = 1 by omega] at hsend
  rw [show highTime b - 1 + 1 = highTime b by omega] at hcount
  exact ⟨t, hrun, hsend, hcount⟩

/-- The low time of a bit passes, up to its last tick. -/
theorem loop_gap (h : Sending p q .gap 600 s) (hwait : Awaits T bs s) :
    ∃ t, LoopRuns 599 s t ∧ Sending p q .gap 1 t ∧ Awaits T bs t := by
  have htick (i : Nat) (s : State) (hi : i < 599) (hs : Sending p q .gap (600 - i) s ∧ Awaits T bs s) :
      ∃ t, loopTick quiet s = .next t ∧ Sending p q .gap (600 - (i + 1)) t ∧ Awaits T bs t := by
    obtain ⟨hsend, hwait⟩ := hs
    have hm : Sending p q .gap (600 - (i + 1)) (txTick quiet (clearOut s)) :=
      Sending.goesOn intervalEnds_gap (s := clearOut s)
        (by rw [show 600 - (i + 1) + 1 = 600 - i by omega]; exact { hsend with }) (by omega)
    obtain ⟨u, hu, hwait⟩ := (hwait.congr (txTick_clearOut_chain quiet s).1).low
    obtain ⟨htick, hsend⟩ := hm.loopTick rfl rfl hu
    exact ⟨_, htick, hsend, hwait.congr rfl⟩
  exact loopRuns_of_ticks htick ⟨h, hwait⟩

/-- The line falls, and the bit is measured. -/
theorem loop_falls (h : Sending p q .high 1 s) (hcount : Counted c (highTime b) s) (hc : Awaits T (b :: bs) c) :
    ∃ t, loopTick quiet s = .next t ∧ Sending p q .gap 600 t ∧ Expects T bs t ∧
      (t.call = .none ∨ t.call = .receive ∧ t.pwc.phase ≠ .countHigh) := by
  obtain ⟨hchain, hpwc⟩ := txTick_clearOut_chain quiet s
  have hm : Sending p q .gap 600 (txTick quiet (clearOut s)) := Sending.falls (s := clearOut s) { h with }
  obtain ⟨u, hu, hexpects, hgoes⟩ := (hcount.congr hpwc hchain).low hc
  obtain ⟨htick, hsend⟩ := hm.loopTick rfl rfl hu
  exact ⟨_, htick, hsend, hexpects.congr rfl, hgoes⟩

/-- The line rises for the next bit, and its measurement begins to count. -/
theorem loop_rises (h : Sending p q .gap 1 s) (hwait : Awaits T bs s) (hp : p.length ≤ 255)
    (hb : (encodeBits p)[q + 1]? = some b) :
    ∃ c t, loopTick quiet s = .next t ∧ Sending p (q + 1) .high (highTime b) t ∧ Awaits T bs c ∧ Counted c 1 t := by
  have hm : Sending p (q + 1) .high (highTime b) (txTick quiet (clearOut s)) :=
    Sending.rises (s := clearOut s) { h with } hp hb
  have hc := hwait.congr (txTick_clearOut_chain quiet s).1
  obtain ⟨u, hu, hcount⟩ := hc.high
  obtain ⟨htick, hsend⟩ := hm.loopTick rfl rfl ((rxTick_waiting (by simp [hc.call]) hc.phase).trans hu)
  exact ⟨_, _, htick, hsend, hc, hcount.congr rfl rfl⟩

theorem symPeriod_eq (b : Bool) : symPeriod b = highTime b + 600 := by cases b <;> rfl

/-- The bits of the frame from bit `q` on, by induction on them: the last one ends the `RECEIVE` as in `T` in the tick in which
the line falls, when the `SEND` is still in its last gap. -/
theorem loop_bits (hp : p.length ≤ 255) (hbits : (encodeBits p).drop q = b :: bs)
    (h : Sending p q .high (highTime b) s) (hcount : Counted c 1 s) (hc : Awaits T (b :: bs) c) (hi : Inv s) :
    ∃ u t, LoopRuns (((b :: bs).map symPeriod).sum - 601) s u ∧ loopTick quiet u = .next t ∧ Inv u ∧
      u.call = .receive ∧ chain t = chain T ∧ t.tx.busy = true := by
  induction bs generalizing q b s c with
  | nil =>
    obtain ⟨u, hrun, hsend, hcounted⟩ := loop_high h hcount
    obtain ⟨t, ht, hfallen, hexpects, -⟩ := loop_falls hsend hcounted hc
    have hticks : ([b].map symPeriod).sum - 601 = highTime b - 1 := by simp [symPeriod_eq]
    rw [hticks]
    exact ⟨u, t, hrun, ht, hrun.inv hi, hcounted.call, hexpects.chain_eq, hfallen.busy⟩
  | cons b' bs ih =>
    obtain ⟨u, hrun, hsend, hcounted⟩ := loop_high h hcount
    obtain ⟨v, hv, hfallen, hexpects, hgoes⟩ := loop_falls hsend hcounted hc
    have hwait := hexpects.awaits (tickWith_inv (hrun.inv hi) hv) hgoes
    obtain ⟨w, hgap, hlast, hwait⟩ := loop_gap hfallen hwait
    have hdrop : (encodeBits p).drop (q + 1) = b' :: bs := by rw [← List.tail_drop, hbits]; rfl
    have hnext : (encodeBits p)[q + 1]? = some b' := by rw [← List.head?_drop, hdrop]; rfl
    obtain ⟨c', x, hx, hrisen, hc', hcount'⟩ := loop_rises hlast hwait hp hnext
    have hsymbol : LoopRuns (highTime b - 1 + 1 + 599 + 1) s x :=
      ((hrun.trans (loopRuns_one hv)).trans hgap).trans (loopRuns_one hx)
    obtain ⟨y, t, hrest, hend⟩ := ih hdrop hrisen hcount' hc' (hsymbol.inv hi)
    have hticks : ((b :: b' :: bs).map symPeriod).sum - 601 =
        highTime b - 1 + 1 + 599 + 1 + (((b' :: bs).map symPeriod).sum - 601) := by
      have hle := highTime_le b
      have hle' := highTime_le b'
      simp only [List.map_cons, List.sum_cons, symPeriod_eq]
      omega
    rw [hticks]
    exact ⟨y, t, hsymbol.trans hrest, hend⟩

end

/-! ### The two acceptances and the frame -/

/-- The encoder is ready to send `p`, while a `RECEIVE` waits for the frame of `p`. -/
structure BeforeSend (T : State) (p : List Byte) (s : State) : Prop extends ReadyToSend p s where
  waits : Awaits T (encodeBits p) s

section
variable {p : List Byte} {T c s t : State} {h : HostIn}

/-- The receiver's half of a tick leaves the encoder ready. -/
theorem ReadyToSend.of_sameTx (hready : ReadyToSend p s) (hs : SameTx s t) : ReadyToSend p (passTick t) := by
  obtain ⟨htx, hline, hbuf, -, -, -, -, -, henv⟩ := hs
  exact ⟨htx ▸ hready.idle, hline.trans hready.line, hbuf ▸ hready.stored,
    (show t.env.drvTied = _ by rw [← henv]).trans hready.tied⟩

/-- A tick in which the encoder rests. -/
theorem loopTick_txRests (hb : s.tx.busy = false) (hs : h.txStart = false) (hr : h.rst = false) (hstore : h.txStore = []) :
    loopTick h s = andThen (rxTick h ⟨s.line, none⟩ (clearOut s)) fun u => .next (passTick u) := by
  rw [loopTick_eq hr hstore, txTick_rests (s := clearOut s) hb hs]
  rfl

/-- The tick that accepts the `RECEIVE` on a low line (R211). -/
theorem ReadyToSend.acceptReceive {cap : BitVec 9} (hready : ReadyToSend p s) (hfree : rxFree s = true)
    (hT : Expects T (encodeBits p) (acceptReceive cap s)) :
    ∃ t, loopTick (startReceive cap) s = .next t ∧ BeforeSend T p t := by
  have hu : rxTick (startReceive cap) ⟨.lo, none⟩ (clearOut s) =
      .next (logRx (.pinIsLow (.ok true)) (Machine.acceptReceive cap (clearOut s))) :=
    rxTick_accepts (s := clearOut s) _ rfl hfree
  rw [loopTick_txRests hready.idle rfl rfl rfl, hready.line, hu]
  exact ⟨_, rfl, ReadyToSend.of_sameTx (s := clearOut s) { hready with } (rxTick_sameTx hu), hT.congr rfl, rfl, rfl⟩

/-- A quiet tick before the `SEND`. -/
theorem BeforeSend.quiet (hs : BeforeSend T p s) : ∃ t, loopTick quiet s = .next t ∧ BeforeSend T p t := by
  obtain ⟨u, hu, hwaits⟩ := (hs.waits.congr (t := clearOut s) rfl).low
  rw [loopTick_txRests hs.idle rfl rfl rfl, hs.line, hu]
  exact ⟨_, rfl, ReadyToSend.of_sameTx (s := clearOut s) { hs.toReadyToSend with } (rxTick_sameTx hu), hwaits.congr rfl⟩

/-- The tick that accepts the `SEND` while the `RECEIVE` waits: the first bit begins (R135, R304). -/
theorem BeforeSend.accept (hs : BeforeSend T p s) (hr : h.rst = false) (hstore : h.txStore = []) (htx : h.txStart = true)
    (hlen : h.txLenIn = BitVec.ofNat 8 p.length) :
    ∃ c t, loopTick h s = .next t ∧ Sending p 0 .high 800 t ∧ Awaits T (encodeBits p) c ∧ Counted c 1 t := by
  have hm : Sending p 0 .high 800 (txTick h (clearOut s)) :=
    ReadyToSend.accept (s := clearOut s) { hs with } htx hlen
  have hc := hs.waits.congr (txTick_clearOut_chain h s).1
  have hcall : (txTick h (clearOut s)).call ≠ .none := by simp [hc.call]
  obtain ⟨u, hu, hcount⟩ := hc.high
  rw [← rxTick_waiting hcall hc.phase, rxTick_busy_congr (h' := h) (rxFree_of_call hcall)] at hu
  obtain ⟨htick, hsend⟩ := hm.loopTick hr hstore hu
  exact ⟨_, _, htick, hsend, hc, hcount.congr rfl rfl⟩

/-- The tick that accepts both: the first read of the `RECEIVE` is on the line that has just risen (R304). -/
theorem ReadyToSend.acceptBoth (hready : ReadyToSend p s) (hfree : rxFree s = true) (hr : h.rst = false)
    (hstore : h.txStore = []) (htx : h.txStart = true) (hlen : h.txLenIn = BitVec.ofNat 8 p.length)
    (hrx : h.rxStart = true) (hT : Expects T (encodeBits p) (Machine.acceptReceive h.rxCapIn s)) :
    ∃ c t, loopTick h s = .next t ∧ Sending p 0 .high 800 t ∧ Awaits T (encodeBits p) c ∧ Counted c 1 t := by
  have hm : Sending p 0 .high 800 (txTick h (clearOut s)) :=
    ReadyToSend.accept (s := clearOut s) { hready with } htx hlen
  obtain ⟨-, -, hmd, hcall, hbuf, -⟩ := txTick_sameRx h (clearOut s)
  have hfree' : rxFree (txTick h (clearOut s)) = true := by
    rw [rxFree_iff, hmd, hcall]
    exact (rxFree_iff s).1 hfree
  have hc : Awaits T (encodeBits p) (Machine.acceptReceive h.rxCapIn (txTick h (clearOut s))) :=
    ⟨hT.congr (chain_eq_iff.2 ⟨rfl, rfl, rfl, rfl, hbuf⟩), rfl, rfl⟩
  obtain ⟨u, hu, hcount⟩ := hc.high
  obtain ⟨htick, hsend⟩ := hm.loopTick hr hstore ((rxTick_accepts _ hrx hfree').trans hu)
  exact ⟨_, _, htick, hsend, hc, hcount.congr rfl rfl⟩

/-- From the tick in which the first bit has begun to the end of the `RECEIVE`, 600 ticks before that of the `SEND`. -/
theorem loop_frame (hp : p.length ≤ 255) (hsend : Sending p 0 .high 800 s) (hcount : Counted c 1 s)
    (hc : Awaits T (encodeBits p) c) (hi : Inv s) (hT : T.md.busy = false) :
    ∃ t, LoopRuns (frameTime p - 600) s t ∧ chain t = chain T ∧ t.out.rxDone = true ∧ t.tx.busy = true := by
  obtain ⟨bs, hbits⟩ : ∃ bs, encodeBits p = false :: bs := ⟨_, rfl⟩
  rw [hbits] at hc
  obtain ⟨u, t, hrun, ht, hiu, hcall, hchain, hbusy⟩ := loop_bits hp (q := 0) (b := false) hbits hsend hcount hc hi
  have hmd : t.md = T.md := (chain_eq_iff.1 hchain).2.2.2.1
  have hdone : t.out.rxDone = true :=
    (tickWith_rxDone hiu rfl ht).1.2 ⟨hiu.md_busy.2 hcall, by rw [hmd, hT]⟩
  have htime : ((false :: bs).map symPeriod).sum = frameTime p := by
    rw [← hbits, encodeBits_eq_flatMap, sum_symPeriod_flatMap, sum_byteTime_frameBytes]
  have hlong : 1400 ≤ frameTime p := by
    rw [← htime, List.map_cons, List.sum_cons]
    exact Nat.le_add_right ..
  rw [htime] at hrun
  refine ⟨t, ?_, hchain, hdone, hbusy⟩
  rw [show frameTime p - 600 = frameTime p - 601 + 1 by omega]
  exact hrun.trans (loopRuns_one ht)

end

/-- Settles O53: the `SEND` begins its frame beside a `RECEIVE` that expects it, in the same tick or after low reads, and the
bits of the frame bring the `RECEIVE` to the end O32 gives it. -/
theorem loopbackDeliversThePayload : Obligations.LoopbackDeliversThePayload := by
  intro s cap p g hi hidle hmd hcall hline htied hp hcap hstored n delivers
  have hfree : rxFree s = true := (rxFree_iff s).2 ⟨hmd, hcall⟩
  obtain ⟨T, hT, hresult, hbusy, hbuf⟩ := acceptReceive_expects (s := s) hp hcap
  have hdelivers {hs : List HostIn} {c u : State} (hrun : loopTicks hs s = .next u) (hiu : Inv u)
      (hsend : Sending p 0 .high 800 u) (hc : Awaits T (encodeBits p) c) (hcount : Counted c 1 u) :
      delivers (hs ++ List.replicate (frameTime p - 600) quiet) := by
    obtain ⟨t, ht, hchain, hdone, hsending⟩ := loop_frame hp hsend hcount hc hiu hbusy
    obtain ⟨-, -, -, hmd', hbuf'⟩ := chain_eq_iff.1 hchain
    refine ⟨t, ?_, by rw [hmd', hresult], by rw [hmd', hbusy], hdone, hbuf'.trans hbuf, hsending⟩
    rw [loopTicks_append, hrun, andThen_next, ht]
  have hready : ReadyToSend p s := ⟨hidle, hline, hstored, htied⟩
  constructor
  · obtain ⟨s₁, haccept, hbefore⟩ := hready.acceptReceive hfree hT
    obtain ⟨s₂, hlow, hbefore⟩ := loopRuns_of_ticks (n := g) (P := fun _ => BeforeSend T p)
      (fun _ _ _ hs => hs.quiet) hbefore
    obtain ⟨c, u, hsend, hu, hc, hcount⟩ := hbefore.accept (h := startSend n) rfl rfl rfl rfl
    have hiu := tickWith_inv (hlow.inv (tickWith_inv hi haccept)) hsend
    have hrun : loopTicks (startReceive cap :: List.replicate g quiet ++ [startSend n]) s = .next u := by
      rw [loopTicks_append, loopTicks, haccept, andThen_next, hlow, andThen_next, loopTicks, hsend]
      rfl
    have hend := hdelivers hrun hiu hu hc hcount
    rwa [List.append_assoc, List.singleton_append] at hend
  · obtain ⟨c, u, haccept, hu, hc, hcount⟩ := hready.acceptBoth
      (h := { startSend n with rxStart := true, rxCapIn := cap }) hfree rfl rfl rfl rfl rfl hT
    have hrun : loopTicks [{ startSend n with rxStart := true, rxCapIn := cap }] s = .next u := by
      rw [loopTicks, haccept]
      rfl
    have hend := hdelivers hrun (tickWith_inv hi haccept) hu hc hcount
    rwa [List.singleton_append] at hend

end Sys2Proof.Machine
end
